-- ==== Sys2Proof/Word.lean ====
section
/-! DEFINITION. The word types of the machine: XLEN = 32 (spec/00_scope.md R2), bytes of 8 bits (R30), register
numbers as the 5-bit fields of an instruction (R71), CSR addresses of 12 bits (R174). -/

namespace Sys2Proof

/-- A byte of memory (R30). -/
abbrev Byte := BitVec 8

/-- A 32-bit value: register, pc, CSR, address, instruction word (R2). -/
abbrev Word := BitVec 32

/-- A register number: the 5-bit fields `rd`, `rs1`, `rs2` (R12, R71). -/
abbrev Reg := BitVec 5

/-- A 12-bit CSR address (R174). -/
abbrev CsrAddr := BitVec 12

end Sys2Proof
end

