-- ==== Sys2Proof/Config.lean ====
section
/-! DEFINITION. The parameters the hardware is a function of (spec/00_scope.md R2), the requests that cross the
block's boundary (R4), and the free values: constants without a body, of which nothing can be proved. -/

namespace Sys2Proof

/-- The size of a bus request: 1, 2 or 4 bytes (R44, R45, R52). -/
inductive Width where
  | byte
  | half
  | word
deriving DecidableEq, Repr

/-- What stands behind the MMIO hook (R46, R47): the default device, or a device of the platform, whose answers
the spec leaves to the platform (U7). -/
inductive MmioDevice where
  | default
  | platform
deriving DecidableEq, Repr

/-- What the MISC-MEM opcode does (R161). -/
inductive MiscMemPolicy where
  | nopBoth
  | nopFenceOnly
  | illegal
deriving DecidableEq, Repr

/-- The parameters `MTVAL_*` (R2, D4): the values R190 decides, or others, which the spec leaves open (U11). -/
inductive MtvalRule where
  | decided
  | other
deriving DecidableEq, Repr

/-- A request handed to the MMIO hook: address and size, and for a write the data cut to the size (R46, R47). -/
inductive MmioRequest where
  | read (addr : Word) (width : Width)
  | write (addr : Word) (width : Width) (data : Word)
deriving DecidableEq, Repr

/-- Whether the calls of the host behind `IOCALL` always return, a property of the parameter `BRIDGE` (R2, R185:
"If the host never returns, the step never ends"; log 18). -/
inductive BridgeHost where
  | returns
  | mayBlock
deriving DecidableEq, Repr

/-- The call number of an `IOCALL` and `x10` to `x17` (R182, R183 point 1). -/
structure BridgeCall where
  number : Word
  args : Vector Word 8
deriving DecidableEq, Repr

/-- The classes of R184, each with the arguments that name its buffer. -/
inductive BridgeKind where
  /-- A call number the host does not know: it fails (R183 point 4). -/
  | unknown
  /-- Character output, `close`: no memory. -/
  | values
  /-- `open`: a NUL-terminated path at the address in an argument, within a length bound. -/
  | path (addrArg : Fin 8)
  /-- `read`: a buffer the host may fill, the only call that writes memory. -/
  | read (addrArg lenArg : Fin 8)
  /-- `write`: a buffer the host only reads. -/
  | write (addrArg lenArg : Fin 8)
deriving DecidableEq, Repr, Inhabited

/-- What reaches the host: a call, and the bytes of the buffer it names, read through the DMA accessor (R183 points 1
and 3); no bytes for a call that names none. -/
structure BridgeEvent where
  call : BridgeCall
  bytes : List Byte
deriving DecidableEq, Repr

/-- The host's answer to a call (R183): the result word, and for a `read` call the bytes for the buffer. -/
structure BridgeAnswer where
  result : Word
  data : List Byte
deriving DecidableEq, Repr, Inhabited

/-- The parameters of R2 that the source leaves open, each under the name the spec gives it. `RAM_SIZE` is a power of two, so
its exponent is held. -/
structure Config where
  ramBase : Word
  ramSizeLog2 : Nat
  misa : Word
  mvendorid : Word
  marchid : Word
  mimpid : Word
  mhartid : Word
  abortOnIllegal : Bool
  mmio : MmioDevice
  host : BridgeHost
  f3Exiti : BitVec 3
  f3Exit : BitVec 3
  f3Iocall : BitVec 3
  miscMem : MiscMemPolicy
  ecIAlign : Word
  ecIllegal : Word
  ecBreak : Word
  ecLAlign : Word
  ecSAlign : Word
  ecEcallM : Word
  mtvalRule : MtvalRule
deriving DecidableEq, Repr

/-- FREE VALUE (log 8). What a platform device answers to a read (R46, U7: "any value of the access width drawn by
the device"): it may depend on every request handed to it before. -/
opaque Config.mmioRead (log : List MmioRequest) (addr : Word) (width : Width) : Word

/-- FREE VALUE (log 9). Which class of R184 a call number is, and which arguments name the buffer: the source gives no
number and no assignment (91 N10). -/
opaque Config.bridgeKind (number : Word) : BridgeKind

/-- FREE VALUE (log 9). The length within which the host looks for the end of a path at an address: a "fixed maximum
length" without a value in the source (R184), or what is left of RAM where that is less. -/
opaque Config.pathLength (addr : Word) : Word

/-- FREE VALUE (log 9). What the host answers (R183, U8): a function of all that has ever reached it, newest first, and
of the call that reaches it now. -/
opaque Config.bridge (log : List BridgeEvent) (event : BridgeEvent) : BridgeAnswer

/-- FREE VALUE (log 18). Whether a host that may block returns from a call (R185). -/
opaque Config.bridgeReturns (log : List BridgeEvent) (event : BridgeEvent) : Bool

/-- FREE VALUE (log 7). What trap entry writes to `mtval` under other parameters `MTVAL_*` than the decided ones, for every
cause but the store one, which the source fixes (D4, U11): a function of the cause, `pc`, the target or effective
address, and the instruction word, which is fixed by RAM and the requests made so far. -/
opaque Config.mtvalOther (cause pc value : Word) (ram : List Host.Cell) (log : List MmioRequest) : Word

/-- FREE VALUE (log 10). Whether the DMA accessor admits length 0 at an address inside the array or at its end, which
the source does not say (R53, U15, 91 N12). -/
opaque Config.dmaZeroLength (c : Config) (addr : Word) : Bool

end Sys2Proof
end

