-- ==== Sys2Proof/Machine/Platform.lean ====
section
/-! DEFINITION. The reference configuration CFG0 (spec/00_scope.md R2, default column), the constraints R2 puts on a
configuration, and the values the model names where the spec gives none at reset (log 2 to 5). -/

namespace Sys2Proof

/-- CFG0, the default column of R2's table (log 2). -/
def Config.cfg0 : Config where
  ramBase := 0x80000000
  ramSizeLog2 := 16
  misa := 0x40001100
  mvendorid := 0
  marchid := 0
  mimpid := 0
  mhartid := 0
  abortOnIllegal := false
  mmio := .default
  host := .returns
  f3Exiti := 0
  f3Exit := 1
  f3Iocall := 2
  miscMem := .nopBoth
  ecIAlign := 0
  ecIllegal := 2
  ecBreak := 3
  ecLAlign := 4
  ecSAlign := 6
  ecEcallM := 11
  mtvalRule := .decided

/-- The six cause codes in the order of R190's table. -/
def Config.causeCodes (c : Config) : List Word :=
  [c.ecIAlign, c.ecIllegal, c.ecBreak, c.ecLAlign, c.ecSAlign, c.ecEcallM]

/-- The constraint column of R2: `RAM_BASE` a multiple of 4, `RAM_SIZE` at least 4 (a power of two by its form), the
three custom-0 funct3 values distinct, the six cause codes distinct with bit 31 clear. -/
def Config.wf (c : Config) : Bool :=
  decide (c.ramBase.toNat % 4 = 0) && decide (2 ≤ c.ramSizeLog2)
    && (c.f3Exiti != c.f3Exit && c.f3Exiti != c.f3Iocall && c.f3Exit != c.f3Iocall)
    && decide c.causeCodes.Nodup && c.causeCodes.all (fun e => !e.msb)

/-- What a RAM byte that nothing has written reads as. DESIGN CHOICE (log 5, unsafe): the spec leaves RESET_RAM open
(R37); the value is CFG0's. -/
def unwrittenByte : Byte := 0x00

/-- `x1` to `x31` at reset. DESIGN CHOICE (log 3, unsafe): the spec leaves RESET_X open (R34). -/
def resetX : Word := 0x00000000

/-- `mscratch`, `mtvec`, `mepc`, `mcause`, `mtval` at reset. DESIGN CHOICE (log 4, unsafe): the spec leaves RESET_CSR
open (R35). -/
def resetCsr : Word := 0x00000000

end Sys2Proof
end

