-- ==== Sys2Proof/WellFormed.lean ====
section
/-! DEFINITION. When an instruction term can be written as a word of this hardware. Fields have their exact widths, so
what is left to check is bit 0 of a branch or jump offset (spec/30_encoding.md R75, R77: "bit 0 is always 0") and whether
the configuration has FENCE and FENCE.I at all (spec/43_load_store_fence.md R161). -/

namespace Sys2Proof

/-- A B offset is even (R75). -/
def evenB (offset : BitVec 13) : Bool := !offset.getLsbD 0

/-- A J offset is even (R77). -/
def evenJ (offset : BitVec 21) : Bool := !offset.getLsbD 0

def Instr.wf (c : Config) : Instr → Bool
  | .lui _ _ => true
  | .auipc _ _ => true
  | .jal _ offset => evenJ offset
  | .jalr _ _ _ => true
  | .beq _ _ offset => evenB offset
  | .bne _ _ offset => evenB offset
  | .blt _ _ offset => evenB offset
  | .bge _ _ offset => evenB offset
  | .bltu _ _ offset => evenB offset
  | .bgeu _ _ offset => evenB offset
  | .lb _ _ _ => true
  | .lh _ _ _ => true
  | .lw _ _ _ => true
  | .lbu _ _ _ => true
  | .lhu _ _ _ => true
  | .sb _ _ _ => true
  | .sh _ _ _ => true
  | .sw _ _ _ => true
  | .addi _ _ _ => true
  | .slti _ _ _ => true
  | .sltiu _ _ _ => true
  | .xori _ _ _ => true
  | .ori _ _ _ => true
  | .andi _ _ _ => true
  | .slli _ _ _ => true
  | .srli _ _ _ => true
  | .srai _ _ _ => true
  | .add _ _ _ => true
  | .sub _ _ _ => true
  | .sll _ _ _ => true
  | .slt _ _ _ => true
  | .sltu _ _ _ => true
  | .xor _ _ _ => true
  | .srl _ _ _ => true
  | .sra _ _ _ => true
  | .or _ _ _ => true
  | .and _ _ _ => true
  | .mul _ _ _ => true
  | .mulh _ _ _ => true
  | .mulhsu _ _ _ => true
  | .mulhu _ _ _ => true
  | .div _ _ _ => true
  | .divu _ _ _ => true
  | .rem _ _ _ => true
  | .remu _ _ _ => true
  | .fence => c.miscMem != .illegal
  | .fenceI => c.miscMem == .nopBoth
  | .ecall => true
  | .ebreak => true
  | .mret => true
  | .csrrw _ _ _ => true
  | .csrrs _ _ _ => true
  | .csrrc _ _ _ => true
  | .csrrwi _ _ _ => true
  | .csrrsi _ _ _ => true
  | .csrrci _ _ _ => true
  | .exiti _ => true
  | .exit _ => true
  | .iocall _ => true

end Sys2Proof
end

