-- ==== Sys2Proof/Decode.lean ====
section
/-! DEFINITION. The Field Decoder (spec/30_encoding.md R71 to R78), the decoder (R80), and the encoder written from the
format layouts of R72 and the opcode table. Decoding is total: every word is an instruction or is rejected under the item
of R81 that rejects it. -/

namespace Sys2Proof

/-! ## Fields (R71) -/

def opcodeOf (ins : Word) : BitVec 7 := ins.extractLsb' 0 7
def rdOf (ins : Word) : Reg := ins.extractLsb' 7 5
def funct3Of (ins : Word) : BitVec 3 := ins.extractLsb' 12 3
def rs1Of (ins : Word) : Reg := ins.extractLsb' 15 5
def rs2Of (ins : Word) : Reg := ins.extractLsb' 20 5
def funct7Of (ins : Word) : BitVec 7 := ins.extractLsb' 25 7
/-- The CSR address: the I-immediate field read unsigned (R176). -/
def csrOf (ins : Word) : CsrAddr := ins.extractLsb' 20 12
/-- The `rs1` field as a literal (R176). -/
def uimmOf (ins : Word) : BitVec 5 := ins.extractLsb' 15 5
/-- The 5-bit shift amount (R71). -/
def shamtOf (ins : Word) : BitVec 5 := ins.extractLsb' 20 5

/-! ## Immediates, as the fields they are assembled from (R73 to R77) -/

/-- R73: bits 31:20. -/
def immIOf (ins : Word) : BitVec 12 := ins.extractLsb' 20 12
/-- R74: bits 31:25 and 11:7. -/
def immSOf (ins : Word) : BitVec 12 := ins.extractLsb' 25 7 ++ ins.extractLsb' 7 5
/-- R75: bit 31, bit 7, bits 30:25, bits 11:8, and a zero. -/
def immBOf (ins : Word) : BitVec 13 :=
  ins.extractLsb' 31 1 ++ ins.extractLsb' 7 1 ++ ins.extractLsb' 25 6 ++ ins.extractLsb' 8 4 ++ 0#1
/-- R76: bits 31:12. -/
def immUOf (ins : Word) : BitVec 20 := ins.extractLsb' 12 20
/-- R77: bit 31, bits 19:12, bit 20, bits 30:21, and a zero. -/
def immJOf (ins : Word) : BitVec 21 :=
  ins.extractLsb' 31 1 ++ ins.extractLsb' 12 8 ++ ins.extractLsb' 20 1 ++ ins.extractLsb' 21 10 ++ 0#1

/-! ## The decoder (R80) -/

/-- Why a word is no instruction: the items of R81, in its order; `truncated` is fewer than four bytes (R70: every
instruction is one 32-bit word). -/
inductive Illegal where
  | unrecognizedOpcode
  | jalrFunct3
  | branchFunct3
  | loadFunct3
  | storeFunct3
  | shiftImmediate
  | opGroup
  | miscMem
  | system
  | custom0
  | truncated
deriving DecidableEq, Repr

def decodeBranch (ins : Word) : Except Illegal Instr :=
  match funct3Of ins with
  | 0#3 => .ok (.beq (rs1Of ins) (rs2Of ins) (immBOf ins))
  | 1#3 => .ok (.bne (rs1Of ins) (rs2Of ins) (immBOf ins))
  | 4#3 => .ok (.blt (rs1Of ins) (rs2Of ins) (immBOf ins))
  | 5#3 => .ok (.bge (rs1Of ins) (rs2Of ins) (immBOf ins))
  | 6#3 => .ok (.bltu (rs1Of ins) (rs2Of ins) (immBOf ins))
  | 7#3 => .ok (.bgeu (rs1Of ins) (rs2Of ins) (immBOf ins))
  | _ => .error .branchFunct3

def decodeLoad (ins : Word) : Except Illegal Instr :=
  match funct3Of ins with
  | 0#3 => .ok (.lb (rdOf ins) (rs1Of ins) (immIOf ins))
  | 1#3 => .ok (.lh (rdOf ins) (rs1Of ins) (immIOf ins))
  | 2#3 => .ok (.lw (rdOf ins) (rs1Of ins) (immIOf ins))
  | 4#3 => .ok (.lbu (rdOf ins) (rs1Of ins) (immIOf ins))
  | 5#3 => .ok (.lhu (rdOf ins) (rs1Of ins) (immIOf ins))
  | _ => .error .loadFunct3

def decodeStore (ins : Word) : Except Illegal Instr :=
  match funct3Of ins with
  | 0#3 => .ok (.sb (rs2Of ins) (rs1Of ins) (immSOf ins))
  | 1#3 => .ok (.sh (rs2Of ins) (rs1Of ins) (immSOf ins))
  | 2#3 => .ok (.sw (rs2Of ins) (rs1Of ins) (immSOf ins))
  | _ => .error .storeFunct3

/-- R83: a shift immediate compares all of `ins[31:25]`. -/
def decodeOpImm (ins : Word) : Except Illegal Instr :=
  match funct3Of ins with
  | 0#3 => .ok (.addi (rdOf ins) (rs1Of ins) (immIOf ins))
  | 2#3 => .ok (.slti (rdOf ins) (rs1Of ins) (immIOf ins))
  | 3#3 => .ok (.sltiu (rdOf ins) (rs1Of ins) (immIOf ins))
  | 4#3 => .ok (.xori (rdOf ins) (rs1Of ins) (immIOf ins))
  | 6#3 => .ok (.ori (rdOf ins) (rs1Of ins) (immIOf ins))
  | 7#3 => .ok (.andi (rdOf ins) (rs1Of ins) (immIOf ins))
  | 1#3 =>
    if funct7Of ins = 0b0000000#7 then .ok (.slli (rdOf ins) (rs1Of ins) (shamtOf ins))
    else .error .shiftImmediate
  | _ => -- funct3 5, the one value left
    if funct7Of ins = 0b0000000#7 then .ok (.srli (rdOf ins) (rs1Of ins) (shamtOf ins))
    else if funct7Of ins = 0b0100000#7 then .ok (.srai (rdOf ins) (rs1Of ins) (shamtOf ins))
    else .error .shiftImmediate

/-- The base group of R82. -/
def decodeOpBase (ins : Word) : Except Illegal Instr :=
  match funct3Of ins with
  | 0#3 => .ok (.add (rdOf ins) (rs1Of ins) (rs2Of ins))
  | 1#3 => .ok (.sll (rdOf ins) (rs1Of ins) (rs2Of ins))
  | 2#3 => .ok (.slt (rdOf ins) (rs1Of ins) (rs2Of ins))
  | 3#3 => .ok (.sltu (rdOf ins) (rs1Of ins) (rs2Of ins))
  | 4#3 => .ok (.xor (rdOf ins) (rs1Of ins) (rs2Of ins))
  | 5#3 => .ok (.srl (rdOf ins) (rs1Of ins) (rs2Of ins))
  | 6#3 => .ok (.or (rdOf ins) (rs1Of ins) (rs2Of ins))
  | _ /- 7 -/ => .ok (.and (rdOf ins) (rs1Of ins) (rs2Of ins))

/-- The SUB/SRA group of R82. -/
def decodeOpAlt (ins : Word) : Except Illegal Instr :=
  match funct3Of ins with
  | 0#3 => .ok (.sub (rdOf ins) (rs1Of ins) (rs2Of ins))
  | 5#3 => .ok (.sra (rdOf ins) (rs1Of ins) (rs2Of ins))
  | _ => .error .opGroup

/-- The M group of R82. -/
def decodeOpM (ins : Word) : Except Illegal Instr :=
  match funct3Of ins with
  | 0#3 => .ok (.mul (rdOf ins) (rs1Of ins) (rs2Of ins))
  | 1#3 => .ok (.mulh (rdOf ins) (rs1Of ins) (rs2Of ins))
  | 2#3 => .ok (.mulhsu (rdOf ins) (rs1Of ins) (rs2Of ins))
  | 3#3 => .ok (.mulhu (rdOf ins) (rs1Of ins) (rs2Of ins))
  | 4#3 => .ok (.div (rdOf ins) (rs1Of ins) (rs2Of ins))
  | 5#3 => .ok (.divu (rdOf ins) (rs1Of ins) (rs2Of ins))
  | 6#3 => .ok (.rem (rdOf ins) (rs1Of ins) (rs2Of ins))
  | _ /- 7 -/ => .ok (.remu (rdOf ins) (rs1Of ins) (rs2Of ins))

/-- R82: the whole funct7 selects the group. -/
def decodeOp (ins : Word) : Except Illegal Instr :=
  if funct7Of ins = 0b0000000#7 then decodeOpBase ins
  else if funct7Of ins = 0b0100000#7 then decodeOpAlt ins
  else if funct7Of ins = 0b0000001#7 then decodeOpM ins
  else .error .opGroup

/-- R161: the MISC-MEM opcode under each policy. -/
def decodeMiscMem (c : Config) (ins : Word) : Except Illegal Instr :=
  if funct3Of ins = 0#3 && c.miscMem != .illegal then .ok .fence
  else if funct3Of ins = 1#3 && c.miscMem == .nopBoth then .ok .fenceI
  else .error .miscMem

/-- R177, R84: funct3 0 compares the whole word. -/
def decodeSystem (ins : Word) : Except Illegal Instr :=
  match funct3Of ins with
  | 0#3 =>
    if ins = 0x00000073#32 then .ok .ecall
    else if ins = 0x00100073#32 then .ok .ebreak
    else if ins = 0x30200073#32 then .ok .mret
    else .error .system
  | 1#3 => .ok (.csrrw (rdOf ins) (csrOf ins) (rs1Of ins))
  | 2#3 => .ok (.csrrs (rdOf ins) (csrOf ins) (rs1Of ins))
  | 3#3 => .ok (.csrrc (rdOf ins) (csrOf ins) (rs1Of ins))
  | 5#3 => .ok (.csrrwi (rdOf ins) (csrOf ins) (uimmOf ins))
  | 6#3 => .ok (.csrrsi (rdOf ins) (csrOf ins) (uimmOf ins))
  | 7#3 => .ok (.csrrci (rdOf ins) (csrOf ins) (uimmOf ins))
  | _ => .error .system

/-- R85, R186: the funct3 values are parameters. -/
def decodeCustom0 (c : Config) (ins : Word) : Except Illegal Instr :=
  if funct3Of ins = c.f3Exiti then .ok (.exiti (immIOf ins))
  else if funct3Of ins = c.f3Exit then .ok (.exit (rs1Of ins))
  else if funct3Of ins = c.f3Iocall then .ok (.iocall (immIOf ins))
  else .error .custom0

/-- The decision procedure of R80, by major opcode (R79). -/
def decode (c : Config) (ins : Word) : Except Illegal Instr :=
  if opcodeOf ins = 0x37#7 then .ok (.lui (rdOf ins) (immUOf ins))
  else if opcodeOf ins = 0x17#7 then .ok (.auipc (rdOf ins) (immUOf ins))
  else if opcodeOf ins = 0x6F#7 then .ok (.jal (rdOf ins) (immJOf ins))
  else if opcodeOf ins = 0x67#7 then
    if funct3Of ins = 0#3 then .ok (.jalr (rdOf ins) (rs1Of ins) (immIOf ins)) else .error .jalrFunct3
  else if opcodeOf ins = 0x63#7 then decodeBranch ins
  else if opcodeOf ins = 0x03#7 then decodeLoad ins
  else if opcodeOf ins = 0x23#7 then decodeStore ins
  else if opcodeOf ins = 0x13#7 then decodeOpImm ins
  else if opcodeOf ins = 0x33#7 then decodeOp ins
  else if opcodeOf ins = 0x0F#7 then decodeMiscMem c ins
  else if opcodeOf ins = 0x73#7 then decodeSystem ins
  else if opcodeOf ins = 0x0B#7 then decodeCustom0 c ins
  else .error .unrecognizedOpcode

/-- The word of four bytes, the first at the lowest address: little-endian (R43). -/
def wordOfBytes (b0 b1 b2 b3 : Byte) : Word := b3 ++ b2 ++ b1 ++ b0

/-- Decoding from a list of bytes, total on every list. -/
def decodeBytes (c : Config) : List Byte → Except Illegal Instr
  | b0 :: b1 :: b2 :: b3 :: _ => decode c (wordOfBytes b0 b1 b2 b3)
  | _ => .error .truncated

/-! ## The encoder (R72, and the match words of R80's table) -/

def encR (funct7 : BitVec 7) (rs2 rs1 : Reg) (funct3 : BitVec 3) (rd : Reg) (opcode : BitVec 7) : Word :=
  funct7 ++ rs2 ++ rs1 ++ funct3 ++ rd ++ opcode

def encI (imm : BitVec 12) (rs1 : Reg) (funct3 : BitVec 3) (rd : Reg) (opcode : BitVec 7) : Word :=
  imm ++ rs1 ++ funct3 ++ rd ++ opcode

def encS (imm : BitVec 12) (rs2 rs1 : Reg) (funct3 : BitVec 3) (opcode : BitVec 7) : Word :=
  imm.extractLsb' 5 7 ++ rs2 ++ rs1 ++ funct3 ++ imm.extractLsb' 0 5 ++ opcode

def encB (imm : BitVec 13) (rs2 rs1 : Reg) (funct3 : BitVec 3) (opcode : BitVec 7) : Word :=
  imm.extractLsb' 12 1 ++ imm.extractLsb' 5 6 ++ rs2 ++ rs1 ++ funct3
    ++ imm.extractLsb' 1 4 ++ imm.extractLsb' 11 1 ++ opcode

def encU (imm : BitVec 20) (rd : Reg) (opcode : BitVec 7) : Word := imm ++ rd ++ opcode

def encJ (imm : BitVec 21) (rd : Reg) (opcode : BitVec 7) : Word :=
  imm.extractLsb' 20 1 ++ imm.extractLsb' 1 10 ++ imm.extractLsb' 11 1 ++ imm.extractLsb' 12 8 ++ rd ++ opcode

/-- The word of an instruction; ignored fields are zero (R87, R92). -/
def encode (c : Config) : Instr → Word
  | .lui rd imm => encU imm rd 0x37#7
  | .auipc rd imm => encU imm rd 0x17#7
  | .jal rd offset => encJ offset rd 0x6F#7
  | .jalr rd rs1 imm => encI imm rs1 0#3 rd 0x67#7
  | .beq rs1 rs2 offset => encB offset rs2 rs1 0#3 0x63#7
  | .bne rs1 rs2 offset => encB offset rs2 rs1 1#3 0x63#7
  | .blt rs1 rs2 offset => encB offset rs2 rs1 4#3 0x63#7
  | .bge rs1 rs2 offset => encB offset rs2 rs1 5#3 0x63#7
  | .bltu rs1 rs2 offset => encB offset rs2 rs1 6#3 0x63#7
  | .bgeu rs1 rs2 offset => encB offset rs2 rs1 7#3 0x63#7
  | .lb rd rs1 imm => encI imm rs1 0#3 rd 0x03#7
  | .lh rd rs1 imm => encI imm rs1 1#3 rd 0x03#7
  | .lw rd rs1 imm => encI imm rs1 2#3 rd 0x03#7
  | .lbu rd rs1 imm => encI imm rs1 4#3 rd 0x03#7
  | .lhu rd rs1 imm => encI imm rs1 5#3 rd 0x03#7
  | .sb rs2 rs1 imm => encS imm rs2 rs1 0#3 0x23#7
  | .sh rs2 rs1 imm => encS imm rs2 rs1 1#3 0x23#7
  | .sw rs2 rs1 imm => encS imm rs2 rs1 2#3 0x23#7
  | .addi rd rs1 imm => encI imm rs1 0#3 rd 0x13#7
  | .slti rd rs1 imm => encI imm rs1 2#3 rd 0x13#7
  | .sltiu rd rs1 imm => encI imm rs1 3#3 rd 0x13#7
  | .xori rd rs1 imm => encI imm rs1 4#3 rd 0x13#7
  | .ori rd rs1 imm => encI imm rs1 6#3 rd 0x13#7
  | .andi rd rs1 imm => encI imm rs1 7#3 rd 0x13#7
  | .slli rd rs1 shamt => encR 0b0000000#7 shamt rs1 1#3 rd 0x13#7
  | .srli rd rs1 shamt => encR 0b0000000#7 shamt rs1 5#3 rd 0x13#7
  | .srai rd rs1 shamt => encR 0b0100000#7 shamt rs1 5#3 rd 0x13#7
  | .add rd rs1 rs2 => encR 0b0000000#7 rs2 rs1 0#3 rd 0x33#7
  | .sub rd rs1 rs2 => encR 0b0100000#7 rs2 rs1 0#3 rd 0x33#7
  | .sll rd rs1 rs2 => encR 0b0000000#7 rs2 rs1 1#3 rd 0x33#7
  | .slt rd rs1 rs2 => encR 0b0000000#7 rs2 rs1 2#3 rd 0x33#7
  | .sltu rd rs1 rs2 => encR 0b0000000#7 rs2 rs1 3#3 rd 0x33#7
  | .xor rd rs1 rs2 => encR 0b0000000#7 rs2 rs1 4#3 rd 0x33#7
  | .srl rd rs1 rs2 => encR 0b0000000#7 rs2 rs1 5#3 rd 0x33#7
  | .sra rd rs1 rs2 => encR 0b0100000#7 rs2 rs1 5#3 rd 0x33#7
  | .or rd rs1 rs2 => encR 0b0000000#7 rs2 rs1 6#3 rd 0x33#7
  | .and rd rs1 rs2 => encR 0b0000000#7 rs2 rs1 7#3 rd 0x33#7
  | .mul rd rs1 rs2 => encR 0b0000001#7 rs2 rs1 0#3 rd 0x33#7
  | .mulh rd rs1 rs2 => encR 0b0000001#7 rs2 rs1 1#3 rd 0x33#7
  | .mulhsu rd rs1 rs2 => encR 0b0000001#7 rs2 rs1 2#3 rd 0x33#7
  | .mulhu rd rs1 rs2 => encR 0b0000001#7 rs2 rs1 3#3 rd 0x33#7
  | .div rd rs1 rs2 => encR 0b0000001#7 rs2 rs1 4#3 rd 0x33#7
  | .divu rd rs1 rs2 => encR 0b0000001#7 rs2 rs1 5#3 rd 0x33#7
  | .rem rd rs1 rs2 => encR 0b0000001#7 rs2 rs1 6#3 rd 0x33#7
  | .remu rd rs1 rs2 => encR 0b0000001#7 rs2 rs1 7#3 rd 0x33#7
  | .fence => encI 0#12 0#5 0#3 0#5 0x0F#7
  | .fenceI => encI 0#12 0#5 1#3 0#5 0x0F#7
  | .ecall => 0x00000073#32
  | .ebreak => 0x00100073#32
  | .mret => 0x30200073#32
  | .csrrw rd csr rs1 => encI csr rs1 1#3 rd 0x73#7
  | .csrrs rd csr rs1 => encI csr rs1 2#3 rd 0x73#7
  | .csrrc rd csr rs1 => encI csr rs1 3#3 rd 0x73#7
  | .csrrwi rd csr uimm => encI csr uimm 5#3 rd 0x73#7
  | .csrrsi rd csr uimm => encI csr uimm 6#3 rd 0x73#7
  | .csrrci rd csr uimm => encI csr uimm 7#3 rd 0x73#7
  | .exiti imm => encI imm 0#5 c.f3Exiti 0#5 0x0B#7
  | .exit rs1 => encI 0#12 rs1 c.f3Exit 0#5 0x0B#7
  | .iocall imm => encI imm 0#5 c.f3Iocall 0#5 0x0B#7

/-- The bytes of a word in memory order (R43). -/
def wordBytes (w : Word) : List Byte :=
  [w.extractLsb' 0 8, w.extractLsb' 8 8, w.extractLsb' 16 8, w.extractLsb' 24 8]

/-- The instruction word whose low `nbits` bits are `w` and whose other bits are zero. -/
def tableWord (nbits w : Nat) : Word := BitVec.ofNat 32 (w % 2 ^ min nbits 32)

/-- The instruction the decoder reads, under CFG0, from an opcode-table word laid out in memory. -/
def decodeTableWord (nbits w : Nat) : Option Instr :=
  (decodeBytes Config.cfg0 (wordBytes (tableWord nbits w))).toOption

end Sys2Proof
end

