-- ==== Sys2Proof/Machine/Flags.lean ====
section
/-! DEFINITION. The hardware has no status flags and no condition codes (spec/10_state.md R15): a comparison writes 0 or 1
to a register or decides a branch. These are the comparisons (spec/40_integer_computational.md R101, R102, R114, R115;
spec/42_control_transfer.md R142 to R147). -/

namespace Sys2Proof.Machine

/-- Signed less-than, on `s32` values. -/
def ltSigned (a b : Word) : Bool := decide (a.toInt < b.toInt)

/-- Unsigned less-than, on `u32` values. -/
def ltUnsigned (a b : Word) : Bool := decide (a.toNat < b.toNat)

/-- The result of a set-less-than: exactly 0 or 1 (R101, R114). -/
def boolWord (b : Bool) : Word := if b then 1#32 else 0#32

end Sys2Proof.Machine
end

