-- ==== Sys2Proof/Machine/Operands.lean ====
section
/-! DEFINITION. Operand values: the 32-bit immediates (spec/30_encoding.md R73 to R78) and the shift amounts
(spec/40_integer_computational.md R123). The hardware has one addressing mode, base plus displacement
(spec/43_load_store_fence.md R158); its sum is formed in Machine/LoadStore.lean. -/

namespace Sys2Proof.Machine

/-- `immI` and `immS`: the 12-bit field sign-extended (R73, R74). -/
def immVal (imm : BitVec 12) : Word := imm.signExtend 32

/-- `immB`: the 13-bit offset sign-extended (R75). -/
def offsetB (offset : BitVec 13) : Word := offset.signExtend 32

/-- `immJ`: the 21-bit offset sign-extended (R77). -/
def offsetJ (offset : BitVec 21) : Word := offset.signExtend 32

/-- `immU`: the 20-bit field in place, the low 12 bits zero (R76). -/
def immUVal (imm : BitVec 20) : Word := imm ++ 0#12

/-- `uimm`: the 5-bit literal zero-extended (R176). -/
def uimmVal (uimm : BitVec 5) : Word := uimm.setWidth 32

/-- The amount of a register shift: bits 4:0 of the source (R123). -/
def shiftAmount (v : Word) : Nat := (v &&& 0x1F#32).toNat

end Sys2Proof.Machine
end

