-- ==== Sys2Proof/Machine/State.lean ====
section
/-! DEFINITION. The state of the machine between two steps (spec/10_state.md section 1, R31), with the configuration it is a
function of (spec/00_scope.md R2), and the state after reset (R38, R220). -/

namespace Sys2Proof.Machine

/-- RAM as (address, byte) pairs: the address is the byte's place in the first RAM image, `RAM_BASE` to
`RAM_BASE + RAM_SIZE - 1` (R54); addresses strictly rise, and no byte listed equals `unwrittenByte`. -/
abbrev Memory := List Host.Cell

/-- The run state (R29). -/
inductive RunState where
  | running
  | halted (code : Word)
  | aborted
deriving DecidableEq, Repr

/-- Why a step stops the model. -/
inductive Fault where
  /-- Raised by `step` on a machine whose run has ended (R29, R212: `Halted` and `Aborted` have no outgoing
  transition). Safe: the hardware takes no step there either (log 11). -/
  | runEnded
  /-- Raised by `IOCALL` when the host never returns: "the step never ends" (R185). Only under a host that may block.
  Safe: no next state is claimed (log 18). -/
  | hostNeverReturns
deriving DecidableEq, Repr

/-- Why the model gives a step no meaning. -/
inductive Refusal where
  /-- Raised by `exec` for an instruction whose arm has no meaning yet. Safe: nothing is claimed of it. -/
  | notModelled (mnemonic : String)
  /-- Raised by `MRET` with `mepc[1:0] != 0`, which the spec leaves undefined and says to refuse (R167, D17). Safe:
  no next state is claimed (log 12). -/
  | mretMisaligned
deriving DecidableEq, Repr

/-- The machine's state. `cfg` is the configuration of R2, which no step changes (log 1). `mmioLog` and `bridgeLog`
are the model's own fields: the requests handed to a platform device and all that has reached the host so far, newest
first, at which the free values of Config are taken (log 8, log 9). -/
structure State where
  cfg : Config
  /-- `x0` to `x31` (R10); the cell of `x0` is never read (log 15). -/
  regs : Vector Word 32
  pc : Word
  mscratch : Word
  mtvec : Word
  mepc : Word
  mcause : Word
  mtval : Word
  run : RunState
  mem : Memory
  mmioLog : List MmioRequest
  bridgeLog : List BridgeEvent
deriving DecidableEq, Repr

/-- The state after reset, no image loaded (R38, R220; log 2 to 5, log 17). -/
def State.reset : State where
  cfg := Config.cfg0
  regs := (Vector.replicate 32 resetX).set 0 0
  pc := Config.cfg0.ramBase
  mscratch := resetCsr
  mtvec := resetCsr
  mepc := resetCsr
  mcause := resetCsr
  mtval := resetCsr
  run := .running
  mem := []
  mmioLog := []
  bridgeLog := []

end Sys2Proof.Machine
end

