-- ==== Sys2Proof/Machine/Ops.lean ====
section
/-! DEFINITION. The named operations of the machine: registers, memory, the bus, CSRs, taking an exception and returning
from one, the end of a run, the DMA accessor and the bridge. Every meaning is built from these. -/

namespace Sys2Proof.Machine

abbrev Result := Host.Outcome State Fault Refusal

/-! ## General registers (R10) -/

/-- A read of `x[0]` is zero whatever its cell holds. -/
def readReg (g : Vector Word 32) (r : Reg) : Word := if r = 0#5 then 0#32 else g[r.toNat]

/-- A write to `x[0]` is discarded. -/
def writeReg (g : Vector Word 32) (r : Reg) (v : Word) : Vector Word 32 :=
  if r = 0#5 then g else g.set r.toNat v

def State.x (s : State) (r : Reg) : Word := readReg s.regs r
def State.setX (s : State) (r : Reg) (v : Word) : State := { s with regs := writeReg s.regs r v }
def State.setPc (s : State) (a : Word) : State := { s with pc := a }
def State.setRun (s : State) (r : RunState) : State := { s with run := r }
def State.setMem (s : State) (m : Memory) : State := { s with mem := m }

/-! ## Memory cells -/

/-- The byte at an address of the list; an unlisted address reads as `unwrittenByte` (log 5). -/
def memGet : Memory → Nat → Byte
  | [], _ => unwrittenByte
  | (k, b) :: m, a => if a = k then b else memGet m a

def memRemove : Memory → Nat → Memory
  | [], _ => []
  | (k, b) :: m, a => if a = k then memRemove m a else (k, b) :: memRemove m a

/-- Lists a byte before the first greater address. -/
def memInsert : Memory → Nat → Byte → Memory
  | [], a, v => [(a, v)]
  | (k, b) :: m, a, v => if a < k then (a, v) :: (k, b) :: m else (k, b) :: memInsert m a v

/-- Writing what an unlisted address reads as removes the entry, so equal memories are equal lists. -/
def memSet (m : Memory) (a : Nat) (v : Byte) : Memory :=
  if v = unwrittenByte then memRemove m a else memInsert (memRemove m a) a v

/-- Bytes at successive addresses. -/
def memSetList : Memory → Nat → List Byte → Memory
  | m, _, [] => m
  | m, a, v :: vs => memSetList (memSet m a v) (a + 1) vs

/-- The canonical form: addresses strictly rise from `lo` on and no byte listed reads as an unlisted one. -/
def memWfFrom : Nat → Memory → Bool
  | _, [] => true
  | lo, (k, b) :: m => decide (lo ≤ k) && b != unwrittenByte && memWfFrom (k + 1) m

def Memory.wf (m : Memory) : Bool := memWfFrom 0 m

/-- Every address listed lies in `lo ≤ k < hi`. -/
def memWithin (lo hi : Nat) : Memory → Bool
  | [] => true
  | (k, _) :: m => decide (lo ≤ k ∧ k < hi) && memWithin lo hi m

/-! ## Address map (R41, R42) -/

def ramSize (c : Config) : Nat := 2 ^ c.ramSizeLog2

/-- `a >= RAM_BASE`, unsigned: the request goes to RAM; below it, to the MMIO hook (R41). -/
def isRam (c : Config) (a : Word) : Bool := decide (c.ramBase.toNat ≤ a.toNat)

/-- `ram_off(a) = (a - RAM_BASE) & (RAM_SIZE - 1)` (R42). -/
def ramOff (c : Config) (a : Word) : Word := (a - c.ramBase) &&& BitVec.ofNat 32 (ramSize c - 1)

/-- The key of the RAM byte at address `a`: its address in the first image. -/
def ramKey (c : Config) (a : Word) : Nat := c.ramBase.toNat + (ramOff c a).toNat

def widthBytes : Width → Nat
  | .byte => 1
  | .half => 2
  | .word => 4

/-- All-ones of the access width (R46). -/
def widthOnes : Width → Word
  | .byte => 0x000000FF#32
  | .half => 0x0000FFFF#32
  | .word => 0xFFFFFFFF#32

/-- The address is a multiple of the access size (R48). -/
def aligned (n : Width) (a : Word) : Bool := decide (a.toNat % widthBytes n = 0)

/-- The key of the first byte of the unit of RAM a request names: a misaligned request, which the core never issues, would
drop the low address bits (R49, log 13). -/
def unitKey (c : Config) (a : Word) (n : Width) : Nat :=
  c.ramBase.toNat + (ramOff c a).toNat / widthBytes n * widthBytes n

/-! ## The Memory Bus (R43 to R47) -/

/-- Little-endian read of 1, 2 or 4 bytes, zero-extended (R43, R44). -/
def readUnit (m : Memory) (k : Nat) : Width → Word
  | .byte => (memGet m k).setWidth 32
  | .half => (memGet m (k + 1) ++ memGet m k).setWidth 32
  | .word => memGet m (k + 3) ++ memGet m (k + 2) ++ memGet m (k + 1) ++ memGet m k

/-- The low bytes of a value in little-endian order (R43, R45). -/
def leBytes (v : Word) : Width → List Byte
  | .byte => [v.extractLsb' 0 8]
  | .half => [v.extractLsb' 0 8, v.extractLsb' 8 8]
  | .word => wordBytes v

/-- `MMIO.read(a, n)`: all-ones of the width from the default device; from a platform device a free value of the
width (R46, log 8). The hook gets the address as the request has it: R49's reading drops low bits in the RAM array and
says nothing of the hook, and that a misaligned request keeps them here is the model's choice (DESIGN CHOICE, log 13). -/
def mmioValue (s : State) (a : Word) (n : Width) : Word :=
  match s.cfg.mmio with
  | .default => widthOnes n
  | .platform => Config.mmioRead s.mmioLog a n &&& widthOnes n

/-- The log after a request at address `a`: a request that reaches a platform device is added, with
its whole address even where it is misaligned (DESIGN CHOICE, log 13). -/
def mmioLogAfter (s : State) (a : Word) (r : MmioRequest) : List MmioRequest :=
  if isRam s.cfg a then s.mmioLog
  else
    match s.cfg.mmio with
    | .default => s.mmioLog
    | .platform => r :: s.mmioLog

/-- The value of `MemRead(a, n)` (R44), zero-extended to a word. -/
def State.busRead (s : State) (a : Word) (n : Width) : Word :=
  if isRam s.cfg a then readUnit s.mem (unitKey s.cfg a n) n else mmioValue s a n

/-- What `MemRead(a, n)` leaves behind: nothing in this block (R44); a platform device has seen the request (R46). -/
def State.afterRead (s : State) (a : Word) (n : Width) : State :=
  { s with mmioLog := mmioLogAfter s a (.read a n) }

/-- `MemWrite(a, n, v)` (R45, R47). -/
def State.busWrite (s : State) (a : Word) (n : Width) (v : Word) : State :=
  { s with
    mem := if isRam s.cfg a then memSetList s.mem (unitKey s.cfg a n) (leBytes v n) else s.mem
    mmioLog := mmioLogAfter s a (.write a n (v &&& widthOnes n)) }

/-- The RAM byte that address `a` names when it is at or above `RAM_BASE`. -/
def State.ramByte (s : State) (a : Word) : Byte := memGet s.mem (ramKey s.cfg a)

/-! ## Fetch (R50, R51) -/

def State.fetchWord (s : State) : Word := s.busRead s.pc .word
def State.afterFetch (s : State) : State := s.afterRead s.pc .word

/-! ## Retiring (R14) -/

/-- `pc <- pc + 4`, modulo 2^32. -/
def State.retired (s : State) : State := s.setPc (s.pc + 4#32)

/-- The instruction writes `x[rd]` and retires. -/
def State.retireWith (s : State) (rd : Reg) (v : Word) : State := (s.setX rd v).retired

/-! ## Exceptions (R190 to R197) -/

/-- The six synchronous exceptions (R190). -/
inductive Exception where
  | instrAddrMisaligned (target : Word)
  | illegalInstruction (ins : Word)
  | breakpoint
  | loadAddrMisaligned (ea : Word)
  | storeAddrMisaligned (ea : Word)
  | envCallFromM
deriving DecidableEq, Repr

/-- The cause code written to `mcause` (R190). -/
def causeOf (c : Config) : Exception → Word
  | .instrAddrMisaligned _ => c.ecIAlign
  | .illegalInstruction _ => c.ecIllegal
  | .breakpoint => c.ecBreak
  | .loadAddrMisaligned _ => c.ecLAlign
  | .storeAddrMisaligned _ => c.ecSAlign
  | .envCallFromM => c.ecEcallM

/-- The value R190 decides for `mtval`. -/
def valueOf : Exception → Word
  | .instrAddrMisaligned target => target
  | .illegalInstruction ins => ins
  | .breakpoint => 0x00000000#32
  | .loadAddrMisaligned ea => ea
  | .storeAddrMisaligned ea => ea
  | .envCallFromM => 0x00000000#32

/-- The value written to `mtval` for every cause but the store one (R190; D4, log 7). -/
def openMtval (s : State) (e : Exception) : Word :=
  match s.cfg.mtvalRule with
  | .decided => valueOf e
  | .other => Config.mtvalOther (causeOf s.cfg e) s.pc (valueOf e) s.mem s.mmioLog

/-- The value written to `mtval`: for a misaligned store the source fixes it (R194). -/
def mtvalOf (s : State) : Exception → Word
  | .instrAddrMisaligned target => openMtval s (.instrAddrMisaligned target)
  | .illegalInstruction ins => openMtval s (.illegalInstruction ins)
  | .breakpoint => openMtval s .breakpoint
  | .loadAddrMisaligned ea => openMtval s (.loadAddrMisaligned ea)
  | .storeAddrMisaligned ea => ea
  | .envCallFromM => openMtval s .envCallFromM

/-- Bits 1:0 cleared (R18, R197). -/
def clearLow2 (v : Word) : Word := v &&& 0xFFFFFFFC#32

/-- TAKING AN EXCEPTION: the trap entry procedure, whole (R197). -/
def State.trap (s : State) (e : Exception) : State :=
  { s with
    mepc := s.pc
    mcause := causeOf s.cfg e
    mtval := mtvalOf s e
    pc := clearLow2 s.mtvec }

/-- RETURNING FROM ONE: `pc <- mepc`, no other state change (R167, R202); only for an aligned `mepc`
(D17, log 12). -/
def State.trapReturn (s : State) : Result :=
  if aligned .word s.mepc then .next (s.setPc s.mepc) else .refused .mretMisaligned

/-- What an illegal word does: the trap (R191), or with ABORT_ON_ILLEGAL the end of the run and nothing else
(R205). -/
def State.illegal (s : State) (ins : Word) : State :=
  if s.cfg.abortOnIllegal then s.setRun .aborted else s.trap (.illegalInstruction ins)

/-- `halt(code)`: `pc` keeps the address of the instruction (R29, R180, R181). -/
def State.halt (s : State) (code : Word) : State := s.setRun (.halted code)

/-! ## Control transfer (R148) -/

/-- Adopts a target that is a multiple of 4, linking first; any other target traps and nothing is linked. -/
def State.jumpLink (s : State) (rd : Reg) (target : Word) : State :=
  if aligned .word target then (s.setX rd (s.pc + 4#32)).setPc target else s.trap (.instrAddrMisaligned target)

/-- A conditional branch: only a taken one tests its target. -/
def State.branch (s : State) (taken : Bool) (offset : BitVec 13) : State :=
  if taken then
    if aligned .word (s.pc + offsetB offset) then s.setPc (s.pc + offsetB offset)
    else s.trap (.instrAddrMisaligned (s.pc + offsetB offset))
  else s.retired

/-! ## Loads and stores (R158) -/

/-- A load of `n` bytes at `ea`, extended by `ext`. -/
def State.load (s : State) (rd : Reg) (ea : Word) (n : Width) (ext : Word → Word) : State :=
  if aligned n ea then (s.afterRead ea n).retireWith rd (ext (s.busRead ea n))
  else s.trap (.loadAddrMisaligned ea)

/-- A store of the low bytes of `v` at `ea`. -/
def State.store (s : State) (ea : Word) (n : Width) (v : Word) : State :=
  if aligned n ea then (s.busWrite ea n v).retired else s.trap (.storeAddrMisaligned ea)

/-! ## CSRs (R174, R175) -/

def State.csrRead (s : State) (a : CsrAddr) : Word :=
  if a = 0x301#12 then s.cfg.misa
  else if a = 0x305#12 then s.mtvec
  else if a = 0x340#12 then s.mscratch
  else if a = 0x341#12 then s.mepc
  else if a = 0x342#12 then s.mcause
  else if a = 0x343#12 then s.mtval
  else if a = 0xF11#12 then s.cfg.mvendorid
  else if a = 0xF12#12 then s.cfg.marchid
  else if a = 0xF13#12 then s.cfg.mimpid
  else if a = 0xF14#12 then s.cfg.mhartid
  else 0x00000000#32

/-- A write to a read-only or unknown address changes nothing. -/
def State.csrWrite (s : State) (a : CsrAddr) (v : Word) : State :=
  { s with
    mtvec := if a = 0x305#12 then clearLow2 v else s.mtvec
    mscratch := if a = 0x340#12 then v else s.mscratch
    mepc := if a = 0x341#12 then v else s.mepc
    mcause := if a = 0x342#12 then v else s.mcause
    mtval := if a = 0x343#12 then v else s.mtval }

/-- `CSRRW`: the write is unconditional (R168); the read has no side effect, so with `rd = x0` it is not seen. -/
def State.csrSwap (s : State) (rd : Reg) (a : CsrAddr) (src : Word) : State :=
  (s.csrWrite a src).retireWith rd (s.csrRead a)

/-- `CSRRS`, `CSRRC`: the write happens only for a nonzero source value (R169, R170). -/
def State.csrModify (s : State) (rd : Reg) (a : CsrAddr) (src new : Word) : State :=
  (if src ≠ 0#32 then s.csrWrite a new else s).retireWith rd (s.csrRead a)

/-! ## The DMA accessor and the bridge (R53, R182 to R185) -/

/-- `dma(addr, len)` succeeds: the bytes lie inside the array, with no wraparound (R53). The spec leaves every
request of length 0 open (U15, 91 N12); the model's choice (log 10): refused outside these bounds, at any address within
them a free value. -/
def State.dmaAdmits (s : State) (addr len : Word) : Bool :=
  decide (s.cfg.ramBase.toNat ≤ addr.toNat ∧ addr.toNat - s.cfg.ramBase.toNat + len.toNat ≤ ramSize s.cfg)
    && (len != 0#32 || Config.dmaZeroLength s.cfg addr)

/-- The bytes of an admitted buffer; `none` when the accessor fails (R53). -/
def State.dmaRead (s : State) (addr len : Word) : Option (List Byte) :=
  if s.dmaAdmits addr len then some ((List.range len.toNat).map fun i => memGet s.mem (addr.toNat + i)) else none

/-- The register window `x10` to `x17` and the call number (R182). -/
def State.bridgeCallOf (s : State) (number : Word) : BridgeCall where
  number := number
  args := #v[s.x 10#5, s.x 11#5, s.x 12#5, s.x 13#5, s.x 14#5, s.x 15#5, s.x 16#5, s.x 17#5]

/-- The buffer a call names: address and length (R183 point 3, R184). -/
def bridgeBuffer (call : BridgeCall) : BridgeKind → Option (Word × Word)
  | .unknown => none
  | .values => none
  | .path a => some (call.args[a], Config.pathLength (call.args[a]))
  | .read a l => some (call.args[a], call.args[l])
  | .write a l => some (call.args[a], call.args[l])

/-- The bytes of memory that reach the host with a call; `none` when the call fails without reaching it: an unknown call
number, a buffer the accessor refuses, a path with no terminator within its bound (R183 point 4). -/
def State.bridgeBytes (s : State) (call : BridgeCall) : BridgeKind → Option (List Byte)
  | .unknown => none
  | .values => some []
  | .path a => (s.dmaRead (call.args[a]) (Config.pathLength (call.args[a]))).filter fun bytes => bytes.contains 0#8
  | .read a l => s.dmaRead (call.args[a]) (call.args[l])
  | .write a l => s.dmaRead (call.args[a]) (call.args[l])

/-- The word returned: the host's, or the failure sentinel (R183 points 2 and 4). -/
def bridgeResult (s : State) (call : BridgeCall) (k : BridgeKind) (host : BridgeEvent → BridgeAnswer) : Word :=
  match s.bridgeBytes call k with
  | none => 0xFFFFFFFF#32
  | some bytes => (host ⟨call, bytes⟩).result

/-- RAM after the call: a `read` call writes at most `len` bytes of an admitted buffer, no other call writes (R183 point
3, R184). -/
def bridgeRam (s : State) (call : BridgeCall) (k : BridgeKind) (host : BridgeEvent → BridgeAnswer) : Memory :=
  match k, s.bridgeBytes call k with
  | .read a l, some bytes => memSetList s.mem (call.args[a]).toNat ((host ⟨call, bytes⟩).data.take (call.args[l]).toNat)
  | _, _ => s.mem

/-- What has reached the host after the call: a failure leaves the host's state alone (R183 point 4). -/
def bridgeLogAfter (s : State) (call : BridgeCall) (k : BridgeKind) : List BridgeEvent :=
  match s.bridgeBytes call k with
  | none => s.bridgeLog
  | some bytes => ⟨call, bytes⟩ :: s.bridgeLog

/-- The state after a call of a class, given how the host answers: RAM, then `x[10]` (R182). -/
def State.afterBridge (s : State) (call : BridgeCall) (k : BridgeKind) (host : BridgeEvent → BridgeAnswer) : State :=
  { s with
    mem := bridgeRam s call k host
    bridgeLog := bridgeLogAfter s call k
    regs := writeReg s.regs 10#5 (bridgeResult s call k host) }

/-- The call returns: always when it fails before it reaches the host, or under a host that always returns; else a free
value (R185, log 18). -/
def State.hostReturns (s : State) (call : BridgeCall) (k : BridgeKind) : Bool :=
  match s.cfg.host with
  | .returns => true
  | .mayBlock =>
    match s.bridgeBytes call k with
    | none => true
    | some bytes => Config.bridgeReturns s.bridgeLog ⟨call, bytes⟩

/-- The bridge call whole. The class of the number and the host's answer are free values (log 9); if the host never
returns the step never ends (R185). -/
def State.bridge (s : State) (number : Word) : Result :=
  if s.hostReturns (s.bridgeCallOf number) (Config.bridgeKind number) then
    .next (s.afterBridge (s.bridgeCallOf number) (Config.bridgeKind number) (Config.bridge s.bridgeLog)).retired
  else .fault .hostNeverReturns

/-! ## Inspection (R223) -/

/-- The words of a memory dump of `[start, stop)`: `MemRead(a, 4)` for `a = start, start + 4, …` below `stop`; nothing
when `stop` is not above `start` (log 19). -/
def State.dumpWords (s : State) (start stop : Nat) : List Word :=
  (List.range ((stop - start + 3) / 4)).map fun i => s.busRead (BitVec.ofNat 32 (start + 4 * i)) .word

end Sys2Proof.Machine
end

