-- ==== Sys2Proof/Machine/Control.lean ====
section
/-! DEFINITION. Control transfer (spec/42_control_transfer.md R140 to R149). -/

namespace Sys2Proof.Machine

/-- `JAL` (R140). -/
def execJal (rd : Reg) (offset : BitVec 21) (s : State) : Result :=
  .next (s.jumpLink rd (s.pc + offsetJ offset))

/-- `JALR` (R141): bit 0 of the sum is cleared, and the base is read before the link is written. -/
def execJalr (rd rs1 : Reg) (imm : BitVec 12) (s : State) : Result :=
  .next (s.jumpLink rd ((s.x rs1 + immVal imm) &&& 0xFFFFFFFE#32))

/-- `BEQ` (R142). -/
def execBeq (rs1 rs2 : Reg) (offset : BitVec 13) (s : State) : Result :=
  .next (s.branch (s.x rs1 == s.x rs2) offset)

/-- `BNE` (R143). -/
def execBne (rs1 rs2 : Reg) (offset : BitVec 13) (s : State) : Result :=
  .next (s.branch (s.x rs1 != s.x rs2) offset)

/-- `BLT` (R144). -/
def execBlt (rs1 rs2 : Reg) (offset : BitVec 13) (s : State) : Result :=
  .next (s.branch (ltSigned (s.x rs1) (s.x rs2)) offset)

/-- `BGE` (R145). -/
def execBge (rs1 rs2 : Reg) (offset : BitVec 13) (s : State) : Result :=
  .next (s.branch (!ltSigned (s.x rs1) (s.x rs2)) offset)

/-- `BLTU` (R146). -/
def execBltu (rs1 rs2 : Reg) (offset : BitVec 13) (s : State) : Result :=
  .next (s.branch (ltUnsigned (s.x rs1) (s.x rs2)) offset)

/-- `BGEU` (R147). -/
def execBgeu (rs1 rs2 : Reg) (offset : BitVec 13) (s : State) : Result :=
  .next (s.branch (!ltUnsigned (s.x rs1) (s.x rs2)) offset)

end Sys2Proof.Machine
end

