-- ==== Sys2Proof/Machine/Custom.lean ====
section
/-! DEFINITION. The custom-0 instructions (spec/45_custom0.md R180 to R186). -/

namespace Sys2Proof.Machine

/-- `EXITI` (R180): the run ends with the sign-extended immediate as its code. -/
def execExiti (imm : BitVec 12) (s : State) : Result := .next (s.halt (immVal imm))

/-- `EXIT` (R181): the run ends with a register as its code. -/
def execExit (rs1 : Reg) (s : State) : Result := .next (s.halt (s.x rs1))

/-- `IOCALL` (R182, R183, R185): the host is called and the instruction retires when it returns. -/
def execIocall (imm : BitVec 12) (s : State) : Result := s.bridge (immVal imm)

end Sys2Proof.Machine
end

