-- ==== Sys2Proof/Machine/Integer.lean ====
section
/-! DEFINITION. The integer computational instructions (spec/40_integer_computational.md R100 to R123). -/

namespace Sys2Proof.Machine

/-! ## OP-IMM -/

/-- `ADDI` (R100). -/
def execAddi (rd rs1 : Reg) (imm : BitVec 12) (s : State) : Result :=
  .next (s.retireWith rd (s.x rs1 + immVal imm))

/-- `SLTI` (R101). -/
def execSlti (rd rs1 : Reg) (imm : BitVec 12) (s : State) : Result :=
  .next (s.retireWith rd (boolWord (ltSigned (s.x rs1) (immVal imm))))

/-- `SLTIU` (R102): the immediate is sign-extended, then compared unsigned. -/
def execSltiu (rd rs1 : Reg) (imm : BitVec 12) (s : State) : Result :=
  .next (s.retireWith rd (boolWord (ltUnsigned (s.x rs1) (immVal imm))))

/-- `XORI` (R103). -/
def execXori (rd rs1 : Reg) (imm : BitVec 12) (s : State) : Result :=
  .next (s.retireWith rd (s.x rs1 ^^^ immVal imm))

/-- `ORI` (R104). -/
def execOri (rd rs1 : Reg) (imm : BitVec 12) (s : State) : Result :=
  .next (s.retireWith rd (s.x rs1 ||| immVal imm))

/-- `ANDI` (R105). -/
def execAndi (rd rs1 : Reg) (imm : BitVec 12) (s : State) : Result :=
  .next (s.retireWith rd (s.x rs1 &&& immVal imm))

/-- `SLLI` (R106). -/
def execSlli (rd rs1 : Reg) (shamt : BitVec 5) (s : State) : Result :=
  .next (s.retireWith rd (s.x rs1 <<< shamt.toNat))

/-- `SRLI` (R107). -/
def execSrli (rd rs1 : Reg) (shamt : BitVec 5) (s : State) : Result :=
  .next (s.retireWith rd (s.x rs1 >>> shamt.toNat))

/-- `SRAI` (R108). -/
def execSrai (rd rs1 : Reg) (shamt : BitVec 5) (s : State) : Result :=
  .next (s.retireWith rd ((s.x rs1).sshiftRight shamt.toNat))

/-! ## Upper immediates -/

/-- `LUI` (R109). -/
def execLui (rd : Reg) (imm : BitVec 20) (s : State) : Result :=
  .next (s.retireWith rd (immUVal imm))

/-- `AUIPC` (R110): `pc` is the address of the instruction itself. -/
def execAuipc (rd : Reg) (imm : BitVec 20) (s : State) : Result :=
  .next (s.retireWith rd (s.pc + immUVal imm))

/-! ## OP -/

/-- `ADD` (R111). -/
def execAdd (rd rs1 rs2 : Reg) (s : State) : Result :=
  .next (s.retireWith rd (s.x rs1 + s.x rs2))

/-- `SUB` (R112). -/
def execSub (rd rs1 rs2 : Reg) (s : State) : Result :=
  .next (s.retireWith rd (s.x rs1 - s.x rs2))

/-- `SLL` (R113). -/
def execSll (rd rs1 rs2 : Reg) (s : State) : Result :=
  .next (s.retireWith rd (s.x rs1 <<< shiftAmount (s.x rs2)))

/-- `SLT` (R114). -/
def execSlt (rd rs1 rs2 : Reg) (s : State) : Result :=
  .next (s.retireWith rd (boolWord (ltSigned (s.x rs1) (s.x rs2))))

/-- `SLTU` (R115). -/
def execSltu (rd rs1 rs2 : Reg) (s : State) : Result :=
  .next (s.retireWith rd (boolWord (ltUnsigned (s.x rs1) (s.x rs2))))

/-- `XOR` (R116). -/
def execXor (rd rs1 rs2 : Reg) (s : State) : Result :=
  .next (s.retireWith rd (s.x rs1 ^^^ s.x rs2))

/-- `SRL` (R117). -/
def execSrl (rd rs1 rs2 : Reg) (s : State) : Result :=
  .next (s.retireWith rd (s.x rs1 >>> shiftAmount (s.x rs2)))

/-- `SRA` (R118). -/
def execSra (rd rs1 rs2 : Reg) (s : State) : Result :=
  .next (s.retireWith rd ((s.x rs1).sshiftRight (shiftAmount (s.x rs2))))

/-- `OR` (R119). -/
def execOr (rd rs1 rs2 : Reg) (s : State) : Result :=
  .next (s.retireWith rd (s.x rs1 ||| s.x rs2))

/-- `AND` (R120). -/
def execAnd (rd rs1 rs2 : Reg) (s : State) : Result :=
  .next (s.retireWith rd (s.x rs1 &&& s.x rs2))

end Sys2Proof.Machine
end

