-- ==== Sys2Proof/Machine/LoadStore.lean ====
section
/-! DEFINITION. Loads, stores and MISC-MEM (spec/43_load_store_fence.md R150 to R161). -/

namespace Sys2Proof.Machine

/-- The effective address: base plus sign-extended displacement, modulo 2^32 (R158). -/
def effAddr (s : State) (rs1 : Reg) (imm : BitVec 12) : Word := s.x rs1 + immVal imm

/-- `sext_8` of a byte read (R150). -/
def sext8 (v : Word) : Word := (v.setWidth 8).signExtend 32

/-- `sext_16` of a halfword read (R151). -/
def sext16 (v : Word) : Word := (v.setWidth 16).signExtend 32

/-- `zext_8` (R153). -/
def zext8 (v : Word) : Word := (v.setWidth 8).setWidth 32

/-- `zext_16` (R154). -/
def zext16 (v : Word) : Word := (v.setWidth 16).setWidth 32

/-- `LB` (R150). -/
def execLb (rd rs1 : Reg) (imm : BitVec 12) (s : State) : Result :=
  .next (s.load rd (effAddr s rs1 imm) .byte sext8)

/-- `LH` (R151). -/
def execLh (rd rs1 : Reg) (imm : BitVec 12) (s : State) : Result :=
  .next (s.load rd (effAddr s rs1 imm) .half sext16)

/-- `LW` (R152). -/
def execLw (rd rs1 : Reg) (imm : BitVec 12) (s : State) : Result :=
  .next (s.load rd (effAddr s rs1 imm) .word id)

/-- `LBU` (R153). -/
def execLbu (rd rs1 : Reg) (imm : BitVec 12) (s : State) : Result :=
  .next (s.load rd (effAddr s rs1 imm) .byte zext8)

/-- `LHU` (R154). -/
def execLhu (rd rs1 : Reg) (imm : BitVec 12) (s : State) : Result :=
  .next (s.load rd (effAddr s rs1 imm) .half zext16)

/-- `SB` (R155). -/
def execSb (rs2 rs1 : Reg) (imm : BitVec 12) (s : State) : Result :=
  .next (s.store (effAddr s rs1 imm) .byte (s.x rs2))

/-- `SH` (R156). -/
def execSh (rs2 rs1 : Reg) (imm : BitVec 12) (s : State) : Result :=
  .next (s.store (effAddr s rs1 imm) .half (s.x rs2))

/-- `SW` (R157). -/
def execSw (rs2 rs1 : Reg) (imm : BitVec 12) (s : State) : Result :=
  .next (s.store (effAddr s rs1 imm) .word (s.x rs2))

/-- `FENCE` (R159): there is nothing to order. A configuration without it decodes no word to it (R161). -/
def execFence (s : State) : Result := .next s.retired

/-- `FENCE.I` (R160): stores are visible to fetch without it. -/
def execFenceI (s : State) : Result := .next s.retired

end Sys2Proof.Machine
end

