-- ==== Sys2Proof/Machine/MulDiv.lean ====
section
/-! DEFINITION. The multiply and divide instructions (spec/41_muldiv.md R130 to R139). Operands are read as integers, the exact
result is formed and narrowed at the end; nothing traps (R138). -/

namespace Sys2Proof.Machine

/-- Bits 63:32 of a product, taken as a 64-bit two's complement number (R131 to R133). -/
def highHalf (p : Int) : Word := (BitVec.ofInt 64 p).extractLsb' 32 32

/-- R134, R139: division by zero gives all-ones, signed overflow the dividend, otherwise the quotient rounds toward
zero. -/
def divSigned (a b : Word) : Word :=
  if b = 0#32 then 0xFFFFFFFF#32
  else if a = 0x80000000#32 ∧ b = 0xFFFFFFFF#32 then 0x80000000#32
  else BitVec.ofInt 32 (a.toInt.tdiv b.toInt)

/-- R135. -/
def divUnsigned (a b : Word) : Word :=
  if b = 0#32 then 0xFFFFFFFF#32 else BitVec.ofNat 32 (a.toNat / b.toNat)

/-- R136, R139: the remainder has the sign of the dividend. -/
def remSigned (a b : Word) : Word :=
  if b = 0#32 then a
  else if a = 0x80000000#32 ∧ b = 0xFFFFFFFF#32 then 0x00000000#32
  else BitVec.ofInt 32 (a.toInt - b.toInt * a.toInt.tdiv b.toInt)

/-- R137. -/
def remUnsigned (a b : Word) : Word :=
  if b = 0#32 then a else BitVec.ofNat 32 (a.toNat % b.toNat)

/-- `MUL` (R130): the low 32 bits of the signed product. -/
def execMul (rd rs1 rs2 : Reg) (s : State) : Result :=
  .next (s.retireWith rd (BitVec.ofInt 32 ((s.x rs1).toInt * (s.x rs2).toInt)))

/-- `MULH` (R131). -/
def execMulh (rd rs1 rs2 : Reg) (s : State) : Result :=
  .next (s.retireWith rd (highHalf ((s.x rs1).toInt * (s.x rs2).toInt)))

/-- `MULHSU` (R132): `rs1` signed, `rs2` unsigned. -/
def execMulhsu (rd rs1 rs2 : Reg) (s : State) : Result :=
  .next (s.retireWith rd (highHalf ((s.x rs1).toInt * ((s.x rs2).toNat : Int))))

/-- `MULHU` (R133). -/
def execMulhu (rd rs1 rs2 : Reg) (s : State) : Result :=
  .next (s.retireWith rd (highHalf (((s.x rs1).toNat : Int) * ((s.x rs2).toNat : Int))))

/-- `DIV` (R134). -/
def execDiv (rd rs1 rs2 : Reg) (s : State) : Result :=
  .next (s.retireWith rd (divSigned (s.x rs1) (s.x rs2)))

/-- `DIVU` (R135). -/
def execDivu (rd rs1 rs2 : Reg) (s : State) : Result :=
  .next (s.retireWith rd (divUnsigned (s.x rs1) (s.x rs2)))

/-- `REM` (R136). -/
def execRem (rd rs1 rs2 : Reg) (s : State) : Result :=
  .next (s.retireWith rd (remSigned (s.x rs1) (s.x rs2)))

/-- `REMU` (R137). -/
def execRemu (rd rs1 rs2 : Reg) (s : State) : Result :=
  .next (s.retireWith rd (remUnsigned (s.x rs1) (s.x rs2)))

end Sys2Proof.Machine
end

