-- ==== Sys2Proof/Machine/System.lean ====
section
/-! DEFINITION. System instructions and CSR access (spec/44_system_csr.md R165 to R178). -/

namespace Sys2Proof.Machine

/-- `ECALL` (R165, R195): the exception itself. -/
def execEcall (s : State) : Result := .next (s.trap .envCallFromM)

/-- `EBREAK` (R166, R196): the exception itself. -/
def execEbreak (s : State) : Result := .next (s.trap .breakpoint)

/-- `MRET` (R167, R202). -/
def execMret (s : State) : Result := s.trapReturn

/-- `CSRRW` (R168). -/
def execCsrrw (rd : Reg) (csr : CsrAddr) (rs1 : Reg) (s : State) : Result :=
  .next (s.csrSwap rd csr (s.x rs1))

/-- `CSRRS` (R169). -/
def execCsrrs (rd : Reg) (csr : CsrAddr) (rs1 : Reg) (s : State) : Result :=
  .next (s.csrModify rd csr (s.x rs1) (s.csrRead csr ||| s.x rs1))

/-- `CSRRC` (R170). -/
def execCsrrc (rd : Reg) (csr : CsrAddr) (rs1 : Reg) (s : State) : Result :=
  .next (s.csrModify rd csr (s.x rs1) (s.csrRead csr &&& ~~~(s.x rs1)))

/-- `CSRRWI` (R171). -/
def execCsrrwi (rd : Reg) (csr : CsrAddr) (uimm : BitVec 5) (s : State) : Result :=
  .next (s.csrSwap rd csr (uimmVal uimm))

/-- `CSRRSI` (R172). -/
def execCsrrsi (rd : Reg) (csr : CsrAddr) (uimm : BitVec 5) (s : State) : Result :=
  .next (s.csrModify rd csr (uimmVal uimm) (s.csrRead csr ||| uimmVal uimm))

/-- `CSRRCI` (R173). -/
def execCsrrci (rd : Reg) (csr : CsrAddr) (uimm : BitVec 5) (s : State) : Result :=
  .next (s.csrModify rd csr (uimmVal uimm) (s.csrRead csr &&& ~~~(uimmVal uimm)))

end Sys2Proof.Machine
end

