-- ==== Sys2Proof/Machine/Step.lean ====
section
/-! DEFINITION. One step (spec/00_scope.md R3): fetch, decode, execute; and placing an instruction where the next step
fetches. -/

namespace Sys2Proof.Machine

/-- Fetch the word at `pc` (R50), decode it (R88), execute it or take the illegal instruction (R191, R199). A machine
whose run has ended takes no step (R29). -/
def step (s : State) : Host.Outcome State Fault Refusal :=
  match s.run with
  | .running =>
    match decode s.cfg s.fetchWord with
    | .ok i => exec i s.afterFetch
    | .error _ => .next (s.afterFetch.illegal s.fetchWord)
  | .halted _ => .fault .runEnded
  | .aborted => .fault .runEnded

/-- The state `s` with an instruction word stored where the next step fetches, as the loader would leave it in RAM
(R221, log 17). A run that has ended is set running and a `pc` in the MMIO region, where nothing can be stored, to
`RAM_BASE`; at any other state only memory changes. -/
def State.withFetchWord (s : State) (nbits w : Nat) : State :=
  let pc := if isRam s.cfg s.pc then s.pc else s.cfg.ramBase
  { s with
    pc := pc
    run := .running
    mem := memSetList s.mem (unitKey s.cfg pc .word) (wordBytes (tableWord nbits w)) }

end Sys2Proof.Machine
end

