-- ==== Sys2Proof/Machine/Assembly.lean ====
section
/-! DEFINITION. The text form of an instruction, the register names and the pseudo-instructions (spec/30_encoding.md
R89 to R91), and the text of a memory dump. No step uses them: the hardware has no assembler and sees only the expansion
of a pseudo-instruction. -/

namespace Sys2Proof.Machine

/-! ## Text (R89, R90) -/

/-- The ABI names of `x0` to `x31` (R90; log 6). -/
def abiNames : Vector String 32 :=
  #v["zero", "ra", "sp", "gp", "tp", "t0", "t1", "t2", "s0", "s1", "a0", "a1", "a2", "a3", "a4", "a5",
     "a6", "a7", "s2", "s3", "s4", "s5", "s6", "s7", "s8", "s9", "s10", "s11", "t3", "t4", "t5", "t6"]

/-- How a register is written: by number or by ABI name (R90). -/
def regText (abi : Bool) (r : Reg) : String :=
  if abi then abiNames[r.toNat] else "x" ++ toString r.toNat

def hexText (n : Nat) : String := "0x" ++ String.ofList (Nat.toDigits 16 n)

/-- The names of the ten CSRs (R17 to R26); any other address is written as a number. -/
def csrText (a : CsrAddr) : String :=
  if a = 0x301#12 then "misa"
  else if a = 0x305#12 then "mtvec"
  else if a = 0x340#12 then "mscratch"
  else if a = 0x341#12 then "mepc"
  else if a = 0x342#12 then "mcause"
  else if a = 0x343#12 then "mtval"
  else if a = 0xF11#12 then "mvendorid"
  else if a = 0xF12#12 then "marchid"
  else if a = 0xF13#12 then "mimpid"
  else if a = 0xF14#12 then "mhartid"
  else hexText a.toNat

/-- `OP a, b` and `OP a, b, c`. -/
def text2 (op a b : String) : String := op ++ " " ++ a ++ ", " ++ b
def text3 (op a b c : String) : String := op ++ " " ++ a ++ ", " ++ b ++ ", " ++ c

/-- `OP r, imm(base)`. -/
def textMem (op r : String) (imm : BitVec 12) (base : String) : String :=
  op ++ " " ++ r ++ ", " ++ toString imm.toInt ++ "(" ++ base ++ ")"

/-- The text of an instruction (R89). -/
def instrText (abi : Bool) (i : Instr) : String :=
  let x := regText abi
  match i with
  | .lui rd imm => text2 "LUI" (x rd) (hexText imm.toNat)
  | .auipc rd imm => text2 "AUIPC" (x rd) (hexText imm.toNat)
  | .jal rd offset => text2 "JAL" (x rd) (toString offset.toInt)
  | .jalr rd rs1 imm => textMem "JALR" (x rd) imm (x rs1)
  | .beq rs1 rs2 offset => text3 "BEQ" (x rs1) (x rs2) (toString offset.toInt)
  | .bne rs1 rs2 offset => text3 "BNE" (x rs1) (x rs2) (toString offset.toInt)
  | .blt rs1 rs2 offset => text3 "BLT" (x rs1) (x rs2) (toString offset.toInt)
  | .bge rs1 rs2 offset => text3 "BGE" (x rs1) (x rs2) (toString offset.toInt)
  | .bltu rs1 rs2 offset => text3 "BLTU" (x rs1) (x rs2) (toString offset.toInt)
  | .bgeu rs1 rs2 offset => text3 "BGEU" (x rs1) (x rs2) (toString offset.toInt)
  | .lb rd rs1 imm => textMem "LB" (x rd) imm (x rs1)
  | .lh rd rs1 imm => textMem "LH" (x rd) imm (x rs1)
  | .lw rd rs1 imm => textMem "LW" (x rd) imm (x rs1)
  | .lbu rd rs1 imm => textMem "LBU" (x rd) imm (x rs1)
  | .lhu rd rs1 imm => textMem "LHU" (x rd) imm (x rs1)
  | .sb rs2 rs1 imm => textMem "SB" (x rs2) imm (x rs1)
  | .sh rs2 rs1 imm => textMem "SH" (x rs2) imm (x rs1)
  | .sw rs2 rs1 imm => textMem "SW" (x rs2) imm (x rs1)
  | .addi rd rs1 imm => text3 "ADDI" (x rd) (x rs1) (toString imm.toInt)
  | .slti rd rs1 imm => text3 "SLTI" (x rd) (x rs1) (toString imm.toInt)
  | .sltiu rd rs1 imm => text3 "SLTIU" (x rd) (x rs1) (toString imm.toInt)
  | .xori rd rs1 imm => text3 "XORI" (x rd) (x rs1) (toString imm.toInt)
  | .ori rd rs1 imm => text3 "ORI" (x rd) (x rs1) (toString imm.toInt)
  | .andi rd rs1 imm => text3 "ANDI" (x rd) (x rs1) (toString imm.toInt)
  | .slli rd rs1 shamt => text3 "SLLI" (x rd) (x rs1) (toString shamt.toNat)
  | .srli rd rs1 shamt => text3 "SRLI" (x rd) (x rs1) (toString shamt.toNat)
  | .srai rd rs1 shamt => text3 "SRAI" (x rd) (x rs1) (toString shamt.toNat)
  | .add rd rs1 rs2 => text3 "ADD" (x rd) (x rs1) (x rs2)
  | .sub rd rs1 rs2 => text3 "SUB" (x rd) (x rs1) (x rs2)
  | .sll rd rs1 rs2 => text3 "SLL" (x rd) (x rs1) (x rs2)
  | .slt rd rs1 rs2 => text3 "SLT" (x rd) (x rs1) (x rs2)
  | .sltu rd rs1 rs2 => text3 "SLTU" (x rd) (x rs1) (x rs2)
  | .xor rd rs1 rs2 => text3 "XOR" (x rd) (x rs1) (x rs2)
  | .srl rd rs1 rs2 => text3 "SRL" (x rd) (x rs1) (x rs2)
  | .sra rd rs1 rs2 => text3 "SRA" (x rd) (x rs1) (x rs2)
  | .or rd rs1 rs2 => text3 "OR" (x rd) (x rs1) (x rs2)
  | .and rd rs1 rs2 => text3 "AND" (x rd) (x rs1) (x rs2)
  | .mul rd rs1 rs2 => text3 "MUL" (x rd) (x rs1) (x rs2)
  | .mulh rd rs1 rs2 => text3 "MULH" (x rd) (x rs1) (x rs2)
  | .mulhsu rd rs1 rs2 => text3 "MULHSU" (x rd) (x rs1) (x rs2)
  | .mulhu rd rs1 rs2 => text3 "MULHU" (x rd) (x rs1) (x rs2)
  | .div rd rs1 rs2 => text3 "DIV" (x rd) (x rs1) (x rs2)
  | .divu rd rs1 rs2 => text3 "DIVU" (x rd) (x rs1) (x rs2)
  | .rem rd rs1 rs2 => text3 "REM" (x rd) (x rs1) (x rs2)
  | .remu rd rs1 rs2 => text3 "REMU" (x rd) (x rs1) (x rs2)
  | .fence => "FENCE"
  | .fenceI => "FENCE.I"
  | .ecall => "ECALL"
  | .ebreak => "EBREAK"
  | .mret => "MRET"
  | .csrrw rd csr rs1 => text3 "CSRRW" (x rd) (csrText csr) (x rs1)
  | .csrrs rd csr rs1 => text3 "CSRRS" (x rd) (csrText csr) (x rs1)
  | .csrrc rd csr rs1 => text3 "CSRRC" (x rd) (csrText csr) (x rs1)
  | .csrrwi rd csr uimm => text3 "CSRRWI" (x rd) (csrText csr) (toString uimm.toNat)
  | .csrrsi rd csr uimm => text3 "CSRRSI" (x rd) (csrText csr) (toString uimm.toNat)
  | .csrrci rd csr uimm => text3 "CSRRCI" (x rd) (csrText csr) (toString uimm.toNat)
  | .exiti imm => "EXITI " ++ toString imm.toInt
  | .exit rs1 => "EXIT " ++ x rs1
  | .iocall imm => "IOCALL " ++ toString imm.toInt

/-! ## The memory dump's text (R223) -/

/-- 8 lowercase hex digits, no prefix. -/
def wordText (v : Word) : String :=
  String.ofList ((List.range 8).map fun i => Nat.digitChar ((v >>> (28 - 4 * i)).toNat % 16))

/-- The dump of `[start, stop)`, one line for each word. -/
def State.dumpLines (s : State) (start stop : Nat) : List String := (s.dumpWords start stop).map wordText

/-! ## Pseudo-instructions (R91) -/

inductive Pseudo where
  | nop
  | mv (rd rs : Reg)
  | li (rd : Reg) (imm : Word)
  /-- `off` is `sym - pc`. -/
  | la (rd : Reg) (off : Word)
  | not (rd rs : Reg)
  | neg (rd rs : Reg)
  | seqz (rd rs : Reg)
  | snez (rd rs : Reg)
  | sltz (rd rs : Reg)
  | sgtz (rd rs : Reg)
  | beqz (rs : Reg) (off : BitVec 13)
  | bnez (rs : Reg) (off : BitVec 13)
  | blez (rs : Reg) (off : BitVec 13)
  | bgez (rs : Reg) (off : BitVec 13)
  | bltz (rs : Reg) (off : BitVec 13)
  | bgtz (rs : Reg) (off : BitVec 13)
  | bgt (rs rt : Reg) (off : BitVec 13)
  | ble (rs rt : Reg) (off : BitVec 13)
  | bgtu (rs rt : Reg) (off : BitVec 13)
  | bleu (rs rt : Reg) (off : BitVec 13)
  | j (off : BitVec 21)
  | jal (off : BitVec 21)
  | jr (rs : Reg)
  | jalr (rs : Reg)
  | ret
  | call (off : Word)
  | tail (off : Word)
  | csrr (rd : Reg) (csr : CsrAddr)
  | csrw (csr : CsrAddr) (rs : Reg)
  | csrs (csr : CsrAddr) (rs : Reg)
  | csrc (csr : CsrAddr) (rs : Reg)
  | csrwi (csr : CsrAddr) (uimm : BitVec 5)
  | csrsi (csr : CsrAddr) (uimm : BitVec 5)
  | csrci (csr : CsrAddr) (uimm : BitVec 5)
deriving DecidableEq, Repr

/-- `(v + 0x800) >> 12`, the upper part that makes up for the sign of the lower one. -/
def hi20 (v : Word) : BitVec 20 := (v + 0x800#32).extractLsb' 12 20

/-- The low 12 bits. -/
def lo12 (v : Word) : BitVec 12 := v.extractLsb' 0 12

/-- `LI`: one `ADDI` where the value fits, `LUI` otherwise, with an `ADDI` unless the low 12 bits are zero. -/
def expandLi (rd : Reg) (imm : Word) : List Instr :=
  if immVal (lo12 imm) = imm then [.addi rd 0#5 (lo12 imm)]
  else if lo12 imm = 0#12 then [.lui rd (hi20 imm)]
  else [.lui rd (hi20 imm), .addi rd rd (lo12 imm)]

/-- The expansion the hardware sees. -/
def expand : Pseudo → List Instr
  | .nop => [.addi 0#5 0#5 0#12]
  | .mv rd rs => [.addi rd rs 0#12]
  | .li rd imm => expandLi rd imm
  | .la rd off => [.auipc rd (hi20 off), .addi rd rd (lo12 off)]
  | .not rd rs => [.xori rd rs 0xFFF#12]
  | .neg rd rs => [.sub rd 0#5 rs]
  | .seqz rd rs => [.sltiu rd rs 1#12]
  | .snez rd rs => [.sltu rd 0#5 rs]
  | .sltz rd rs => [.slt rd rs 0#5]
  | .sgtz rd rs => [.slt rd 0#5 rs]
  | .beqz rs off => [.beq rs 0#5 off]
  | .bnez rs off => [.bne rs 0#5 off]
  | .blez rs off => [.bge 0#5 rs off]
  | .bgez rs off => [.bge rs 0#5 off]
  | .bltz rs off => [.blt rs 0#5 off]
  | .bgtz rs off => [.blt 0#5 rs off]
  | .bgt rs rt off => [.blt rt rs off]
  | .ble rs rt off => [.bge rt rs off]
  | .bgtu rs rt off => [.bltu rt rs off]
  | .bleu rs rt off => [.bgeu rt rs off]
  | .j off => [.jal 0#5 off]
  | .jal off => [.jal 1#5 off]
  | .jr rs => [.jalr 0#5 rs 0#12]
  | .jalr rs => [.jalr 1#5 rs 0#12]
  | .ret => [.jalr 0#5 1#5 0#12]
  | .call off => [.auipc 1#5 (hi20 off), .jalr 1#5 1#5 (lo12 off)]
  | .tail off => [.auipc 6#5 (hi20 off), .jalr 0#5 6#5 (lo12 off)]
  | .csrr rd csr => [.csrrs rd csr 0#5]
  | .csrw csr rs => [.csrrw 0#5 csr rs]
  | .csrs csr rs => [.csrrs 0#5 csr rs]
  | .csrc csr rs => [.csrrc 0#5 csr rs]
  | .csrwi csr uimm => [.csrrwi 0#5 csr uimm]
  | .csrsi csr uimm => [.csrrsi 0#5 csr uimm]
  | .csrci csr uimm => [.csrrci 0#5 csr uimm]

end Sys2Proof.Machine
end

