-- ==== Sys2Proof/Machine/Boot.lean ====
section
/-! DEFINITION. Reset by the host with a boot image (spec/70_reset_and_hazards.md R220, R221): every open reset value is an
argument, so that a claim about boot can be made for all of them (R34, R35, R37). -/

namespace Sys2Proof.Machine

/-- RESET_X, RESET_CSR and RESET_RAM of R2. -/
structure ResetValues where
  regs : Vector Word 32
  mscratch : Word
  mtvec : Word
  mepc : Word
  mcause : Word
  mtval : Word
  ram : Memory
deriving DecidableEq, Repr

/-- The reset sequence of R220. A boot image longer than RAM fails to load, and the machine never leaves reset
(R221). Byte `i` of the image becomes the byte at `RAM_BASE + i`. -/
def bootState (c : Config) (v : ResetValues) (image : List Byte) : Option State :=
  if image.length ≤ ramSize c then
    some
      { cfg := c
        regs := v.regs
        pc := c.ramBase
        mscratch := v.mscratch
        mtvec := v.mtvec
        mepc := v.mepc
        mcause := v.mcause
        mtval := v.mtval
        run := .running
        mem := memSetList v.ram c.ramBase.toNat image
        mmioLog := []
        bridgeLog := [] }
  else none

/-- The reset values State.reset holds (log 3 to 5). -/
def ResetValues.named : ResetValues where
  regs := (Vector.replicate 32 resetX).set 0 0
  mscratch := resetCsr
  mtvec := resetCsr
  mepc := resetCsr
  mcause := resetCsr
  mtval := resetCsr
  ram := []

end Sys2Proof.Machine
end

