-- ==== Sys2Proof/Safety.lean ====
section
/-! DEFINITION. The terms claims are stated in: the invariant of a run, what an instruction changes and what it leaves
alone, and the opcode table as data. -/

namespace Sys2Proof.Machine

/-! ## The invariant -/

/-- What holds of every state of a run from a boot with a permitted configuration: R2's constraints; `pc` a multiple of
4 (R13); RAM listed in its canonical form and inside the array (R42); the cell of `x0` zero (R10). -/
structure Inv (s : State) : Prop where
  cfg : s.cfg.wf = true
  pc : aligned .word s.pc = true
  canonical : s.mem.wf = true
  inRam : memWithin s.cfg.ramBase.toNat (s.cfg.ramBase.toNat + ramSize s.cfg) s.mem = true
  zeroCell : s.regs[0] = 0#32

/-! ## Frames -/

/-- The five writable CSRs are as before. -/
structure KeepsCsrs (s t : State) : Prop where
  mscratch : t.mscratch = s.mscratch
  mtvec : t.mtvec = s.mtvec
  mepc : t.mepc = s.mepc
  mcause : t.mcause = s.mcause
  mtval : t.mtval = s.mtval

/-- Configuration, run state and the host's log are as before. -/
structure KeepsRun (s t : State) : Prop where
  cfg : t.cfg = s.cfg
  run : t.run = s.run
  bridgeLog : t.bridgeLog = s.bridgeLog

/-- No byte of RAM changed, and no request went to a platform device. -/
structure KeepsMemory (s t : State) : Prop where
  bytes : ∀ a, t.ramByte a = s.ramByte a
  mmioLog : t.mmioLog = s.mmioLog

/-- No general register changed. -/
def KeepsRegs (s t : State) : Prop := ∀ r, t.x r = s.x r

/-- `x[rd]` holds `v` (zero if `rd` is `x0`) and every other general register is as before. -/
structure SetsReg (s t : State) (rd : Reg) (v : Word) : Prop where
  result : t.x rd = if rd = 0#5 then 0#32 else v
  others : ∀ r, r ≠ rd → t.x r = s.x r

/-- The instruction writes `x[rd]`, goes on at `next`, and changes nothing else. -/
structure WritesReg (s t : State) (rd : Reg) (v next : Word) : Prop where
  regs : SetsReg s t rd v
  pc : t.pc = next
  csrs : KeepsCsrs s t
  run : KeepsRun s t
  memory : KeepsMemory s t

/-- The instruction goes on at `next` and changes nothing else. -/
structure GoesTo (s t : State) (next : Word) : Prop where
  pc : t.pc = next
  regs : KeepsRegs s t
  csrs : KeepsCsrs s t
  run : KeepsRun s t
  memory : KeepsMemory s t

/-- The trap entry of R197 with a cause and a value, and nothing else; the value is the one R190 decides, under the
decided parameters `MTVAL_*`. -/
structure TakesTrap (s t : State) (cause value : Word) : Prop where
  mepc : t.mepc = s.pc
  mcause : t.mcause = cause
  mtval : s.cfg.mtvalRule = .decided → t.mtval = value
  pc : t.pc = s.mtvec &&& 0xFFFFFFFC#32
  mtvec : t.mtvec = s.mtvec
  mscratch : t.mscratch = s.mscratch
  regs : KeepsRegs s t
  run : KeepsRun s t
  memory : KeepsMemory s t

/-- A load of `n` bytes at `ea` writes `v` to `x[rd]` and retires: RAM is unchanged, and the device has seen the read
if it went to one. -/
structure Loads (s t : State) (rd : Reg) (ea : Word) (n : Width) (v : Word) : Prop where
  regs : SetsReg s t rd v
  pc : t.pc = s.pc + 4#32
  csrs : KeepsCsrs s t
  run : KeepsRun s t
  bytes : ∀ a, t.ramByte a = s.ramByte a
  mmioLog : t.mmioLog = mmioLogAfter s ea (.read ea n)

/-- A store of `n` bytes of `v` at `ea` retires. At or above `RAM_BASE` the bytes at `ea` on are those of `v`,
little-endian; every address outside the stored bytes, `unitKey` on for the width, reads as before; below `RAM_BASE`
nothing is stored in RAM and the device has seen the write. -/
structure Stores (s t : State) (ea : Word) (n : Width) (v : Word) : Prop where
  pc : t.pc = s.pc + 4#32
  regs : KeepsRegs s t
  csrs : KeepsCsrs s t
  run : KeepsRun s t
  stored : isRam s.cfg ea = true → ∀ i, i < widthBytes n →
    t.ramByte (ea + BitVec.ofNat 32 i) = v.extractLsb' (8 * i) 8
  kept : ∀ a, ¬ (isRam s.cfg ea = true ∧ unitKey s.cfg ea n ≤ ramKey s.cfg a ∧
    ramKey s.cfg a < unitKey s.cfg ea n + widthBytes n) → t.ramByte a = s.ramByte a
  mmioLog : t.mmioLog = mmioLogAfter s ea (.write ea n (v &&& widthOnes n))

/-- A CSR instruction on address `a`: the old value goes to `x[rd]`, the CSRs are `c`'s, nothing else changes. -/
structure CsrAccess (s t c : State) (rd : Reg) (a : CsrAddr) : Prop where
  regs : SetsReg s t rd (s.csrRead a)
  pc : t.pc = s.pc + 4#32
  csrs : KeepsCsrs c t
  run : KeepsRun s t
  memory : KeepsMemory s t

/-- The run ends with a code: nothing else changes, `pc` stays (R180, R181). -/
structure Halts (s t : State) (code : Word) : Prop where
  run : t.run = .halted code
  pc : t.pc = s.pc
  regs : KeepsRegs s t
  csrs : KeepsCsrs s t
  cfg : t.cfg = s.cfg
  bridgeLog : t.bridgeLog = s.bridgeLog
  memory : KeepsMemory s t

/-! ## What an instruction does, for every state -/

/-- In every state the instruction completes: `x[rd]` gets `v`, `pc` moves on by 4, nothing else changes. -/
def Computes (i : Instr) (rd : Reg) (v : State → Word) : Prop :=
  ∀ s, ∃ t, exec i s = .next t ∧ WritesReg s t rd (v s) (s.pc + 4#32)

/-- A jump to `target` that links `x[rd]`: adopted if the target is a multiple of 4, a trap otherwise (R148). -/
structure Links (s t : State) (rd : Reg) (target : Word) : Prop where
  adopted : target &&& 3#32 = 0#32 → WritesReg s t rd (s.pc + 4#32) target
  trapped : target &&& 3#32 ≠ 0#32 → TakesTrap s t s.cfg.ecIAlign target

/-- A conditional branch to `target`: only a taken one tests it (R148). -/
structure Branches (s t : State) (taken : Prop) (target : Word) : Prop where
  notTaken : ¬ taken → GoesTo s t (s.pc + 4#32)
  adopted : taken → target &&& 3#32 = 0#32 → GoesTo s t target
  trapped : taken → target &&& 3#32 ≠ 0#32 → TakesTrap s t s.cfg.ecIAlign target

/-- A conditional branch in every state. -/
def BranchesOn (i : Instr) (offset : BitVec 13) (taken : State → Prop) : Prop :=
  ∀ s, ∃ t, exec i s = .next t ∧ Branches s t (taken s) (s.pc + offset.signExtend 32)

/-- A word that decodes to this branch, taken at an aligned `pc`, traps if bit 1 of its offset is set and jumps
otherwise (R148). -/
def TrapsExactlyInBitOne (i : Instr) (offset : BitVec 13) (taken : State → Prop) : Prop :=
  ∀ (c : Config) (w : Word) (s : State), decode c w = .ok i → s.pc &&& 3#32 = 0#32 → taken s →
    ∃ t, exec i s = .next t ∧
      (offset.getLsbD 1 = true → TakesTrap s t s.cfg.ecIAlign (s.pc + offset.signExtend 32)) ∧
      (offset.getLsbD 1 = false → GoesTo s t (s.pc + offset.signExtend 32))

/-- A load at `ea` whose address is aligned exactly if `low` clears it: the read extended by `ext`, or the trap of
R193. -/
structure LoadsOrTraps (s t : State) (rd : Reg) (ea : Word) (n : Width) (low : Word) (ext : Word → Word) : Prop where
  done : ea &&& low = 0#32 → Loads s t rd ea n (ext (s.busRead ea n))
  trapped : ea &&& low ≠ 0#32 → TakesTrap s t s.cfg.ecLAlign ea

/-- A load in every state, at the effective address of R158. -/
def LoadsFrom (i : Instr) (rd rs1 : Reg) (imm : BitVec 12) (n : Width) (low : Word) (ext : Word → Word) : Prop :=
  ∀ s, ∃ t, exec i s = .next t ∧ LoadsOrTraps s t rd (s.x rs1 + imm.signExtend 32) n low ext

/-- A store at `ea`, or the trap of R194, whose `mtval` the source fixes. -/
structure StoresOrTraps (s t : State) (ea : Word) (n : Width) (low v : Word) : Prop where
  done : ea &&& low = 0#32 → Stores s t ea n v
  trapped : ea &&& low ≠ 0#32 → TakesTrap s t s.cfg.ecSAlign ea ∧ t.mtval = ea

/-- A store in every state of a permitted configuration, at the effective address of R158. -/
def StoresTo (i : Instr) (rs2 rs1 : Reg) (imm : BitVec 12) (n : Width) (low : Word) : Prop :=
  ∀ s : State, s.cfg.wf = true →
    ∃ t, exec i s = .next t ∧ StoresOrTraps s t (s.x rs1 + imm.signExtend 32) n low (s.x rs2)

/-- A CSR instruction in every state: the CSRs become those of `csrs s`. -/
def CsrStep (i : Instr) (rd : Reg) (a : CsrAddr) (csrs : State → State) : Prop :=
  ∀ s, ∃ t, exec i s = .next t ∧ CsrAccess s t (csrs s) rd a

/-- The state whose CSRs a conditional CSR write leaves: written only for a nonzero source value (R169). -/
def State.csrWriteIf (s : State) (src : Word) (a : CsrAddr) (v : Word) : State :=
  if src = 0#32 then s else s.csrWrite a v

/-- A byte of the buffer a call names, if the DMA accessor admits the buffer; `j` is the byte's address in the first RAM
image (R183 point 3). -/
def InBridgeBuffer (s : State) (call : BridgeCall) (k : BridgeKind) (j : Nat) : Prop :=
  ∃ addr len, bridgeBuffer call k = some (addr, len) ∧ s.dmaAdmits addr len = true ∧
    addr.toNat ≤ j ∧ j < addr.toNat + len.toNat

/-- Two states that the host of a call with this number cannot tell apart: the same has reached it before, the argument
registers are the same, and so are the bytes of the buffer the call names; the rest of RAM may differ (R183 points 1
and 3). -/
structure SameToBridge (s s' : State) (number : Word) : Prop where
  cfg : s'.cfg = s.cfg
  bridgeLog : s'.bridgeLog = s.bridgeLog
  args : ∀ r : Reg, 10 ≤ r.toNat → r.toNat ≤ 17 → s'.x r = s.x r
  buffer : ∀ j, InBridgeBuffer s (s.bridgeCallOf number) (Config.bridgeKind number) j →
    memGet s'.mem j = memGet s.mem j

/-- An `IOCALL` that returns, with everything it may change: `x10`, RAM as the call's class and the host make it, and
what has reached the host; a call that fails gives all-ones, and neither RAM nor the host has seen it (R182, R183). -/
structure CallsHost (s t : State) (call : BridgeCall) : Prop where
  x10 : SetsReg s t 10#5 (bridgeResult s call (Config.bridgeKind call.number) (Config.bridge s.bridgeLog))
  mem : t.mem = bridgeRam s call (Config.bridgeKind call.number) (Config.bridge s.bridgeLog)
  reached : ∀ bytes, s.bridgeBytes call (Config.bridgeKind call.number) = some bytes →
    t.bridgeLog = ⟨call, bytes⟩ :: s.bridgeLog
  failed : s.bridgeBytes call (Config.bridgeKind call.number) = none →
    t.x 10#5 = 0xFFFFFFFF#32 ∧ t.mem = s.mem ∧ t.bridgeLog = s.bridgeLog
  pc : t.pc = s.pc + 4#32
  csrs : KeepsCsrs s t
  cfg : t.cfg = s.cfg
  run : t.run = s.run
  mmioLog : t.mmioLog = s.mmioLog

/-- The instructions that name a CSR address (R168 to R173). -/
def namesCsr (a : CsrAddr) : Instr → Bool
  | .csrrw _ b _ => a == b
  | .csrrs _ b _ => a == b
  | .csrrc _ b _ => a == b
  | .csrrwi _ b _ => a == b
  | .csrrsi _ b _ => a == b
  | .csrrci _ b _ => a == b
  | _ => false

/-- The instructions that may write RAM (R52). -/
def mayWriteRam : Instr → Bool
  | .sb _ _ _ => true
  | .sh _ _ _ => true
  | .sw _ _ _ => true
  | .iocall _ => true
  | _ => false

/-- The bits of a word that its instruction ignores (R87). -/
def ignoredBits : Instr → Word
  | .fence => 0xFFFF8F80#32
  | .fenceI => 0xFFFF8F80#32
  | .exiti _ => 0x000F8F80#32
  | .exit _ => 0xFFF00F80#32
  | .iocall _ => 0x000F8F80#32
  | _ => 0x00000000#32

/-- `k` steps, stopping at the first that answers no next state. -/
def steps : Nat → State → Result
  | 0, s => .next s
  | k + 1, s =>
    match step s with
    | .next t => steps k t
    | .fault r => .fault r
    | .refused r => .refused r

/-! ## The opcode table (spec/opcode_table.json, spec/30_encoding.md R80) -/

/-- Every word that the row `(word & mask) == match` selects decodes to the instruction `build` makes of it. -/
def Selects (c : Config) (mask value : Word) (build : Word → Instr) : Prop :=
  ∀ ins : Word, ins &&& mask = value → decode c ins = .ok (build ins)

/-- One row: mask and match. -/
structure TableRow where
  mask : Word
  value : Word
deriving DecidableEq, Repr

/-- Upper immediates, jumps and branches. -/
def rowsUpperJumpBranch : List TableRow :=
  [⟨0x0000007F#32, 0x00000037#32⟩,
   ⟨0x0000007F#32, 0x00000017#32⟩,
   ⟨0x0000007F#32, 0x0000006F#32⟩,
   ⟨0x0000707F#32, 0x00000067#32⟩,
   ⟨0x0000707F#32, 0x00000063#32⟩,
   ⟨0x0000707F#32, 0x00001063#32⟩,
   ⟨0x0000707F#32, 0x00004063#32⟩,
   ⟨0x0000707F#32, 0x00005063#32⟩,
   ⟨0x0000707F#32, 0x00006063#32⟩,
   ⟨0x0000707F#32, 0x00007063#32⟩]

/-- Loads and stores. -/
def rowsLoadStore : List TableRow :=
  [⟨0x0000707F#32, 0x00000003#32⟩,
   ⟨0x0000707F#32, 0x00001003#32⟩,
   ⟨0x0000707F#32, 0x00002003#32⟩,
   ⟨0x0000707F#32, 0x00004003#32⟩,
   ⟨0x0000707F#32, 0x00005003#32⟩,
   ⟨0x0000707F#32, 0x00000023#32⟩,
   ⟨0x0000707F#32, 0x00001023#32⟩,
   ⟨0x0000707F#32, 0x00002023#32⟩]

/-- Register-immediate operations. -/
def rowsImmediate : List TableRow :=
  [⟨0x0000707F#32, 0x00000013#32⟩,
   ⟨0x0000707F#32, 0x00002013#32⟩,
   ⟨0x0000707F#32, 0x00003013#32⟩,
   ⟨0x0000707F#32, 0x00004013#32⟩,
   ⟨0x0000707F#32, 0x00006013#32⟩,
   ⟨0x0000707F#32, 0x00007013#32⟩,
   ⟨0xFE00707F#32, 0x00001013#32⟩,
   ⟨0xFE00707F#32, 0x00005013#32⟩,
   ⟨0xFE00707F#32, 0x40005013#32⟩]

/-- Register-register operations. -/
def rowsRegister : List TableRow :=
  [⟨0xFE00707F#32, 0x00000033#32⟩,
   ⟨0xFE00707F#32, 0x40000033#32⟩,
   ⟨0xFE00707F#32, 0x00001033#32⟩,
   ⟨0xFE00707F#32, 0x00002033#32⟩,
   ⟨0xFE00707F#32, 0x00003033#32⟩,
   ⟨0xFE00707F#32, 0x00004033#32⟩,
   ⟨0xFE00707F#32, 0x00005033#32⟩,
   ⟨0xFE00707F#32, 0x40005033#32⟩,
   ⟨0xFE00707F#32, 0x00006033#32⟩,
   ⟨0xFE00707F#32, 0x00007033#32⟩]

/-- The M extension. -/
def rowsMulDiv : List TableRow :=
  [⟨0xFE00707F#32, 0x02000033#32⟩,
   ⟨0xFE00707F#32, 0x02001033#32⟩,
   ⟨0xFE00707F#32, 0x02002033#32⟩,
   ⟨0xFE00707F#32, 0x02003033#32⟩,
   ⟨0xFE00707F#32, 0x02004033#32⟩,
   ⟨0xFE00707F#32, 0x02005033#32⟩,
   ⟨0xFE00707F#32, 0x02006033#32⟩,
   ⟨0xFE00707F#32, 0x02007033#32⟩]

/-- Fences and system instructions. -/
def rowsMiscSystem : List TableRow :=
  [⟨0x0000707F#32, 0x0000000F#32⟩,
   ⟨0x0000707F#32, 0x0000100F#32⟩,
   ⟨0xFFFFFFFF#32, 0x00000073#32⟩,
   ⟨0xFFFFFFFF#32, 0x00100073#32⟩,
   ⟨0xFFFFFFFF#32, 0x30200073#32⟩,
   ⟨0x0000707F#32, 0x00001073#32⟩,
   ⟨0x0000707F#32, 0x00002073#32⟩,
   ⟨0x0000707F#32, 0x00003073#32⟩,
   ⟨0x0000707F#32, 0x00005073#32⟩,
   ⟨0x0000707F#32, 0x00006073#32⟩,
   ⟨0x0000707F#32, 0x00007073#32⟩]

/-- Custom-0, under CFG0's function codes. -/
def rowsCustom : List TableRow :=
  [⟨0x0000707F#32, 0x0000000B#32⟩,
   ⟨0x0000707F#32, 0x0000100B#32⟩,
   ⟨0x0000707F#32, 0x0000200B#32⟩]

/-- The 59 rows. -/
def opcodeTable : List TableRow :=
  rowsUpperJumpBranch ++ rowsLoadStore ++ rowsImmediate ++ rowsRegister ++ rowsMulDiv ++ rowsMiscSystem ++ rowsCustom

/-- The row selects the word. -/
def TableRow.selects (r : TableRow) (ins : Word) : Bool := ins &&& r.mask == r.value

end Sys2Proof.Machine
end

