-- ==== Sys2Proof/Certificates/Slice0/Obligations.lean ====
section
/-! DEFINITION. The statements for the provers: what the rules of spec/ say of every instruction, of the shared operations,
of one step and of every step. Opcode, funct3, CSR-address and cause numbers are the ones the rules state, which the
spec itself marks as general knowledge (log 6). Where a rule marks a clause as its own decision, the docstring says so. -/

open Sys2Proof Sys2Proof.Machine

/-! ## Integer computational instructions -/

/-- R100, R103 to R105: `ADDI`, `XORI`, `ORI`, `ANDI`, with the sign-extended immediate; encoding, result and frame. -/
def Obligations.OpImmArithmetic : Prop :=
  (∀ c, Selects c 0x0000707F#32 0x00000013#32 fun w => .addi (rdOf w) (rs1Of w) (immIOf w)) ∧
  (∀ c, Selects c 0x0000707F#32 0x00004013#32 fun w => .xori (rdOf w) (rs1Of w) (immIOf w)) ∧
  (∀ c, Selects c 0x0000707F#32 0x00006013#32 fun w => .ori (rdOf w) (rs1Of w) (immIOf w)) ∧
  (∀ c, Selects c 0x0000707F#32 0x00007013#32 fun w => .andi (rdOf w) (rs1Of w) (immIOf w)) ∧
  (∀ rd rs1 imm, Computes (.addi rd rs1 imm) rd fun s => s.x rs1 + imm.signExtend 32) ∧
  (∀ rd rs1 imm, Computes (.xori rd rs1 imm) rd fun s => s.x rs1 ^^^ imm.signExtend 32) ∧
  (∀ rd rs1 imm, Computes (.ori rd rs1 imm) rd fun s => s.x rs1 ||| imm.signExtend 32) ∧
  (∀ rd rs1 imm, Computes (.andi rd rs1 imm) rd fun s => s.x rs1 &&& imm.signExtend 32)

/-- R101, R102: `SLTI` compares as signed, `SLTIU` compares the sign-extended immediate as unsigned. -/
def Obligations.OpImmCompare : Prop :=
  (∀ c, Selects c 0x0000707F#32 0x00002013#32 fun w => .slti (rdOf w) (rs1Of w) (immIOf w)) ∧
  (∀ c, Selects c 0x0000707F#32 0x00003013#32 fun w => .sltiu (rdOf w) (rs1Of w) (immIOf w)) ∧
  (∀ rd rs1 imm, Computes (.slti rd rs1 imm) rd fun s =>
    if (s.x rs1).toInt < (imm.signExtend 32).toInt then 1#32 else 0#32) ∧
  (∀ rd rs1 imm, Computes (.sltiu rd rs1 imm) rd fun s =>
    if (s.x rs1).toNat < (imm.signExtend 32).toNat then 1#32 else 0#32)

/-- R106 to R108: the shift immediates, and the words of their opcode that are illegal. -/
def Obligations.ShiftImmediate : Prop :=
  (∀ c, Selects c 0xFE00707F#32 0x00001013#32 fun w => .slli (rdOf w) (rs1Of w) (shamtOf w)) ∧
  (∀ c, Selects c 0xFE00707F#32 0x00005013#32 fun w => .srli (rdOf w) (rs1Of w) (shamtOf w)) ∧
  (∀ c, Selects c 0xFE00707F#32 0x40005013#32 fun w => .srai (rdOf w) (rs1Of w) (shamtOf w)) ∧
  (∀ c w, w &&& 0x0000707F#32 = 0x00001013#32 → w &&& 0xFE000000#32 ≠ 0#32 →
    decode c w = .error .shiftImmediate) ∧
  (∀ c w, w &&& 0x0000707F#32 = 0x00005013#32 → w &&& 0xBE000000#32 ≠ 0#32 →
    decode c w = .error .shiftImmediate) ∧
  (∀ rd rs1 shamt, Computes (.slli rd rs1 shamt) rd fun s => s.x rs1 <<< shamt.toNat) ∧
  (∀ rd rs1 shamt, Computes (.srli rd rs1 shamt) rd fun s => s.x rs1 >>> shamt.toNat) ∧
  (∀ rd rs1 shamt, Computes (.srai rd rs1 shamt) rd fun s => (s.x rs1).sshiftRight shamt.toNat)

/-- R109, R110: `LUI` and `AUIPC`, whose immediate is the word with its low 12 bits cleared. (The sum of `AUIPC` wraps by the
spec's decision D33.) -/
def Obligations.UpperImmediate : Prop :=
  (∀ c, Selects c 0x0000007F#32 0x00000037#32 fun w => .lui (rdOf w) (immUOf w)) ∧
  (∀ c, Selects c 0x0000007F#32 0x00000017#32 fun w => .auipc (rdOf w) (immUOf w)) ∧
  (∀ w rd, Computes (.lui rd (immUOf w)) rd fun _ => w &&& 0xFFFFF000#32) ∧
  (∀ w rd, Computes (.auipc rd (immUOf w)) rd fun s => s.pc + (w &&& 0xFFFFF000#32))

/-- R111, R112, R116, R119, R120: `ADD`, `SUB`, `XOR`, `OR`, `AND`. -/
def Obligations.OpArithmetic : Prop :=
  (∀ c, Selects c 0xFE00707F#32 0x00000033#32 fun w => .add (rdOf w) (rs1Of w) (rs2Of w)) ∧
  (∀ c, Selects c 0xFE00707F#32 0x40000033#32 fun w => .sub (rdOf w) (rs1Of w) (rs2Of w)) ∧
  (∀ c, Selects c 0xFE00707F#32 0x00004033#32 fun w => .xor (rdOf w) (rs1Of w) (rs2Of w)) ∧
  (∀ c, Selects c 0xFE00707F#32 0x00006033#32 fun w => .or (rdOf w) (rs1Of w) (rs2Of w)) ∧
  (∀ c, Selects c 0xFE00707F#32 0x00007033#32 fun w => .and (rdOf w) (rs1Of w) (rs2Of w)) ∧
  (∀ rd rs1 rs2, Computes (.add rd rs1 rs2) rd fun s => s.x rs1 + s.x rs2) ∧
  (∀ rd rs1 rs2, Computes (.sub rd rs1 rs2) rd fun s => s.x rs1 - s.x rs2) ∧
  (∀ rd rs1 rs2, Computes (.xor rd rs1 rs2) rd fun s => s.x rs1 ^^^ s.x rs2) ∧
  (∀ rd rs1 rs2, Computes (.or rd rs1 rs2) rd fun s => s.x rs1 ||| s.x rs2) ∧
  (∀ rd rs1 rs2, Computes (.and rd rs1 rs2) rd fun s => s.x rs1 &&& s.x rs2)

/-- R113, R117, R118: `SLL`, `SRL`, `SRA`; the amount is the source modulo 32. -/
def Obligations.OpShift : Prop :=
  (∀ c, Selects c 0xFE00707F#32 0x00001033#32 fun w => .sll (rdOf w) (rs1Of w) (rs2Of w)) ∧
  (∀ c, Selects c 0xFE00707F#32 0x00005033#32 fun w => .srl (rdOf w) (rs1Of w) (rs2Of w)) ∧
  (∀ c, Selects c 0xFE00707F#32 0x40005033#32 fun w => .sra (rdOf w) (rs1Of w) (rs2Of w)) ∧
  (∀ rd rs1 rs2, Computes (.sll rd rs1 rs2) rd fun s => s.x rs1 <<< ((s.x rs2).toNat % 32)) ∧
  (∀ rd rs1 rs2, Computes (.srl rd rs1 rs2) rd fun s => s.x rs1 >>> ((s.x rs2).toNat % 32)) ∧
  (∀ rd rs1 rs2, Computes (.sra rd rs1 rs2) rd fun s => (s.x rs1).sshiftRight ((s.x rs2).toNat % 32))

/-- R114, R115: `SLT` and `SLTU`. -/
def Obligations.OpCompare : Prop :=
  (∀ c, Selects c 0xFE00707F#32 0x00002033#32 fun w => .slt (rdOf w) (rs1Of w) (rs2Of w)) ∧
  (∀ c, Selects c 0xFE00707F#32 0x00003033#32 fun w => .sltu (rdOf w) (rs1Of w) (rs2Of w)) ∧
  (∀ rd rs1 rs2, Computes (.slt rd rs1 rs2) rd fun s =>
    if (s.x rs1).toInt < (s.x rs2).toInt then 1#32 else 0#32) ∧
  (∀ rd rs1 rs2, Computes (.sltu rd rs1 rs2) rd fun s =>
    if (s.x rs1).toNat < (s.x rs2).toNat then 1#32 else 0#32)

/-! ## Multiply and divide -/

/-- R130 to R133: the low half of the signed product, and the high halves of the three 64-bit products. -/
def Obligations.Multiply : Prop :=
  (∀ c, Selects c 0xFE00707F#32 0x02000033#32 fun w => .mul (rdOf w) (rs1Of w) (rs2Of w)) ∧
  (∀ c, Selects c 0xFE00707F#32 0x02001033#32 fun w => .mulh (rdOf w) (rs1Of w) (rs2Of w)) ∧
  (∀ c, Selects c 0xFE00707F#32 0x02002033#32 fun w => .mulhsu (rdOf w) (rs1Of w) (rs2Of w)) ∧
  (∀ c, Selects c 0xFE00707F#32 0x02003033#32 fun w => .mulhu (rdOf w) (rs1Of w) (rs2Of w)) ∧
  (∀ rd rs1 rs2, Computes (.mul rd rs1 rs2) rd fun s =>
    BitVec.ofInt 32 ((s.x rs1).toInt * (s.x rs2).toInt)) ∧
  (∀ rd rs1 rs2, Computes (.mulh rd rs1 rs2) rd fun s =>
    ((s.x rs1).signExtend 64 * (s.x rs2).signExtend 64).extractLsb' 32 32) ∧
  (∀ rd rs1 rs2, Computes (.mulhsu rd rs1 rs2) rd fun s =>
    ((s.x rs1).signExtend 64 * (s.x rs2).setWidth 64).extractLsb' 32 32) ∧
  (∀ rd rs1 rs2, Computes (.mulhu rd rs1 rs2) rd fun s =>
    BitVec.ofNat 32 ((s.x rs1).toNat * (s.x rs2).toNat / 2 ^ 32))

/-- R134 to R137: quotient and remainder, with the two special cases. -/
def Obligations.Divide : Prop :=
  (∀ c, Selects c 0xFE00707F#32 0x02004033#32 fun w => .div (rdOf w) (rs1Of w) (rs2Of w)) ∧
  (∀ c, Selects c 0xFE00707F#32 0x02005033#32 fun w => .divu (rdOf w) (rs1Of w) (rs2Of w)) ∧
  (∀ c, Selects c 0xFE00707F#32 0x02006033#32 fun w => .rem (rdOf w) (rs1Of w) (rs2Of w)) ∧
  (∀ c, Selects c 0xFE00707F#32 0x02007033#32 fun w => .remu (rdOf w) (rs1Of w) (rs2Of w)) ∧
  (∀ rd rs1 rs2, Computes (.div rd rs1 rs2) rd fun s =>
    if s.x rs2 = 0#32 then 0xFFFFFFFF#32
    else if s.x rs1 = 0x80000000#32 ∧ s.x rs2 = 0xFFFFFFFF#32 then 0x80000000#32
    else BitVec.ofInt 32 ((s.x rs1).toInt.tdiv (s.x rs2).toInt)) ∧
  (∀ rd rs1 rs2, Computes (.divu rd rs1 rs2) rd fun s =>
    if s.x rs2 = 0#32 then 0xFFFFFFFF#32 else BitVec.ofNat 32 ((s.x rs1).toNat / (s.x rs2).toNat)) ∧
  (∀ rd rs1 rs2, Computes (.rem rd rs1 rs2) rd fun s =>
    if s.x rs2 = 0#32 then s.x rs1
    else if s.x rs1 = 0x80000000#32 ∧ s.x rs2 = 0xFFFFFFFF#32 then 0#32
    else BitVec.ofInt 32
      ((s.x rs1).toInt - (s.x rs2).toInt * (s.x rs1).toInt.tdiv (s.x rs2).toInt)) ∧
  (∀ rd rs1 rs2, Computes (.remu rd rs1 rs2) rd fun s =>
    if s.x rs2 = 0#32 then s.x rs1 else BitVec.ofNat 32 ((s.x rs1).toNat % (s.x rs2).toNat))

/-- R139's laws: quotient and remainder of one division give the dividend back, for every divisor; with a nonzero
divisor the remainder is smaller in magnitude and has the sign of the dividend. -/
def Obligations.DivisionIdentity : Prop :=
  ∀ (s q r qu ru : State) (rd rs1 rs2 : Reg), rd ≠ 0#5 →
    exec (.div rd rs1 rs2) s = .next q → exec (.rem rd rs1 rs2) s = .next r →
    exec (.divu rd rs1 rs2) s = .next qu → exec (.remu rd rs1 rs2) s = .next ru →
    s.x rs1 = s.x rs2 * q.x rd + r.x rd ∧
    s.x rs1 = s.x rs2 * qu.x rd + ru.x rd ∧
    (s.x rs2 ≠ 0#32 →
      (r.x rd).toInt.natAbs < (s.x rs2).toInt.natAbs ∧
      (r.x rd = 0#32 ∨ ((r.x rd).toInt < 0 ↔ (s.x rs1).toInt < 0)) ∧
      (ru.x rd).toNat < (s.x rs2).toNat)

/-! ## Control transfer -/

/-- R140: `JAL`, in both cases of its alignment test. (`mtval` on the trap: the spec's decision D4; a trap links nothing:
D16.) -/
def Obligations.JalLinksAndJumps : Prop :=
  (∀ c, Selects c 0x0000007F#32 0x0000006F#32 fun w => .jal (rdOf w) (immJOf w)) ∧
  (∀ (rd : Reg) (offset : BitVec 21) (s : State), ∃ t, exec (.jal rd offset) s = .next t ∧
    Links s t rd (s.pc + offset.signExtend 32))

/-- R141: `JALR` clears bit 0 of the sum, takes the base before the link is written (the spec's decision D31; on the trap
D4 and D16), and is illegal with another funct3. -/
def Obligations.JalrLinksAndJumps : Prop :=
  (∀ c, Selects c 0x0000707F#32 0x00000067#32 fun w => .jalr (rdOf w) (rs1Of w) (immIOf w)) ∧
  (∀ c w, w &&& 0x0000007F#32 = 0x00000067#32 → w &&& 0x00007000#32 ≠ 0#32 → decode c w = .error .jalrFunct3) ∧
  (∀ (rd rs1 : Reg) (imm : BitVec 12) (s : State), ∃ t, exec (.jalr rd rs1 imm) s = .next t ∧
    Links s t rd ((s.x rs1 + imm.signExtend 32) &&& 0xFFFFFFFE#32))

/-- R142, R143: `BEQ` and `BNE`. (`mtval` of the misaligned target: the spec's decision D4, log 7.) -/
def Obligations.BranchEquality : Prop :=
  (∀ c, Selects c 0x0000707F#32 0x00000063#32 fun w => .beq (rs1Of w) (rs2Of w) (immBOf w)) ∧
  (∀ c, Selects c 0x0000707F#32 0x00001063#32 fun w => .bne (rs1Of w) (rs2Of w) (immBOf w)) ∧
  (∀ rs1 rs2 offset, BranchesOn (.beq rs1 rs2 offset) offset fun s => s.x rs1 = s.x rs2) ∧
  (∀ rs1 rs2 offset, BranchesOn (.bne rs1 rs2 offset) offset fun s => s.x rs1 ≠ s.x rs2)

/-- R144, R145: `BLT` and `BGE` compare as signed. (`mtval` of the misaligned target: the spec's decision D4, log 7.) -/
def Obligations.BranchSigned : Prop :=
  (∀ c, Selects c 0x0000707F#32 0x00004063#32 fun w => .blt (rs1Of w) (rs2Of w) (immBOf w)) ∧
  (∀ c, Selects c 0x0000707F#32 0x00005063#32 fun w => .bge (rs1Of w) (rs2Of w) (immBOf w)) ∧
  (∀ rs1 rs2 offset, BranchesOn (.blt rs1 rs2 offset) offset fun s => (s.x rs1).toInt < (s.x rs2).toInt) ∧
  (∀ rs1 rs2 offset, BranchesOn (.bge rs1 rs2 offset) offset fun s => (s.x rs2).toInt ≤ (s.x rs1).toInt)

/-- R146, R147: `BLTU` and `BGEU` compare as unsigned. (`mtval` of the misaligned target: the spec's decision D4,
log 7.) -/
def Obligations.BranchUnsigned : Prop :=
  (∀ c, Selects c 0x0000707F#32 0x00006063#32 fun w => .bltu (rs1Of w) (rs2Of w) (immBOf w)) ∧
  (∀ c, Selects c 0x0000707F#32 0x00007063#32 fun w => .bgeu (rs1Of w) (rs2Of w) (immBOf w)) ∧
  (∀ rs1 rs2 offset, BranchesOn (.bltu rs1 rs2 offset) offset fun s => (s.x rs1).toNat < (s.x rs2).toNat) ∧
  (∀ rs1 rs2 offset, BranchesOn (.bgeu rs1 rs2 offset) offset fun s => (s.x rs2).toNat ≤ (s.x rs1).toNat)

/-- From R148: at an aligned `pc` a decoded `JAL` or taken branch traps exactly if bit 1 of its offset is set; `JALR` traps
exactly if bit 1 of the sum is set, and then the two low bits of the target are 2. (`mtval`: the spec's decision D4,
log 7; a trap links nothing: D16.) -/
def Obligations.TargetFailsOnlyInBitOne : Prop :=
  (∀ (c : Config) (w : Word) (s : State) (rd : Reg) (offset : BitVec 21), decode c w = .ok (.jal rd offset) →
    s.pc &&& 3#32 = 0#32 → ∃ t, exec (.jal rd offset) s = .next t ∧
      (offset.getLsbD 1 = true → TakesTrap s t s.cfg.ecIAlign (s.pc + offset.signExtend 32)) ∧
      (offset.getLsbD 1 = false → WritesReg s t rd (s.pc + 4#32) (s.pc + offset.signExtend 32))) ∧
  (∀ rs1 rs2 offset, TrapsExactlyInBitOne (.beq rs1 rs2 offset) offset fun s => s.x rs1 = s.x rs2) ∧
  (∀ rs1 rs2 offset, TrapsExactlyInBitOne (.bne rs1 rs2 offset) offset fun s => s.x rs1 ≠ s.x rs2) ∧
  (∀ rs1 rs2 offset, TrapsExactlyInBitOne (.blt rs1 rs2 offset) offset fun s => (s.x rs1).toInt < (s.x rs2).toInt) ∧
  (∀ rs1 rs2 offset, TrapsExactlyInBitOne (.bge rs1 rs2 offset) offset fun s => (s.x rs2).toInt ≤ (s.x rs1).toInt) ∧
  (∀ rs1 rs2 offset, TrapsExactlyInBitOne (.bltu rs1 rs2 offset) offset fun s => (s.x rs1).toNat < (s.x rs2).toNat) ∧
  (∀ rs1 rs2 offset, TrapsExactlyInBitOne (.bgeu rs1 rs2 offset) offset fun s => (s.x rs2).toNat ≤ (s.x rs1).toNat) ∧
  (∀ (s : State) (rd rs1 : Reg) (imm : BitVec 12), ∃ t, exec (.jalr rd rs1 imm) s = .next t ∧
    ((s.x rs1 + imm.signExtend 32).getLsbD 1 = true →
      TakesTrap s t s.cfg.ecIAlign ((s.x rs1 + imm.signExtend 32) &&& 0xFFFFFFFE#32) ∧
      (s.cfg.mtvalRule = .decided → t.mtval &&& 3#32 = 2#32)) ∧
    ((s.x rs1 + imm.signExtend 32).getLsbD 1 = false →
      WritesReg s t rd (s.pc + 4#32) ((s.x rs1 + imm.signExtend 32) &&& 0xFFFFFFFE#32)))

/-! ## Loads, stores, MISC-MEM -/

/-- R150, R153: `LB` and `LBU` never trap. -/
def Obligations.ByteLoads : Prop :=
  (∀ c, Selects c 0x0000707F#32 0x00000003#32 fun w => .lb (rdOf w) (rs1Of w) (immIOf w)) ∧
  (∀ c, Selects c 0x0000707F#32 0x00004003#32 fun w => .lbu (rdOf w) (rs1Of w) (immIOf w)) ∧
  (∀ (rd rs1 : Reg) (imm : BitVec 12) (s : State), ∃ t, exec (.lb rd rs1 imm) s = .next t ∧
    Loads s t rd (s.x rs1 + imm.signExtend 32) .byte
      (((s.busRead (s.x rs1 + imm.signExtend 32) .byte).setWidth 8).signExtend 32)) ∧
  (∀ (rd rs1 : Reg) (imm : BitVec 12) (s : State), ∃ t, exec (.lbu rd rs1 imm) s = .next t ∧
    Loads s t rd (s.x rs1 + imm.signExtend 32) .byte
      (((s.busRead (s.x rs1 + imm.signExtend 32) .byte).setWidth 8).setWidth 32))

/-- R151, R152, R154: `LH`, `LW`, `LHU`, with the alignment test. (`mtval` of a misaligned load: the spec's decision D4,
log 7.) -/
def Obligations.HalfAndWordLoads : Prop :=
  (∀ c, Selects c 0x0000707F#32 0x00001003#32 fun w => .lh (rdOf w) (rs1Of w) (immIOf w)) ∧
  (∀ c, Selects c 0x0000707F#32 0x00002003#32 fun w => .lw (rdOf w) (rs1Of w) (immIOf w)) ∧
  (∀ c, Selects c 0x0000707F#32 0x00005003#32 fun w => .lhu (rdOf w) (rs1Of w) (immIOf w)) ∧
  (∀ rd rs1 imm, LoadsFrom (.lh rd rs1 imm) rd rs1 imm .half 1#32 fun v => (v.setWidth 16).signExtend 32) ∧
  (∀ rd rs1 imm, LoadsFrom (.lw rd rs1 imm) rd rs1 imm .word 3#32 fun v => v) ∧
  (∀ rd rs1 imm, LoadsFrom (.lhu rd rs1 imm) rd rs1 imm .half 1#32 fun v => (v.setWidth 16).setWidth 32)

/-- R155 to R157: `SB`, `SH`, `SW`, with the alignment test and the bytes stored. -/
def Obligations.StoresWriteMemory : Prop :=
  (∀ c, Selects c 0x0000707F#32 0x00000023#32 fun w => .sb (rs2Of w) (rs1Of w) (immSOf w)) ∧
  (∀ c, Selects c 0x0000707F#32 0x00001023#32 fun w => .sh (rs2Of w) (rs1Of w) (immSOf w)) ∧
  (∀ c, Selects c 0x0000707F#32 0x00002023#32 fun w => .sw (rs2Of w) (rs1Of w) (immSOf w)) ∧
  (∀ rs2 rs1 imm, StoresTo (.sb rs2 rs1 imm) rs2 rs1 imm .byte 0#32) ∧
  (∀ rs2 rs1 imm, StoresTo (.sh rs2 rs1 imm) rs2 rs1 imm .half 1#32) ∧
  (∀ rs2 rs1 imm, StoresTo (.sw rs2 rs1 imm) rs2 rs1 imm .word 3#32)

/-- From R158 (the spec's decision D21): a load into `x0` changes no register and is still seen by a platform device. -/
def Obligations.LoadToZeroStillReads : Prop :=
  ∀ (s : State) (rs1 : Reg) (imm : BitVec 12), s.cfg.mmio = .platform →
    isRam s.cfg (s.x rs1 + imm.signExtend 32) = false → (s.x rs1 + imm.signExtend 32) &&& 3#32 = 0#32 →
    ∃ t, exec (.lw 0#5 rs1 imm) s = .next t ∧ KeepsRegs s t ∧
      t.mmioLog = .read (s.x rs1 + imm.signExtend 32) .word :: s.mmioLog

/-- From R159 to R161 (the spec's decision D12): which MISC-MEM words are instructions under each policy, and that
both do nothing but advance `pc`. -/
def Obligations.FencesDoNothing : Prop :=
  (∀ c w, w &&& 0x0000707F#32 = 0x0000000F#32 →
    decode c w = if c.miscMem = .illegal then .error .miscMem else .ok .fence) ∧
  (∀ c w, w &&& 0x0000707F#32 = 0x0000100F#32 →
    decode c w = if c.miscMem = .nopBoth then .ok .fenceI else .error .miscMem) ∧
  (∀ c w, w &&& 0x0000007F#32 = 0x0000000F#32 → w &&& 0x00006000#32 ≠ 0#32 → decode c w = .error .miscMem) ∧
  (∀ s : State, ∃ t, exec .fence s = .next t ∧ GoesTo s t (s.pc + 4#32)) ∧
  (∀ s : State, ∃ t, exec .fenceI s = .next t ∧ GoesTo s t (s.pc + 4#32))

/-! ## The memory bus -/

/-- R43: little-endian. A value written as a word is seen by narrower reads at the bytes the rule names. -/
def Obligations.LittleEndian : Prop :=
  ∀ (s : State) (a v : Word), s.cfg.wf = true → isRam s.cfg a = true → a &&& 3#32 = 0#32 →
    (s.busWrite a .word v).busRead a .word = v ∧
    (s.busWrite a .word v).busRead a .half = (v.extractLsb' 0 16).setWidth 32 ∧
    (s.busWrite a .word v).busRead (a + 2#32) .half = (v.extractLsb' 16 16).setWidth 32 ∧
    (∀ i, i < 4 → (s.busWrite a .word v).busRead (a + BitVec.ofNat 32 i) .byte =
      (v.extractLsb' (8 * i) 8).setWidth 32) ∧
    s.busRead a .word =
      s.ramByte (a + 3#32) ++ s.ramByte (a + 2#32) ++ s.ramByte (a + 1#32) ++ s.ramByte a

/-- R42, R62: addresses in RAM that differ by a multiple of RAM_SIZE name the same byte, for reads and for writes; after
a write at `RAM_BASE + RAM_SIZE` a read at `RAM_BASE` returns the bits written (marked derived by the spec). -/
def Obligations.RamWrapsAround : Prop :=
  (∀ (s : State) (a b v : Word) (n : Width), isRam s.cfg a = true → isRam s.cfg b = true →
    a.toNat % ramSize s.cfg = b.toNat % ramSize s.cfg →
    s.ramByte a = s.ramByte b ∧ s.busRead a n = s.busRead b n ∧ s.busWrite a n v = s.busWrite b n v) ∧
  (∀ (s : State) (v : Word) (n : Width), s.cfg.wf = true → s.cfg.ramBase.toNat + ramSize s.cfg ≤ 0xFFFFFFFF →
    (s.busWrite (s.cfg.ramBase + BitVec.ofNat 32 (ramSize s.cfg)) n v).busRead s.cfg.ramBase n = v &&& widthOnes n)

/-- From R41, R46, R47: below RAM_BASE the default device answers all-ones of the width, and neither reads nor writes
change anything; a platform device answers any value of the width, and RAM is not written. (Widths: the spec's decision
D19.) -/
def Obligations.MmioHook : Prop :=
  ∀ (s : State) (a v : Word), isRam s.cfg a = false →
    (s.cfg.mmio = .default →
      s.busRead a .byte = 0x000000FF#32 ∧ s.busRead a .half = 0x0000FFFF#32 ∧ s.busRead a .word = 0xFFFFFFFF#32 ∧
      (∀ n, s.afterRead a n = s) ∧ (∀ n, s.busWrite a n v = s)) ∧
    (∀ n, s.busRead a n &&& ~~~(widthOnes n) = 0#32 ∧ (s.busWrite a n v).mem = s.mem)

/-- From R56, R152, R157: a word stored in RAM is the word the next load of that address returns, whatever registers
the two instructions name. -/
def Obligations.StoreThenLoad : Prop :=
  ∀ (s t : State) (rd rs1 rs2 : Reg) (imm : BitVec 12), s.cfg.wf = true →
    isRam s.cfg (s.x rs1 + imm.signExtend 32) = true → (s.x rs1 + imm.signExtend 32) &&& 3#32 = 0#32 →
    exec (.sw rs2 rs1 imm) s = .next t →
    ∃ u, exec (.lw rd rs1 imm) t = .next u ∧ u.x rd = if rd = 0#5 then 0#32 else s.x rs2

/-- From R57, R226: a store over the next instruction is what the next step fetches. -/
def Obligations.StoreSeenByNextFetch : Prop :=
  ∀ (s : State) (rs1 rs2 : Reg) (imm : BitVec 12), s.cfg.wf = true → s.run = .running →
    decode s.cfg s.fetchWord = .ok (.sw rs2 rs1 imm) → s.x rs1 + imm.signExtend 32 = s.pc + 4#32 →
    isRam s.cfg (s.pc + 4#32) = true → s.pc &&& 3#32 = 0#32 →
    ∃ t, step s = .next t ∧ t.run = .running ∧ t.pc = s.pc + 4#32 ∧ t.fetchWord = s.x rs2

/-! ## System instructions and CSRs -/

/-- R165, R166: `ECALL` and `EBREAK` take their exception, in every state. (`mtval`: the spec's decision D4.) -/
def Obligations.EcallEbreakTrap : Prop :=
  (∀ c w, decode c w = .ok .ecall ↔ w = 0x00000073#32) ∧
  (∀ c w, decode c w = .ok .ebreak ↔ w = 0x00100073#32) ∧
  (∀ s : State, ∃ t, exec .ecall s = .next t ∧ TakesTrap s t s.cfg.ecEcallM 0#32) ∧
  (∀ s : State, ∃ t, exec .ebreak s = .next t ∧ TakesTrap s t s.cfg.ecBreak 0#32)

/-- R167: `MRET` copies an aligned `mepc` to `pc` and changes nothing else; with a misaligned `mepc` the step has no
meaning (the spec's decision D17). -/
def Obligations.MretReturns : Prop :=
  (∀ c w, decode c w = .ok .mret ↔ w = 0x30200073#32) ∧
  (∀ s : State, s.mepc &&& 3#32 = 0#32 → ∃ t, exec .mret s = .next t ∧ GoesTo s t s.mepc) ∧
  (∀ s : State, s.mepc &&& 3#32 ≠ 0#32 → exec .mret s = .refused .mretMisaligned)

/-- R174, R175: what a read of each CSR address returns and what a write to it changes. (The addresses: the spec's
decision D2.) -/
def Obligations.CsrMaps : Prop :=
  ∀ (s : State) (v : Word),
    (s.csrRead 0x301#12 = s.cfg.misa ∧ s.csrRead 0x305#12 = s.mtvec ∧ s.csrRead 0x340#12 = s.mscratch ∧
      s.csrRead 0x341#12 = s.mepc ∧ s.csrRead 0x342#12 = s.mcause ∧ s.csrRead 0x343#12 = s.mtval ∧
      s.csrRead 0xF11#12 = s.cfg.mvendorid ∧ s.csrRead 0xF12#12 = s.cfg.marchid ∧
      s.csrRead 0xF13#12 = s.cfg.mimpid ∧ s.csrRead 0xF14#12 = s.cfg.mhartid ∧
      (∀ a : CsrAddr, a ∉ [0x301#12, 0x305#12, 0x340#12, 0x341#12, 0x342#12, 0x343#12, 0xF11#12, 0xF12#12, 0xF13#12,
        0xF14#12] → s.csrRead a = 0#32)) ∧
    (s.csrWrite 0x305#12 v = { s with mtvec := v &&& 0xFFFFFFFC#32 } ∧
      s.csrWrite 0x340#12 v = { s with mscratch := v } ∧
      s.csrWrite 0x341#12 v = { s with mepc := v } ∧
      s.csrWrite 0x342#12 v = { s with mcause := v } ∧
      s.csrWrite 0x343#12 v = { s with mtval := v } ∧
      (∀ a : CsrAddr, a ∉ [0x305#12, 0x340#12, 0x341#12, 0x342#12, 0x343#12] → s.csrWrite a v = s))

/-- R168 to R170: `CSRRW` writes always; `CSRRS` and `CSRRC` write only for a nonzero source value. (Value test and
read order: the spec's decisions D26 and D31.) -/
def Obligations.CsrRegisterForms : Prop :=
  (∀ c, Selects c 0x0000707F#32 0x00001073#32 fun w => .csrrw (rdOf w) (csrOf w) (rs1Of w)) ∧
  (∀ c, Selects c 0x0000707F#32 0x00002073#32 fun w => .csrrs (rdOf w) (csrOf w) (rs1Of w)) ∧
  (∀ c, Selects c 0x0000707F#32 0x00003073#32 fun w => .csrrc (rdOf w) (csrOf w) (rs1Of w)) ∧
  (∀ rd a rs1, CsrStep (.csrrw rd a rs1) rd a fun s => s.csrWrite a (s.x rs1)) ∧
  (∀ rd a rs1, CsrStep (.csrrs rd a rs1) rd a fun s => s.csrWriteIf (s.x rs1) a (s.csrRead a ||| s.x rs1)) ∧
  (∀ rd a rs1, CsrStep (.csrrc rd a rs1) rd a fun s => s.csrWriteIf (s.x rs1) a (s.csrRead a &&& ~~~(s.x rs1)))

/-- R171 to R173: the immediate forms, whose source is the rs1 field itself. -/
def Obligations.CsrImmediateForms : Prop :=
  (∀ c, Selects c 0x0000707F#32 0x00005073#32 fun w => .csrrwi (rdOf w) (csrOf w) (uimmOf w)) ∧
  (∀ c, Selects c 0x0000707F#32 0x00006073#32 fun w => .csrrsi (rdOf w) (csrOf w) (uimmOf w)) ∧
  (∀ c, Selects c 0x0000707F#32 0x00007073#32 fun w => .csrrci (rdOf w) (csrOf w) (uimmOf w)) ∧
  (∀ rd a u, CsrStep (.csrrwi rd a u) rd a fun s => s.csrWrite a (u.setWidth 32)) ∧
  (∀ rd a u, CsrStep (.csrrsi rd a u) rd a fun s =>
    s.csrWriteIf (u.setWidth 32) a (s.csrRead a ||| u.setWidth 32)) ∧
  (∀ rd a u, CsrStep (.csrrci rd a u) rd a fun s =>
    s.csrWriteIf (u.setWidth 32) a (s.csrRead a &&& ~~~(u.setWidth 32)))

/-! ## Custom-0 and the bridge -/

/-- R180, R181: `EXITI` and `EXIT` end the run with their code and change nothing else. (The full 32-bit code is the spec's
decision D23, the ignored fields and the function codes D11, and CFG0 the model's choice, log 2.) -/
def Obligations.ExitInstructions : Prop :=
  (∀ c w, w &&& 0x0000007F#32 = 0x0000000B#32 → funct3Of w = c.f3Exiti → decode c w = .ok (.exiti (immIOf w))) ∧
  (∀ c w, c.wf = true → w &&& 0x0000007F#32 = 0x0000000B#32 → funct3Of w = c.f3Exit →
    decode c w = .ok (.exit (rs1Of w))) ∧
  Selects Config.cfg0 0x0000707F#32 0x0000000B#32 (fun w => .exiti (immIOf w)) ∧
  Selects Config.cfg0 0x0000707F#32 0x0000100B#32 (fun w => .exit (rs1Of w)) ∧
  (∀ (imm : BitVec 12) (s : State), ∃ t, exec (.exiti imm) s = .next t ∧ Halts s t (imm.signExtend 32)) ∧
  (∀ (rs1 : Reg) (s : State), ∃ t, exec (.exit rs1) s = .next t ∧ Halts s t (s.x rs1))

/-- R182, R183, R185: `IOCALL` hands the call number and `x10` to `x17` to the host, writes its result to `x10`, and
changes no other register and no CSR. It returns in every state under a host that always returns, and whenever the call
fails before it reaches the host; under one that may block, whether it returns is a free value, and if it never does the
step has no next state. (Contract of the bridge: the spec's decision D22. The host's answer is a free value: log 9.
Whether it returns, and that CFG0's does: log 18. CFG0 itself: log 2.) -/
def Obligations.IocallCallsTheHost : Prop :=
  (∀ c w, c.wf = true → w &&& 0x0000007F#32 = 0x0000000B#32 → funct3Of w = c.f3Iocall →
    decode c w = .ok (.iocall (immIOf w))) ∧
  Selects Config.cfg0 0x0000707F#32 0x0000200B#32 (fun w => .iocall (immIOf w)) ∧
  (∀ (imm : BitVec 12) (s : State), ∃ call : BridgeCall,
    call.number = imm.signExtend 32 ∧
    call.args = #v[s.x 10#5, s.x 11#5, s.x 12#5, s.x 13#5, s.x 14#5, s.x 15#5, s.x 16#5, s.x 17#5] ∧
    (s.cfg.host = .returns → ∃ t, exec (.iocall imm) s = .next t ∧ CallsHost s t call) ∧
    (s.cfg.host = .mayBlock →
      match s.bridgeBytes call (Config.bridgeKind call.number) with
      | none => ∃ t, exec (.iocall imm) s = .next t ∧ CallsHost s t call
      | some bytes =>
        if Config.bridgeReturns s.bridgeLog ⟨call, bytes⟩ = true then
          ∃ t, exec (.iocall imm) s = .next t ∧ CallsHost s t call
        else exec (.iocall imm) s = .fault .hostNeverReturns))

/-- From R183 points 3 and 4, for every class of call and every host: a byte of RAM changes only in a `read` call and
only in the buffer the call names, which the DMA accessor admits; an unknown call number, a refused buffer or a path
without a terminator changes neither RAM nor the host and returns all-ones. (The contract: the spec's decision D22;
the form of the host: log 9.) -/
def Obligations.BridgeStaysInWindow : Prop :=
  ∀ (s : State) (call : BridgeCall) (k : BridgeKind) (host : BridgeEvent → BridgeAnswer),
    (∀ j, memGet (s.afterBridge call k host).mem j ≠ memGet s.mem j →
      InBridgeBuffer s call k j ∧ ∃ a l, k = .read a l) ∧
    (k = .unknown ∨ (∃ addr len, bridgeBuffer call k = some (addr, len) ∧
        (s.dmaAdmits addr len = false ∨
          (∃ a, k = .path a) ∧ ∀ i, i < len.toNat → memGet s.mem (addr.toNat + i) ≠ 0#8)) →
      (s.afterBridge call k host).mem = s.mem ∧ (s.afterBridge call k host).bridgeLog = s.bridgeLog ∧
      (s.afterBridge call k host).x 10#5 = 0xFFFFFFFF#32)

/-- From R183 points 1 and 3: no other register, no CSR, not `pc` and no byte of RAM outside the buffer a call names can
reach the host. One `IOCALL` in two states that agree on all but these gives the same result, hands the host the same,
leaves the same bytes in the buffer, and blocks in both or in neither. (D22, log 9, log 18.) -/
def Obligations.BridgeLearnsNothingElse : Prop :=
  ∀ (s s' : State) (imm : BitVec 12), SameToBridge s s' (imm.signExtend 32) →
    (∃ t t', exec (.iocall imm) s = .next t ∧ exec (.iocall imm) s' = .next t' ∧
      t'.x 10#5 = t.x 10#5 ∧ t'.bridgeLog = t.bridgeLog ∧
      ∀ j, InBridgeBuffer s (s.bridgeCallOf (imm.signExtend 32)) (Config.bridgeKind (imm.signExtend 32)) j →
        memGet t'.mem j = memGet t.mem j) ∨
    (exec (.iocall imm) s = .fault .hostNeverReturns ∧ exec (.iocall imm) s' = .fault .hostNeverReturns)

/-- From R53: the DMA accessor admits exactly the nonempty buffers inside the array, without wraparound; a nonempty buffer
that starts at `RAM_BASE + RAM_SIZE` fails. For length 0 the spec gives no answer (U15, 91 N12): the model refuses it
outside the array and leaves it free at any address of the array and at its end (log 10). -/
def Obligations.DmaAccessorBounds : Prop :=
  ∀ (s : State) (addr len : Word),
    (len ≠ 0#32 → (s.dmaAdmits addr len = true ↔
      s.cfg.ramBase.toNat ≤ addr.toNat ∧ addr.toNat + len.toNat ≤ s.cfg.ramBase.toNat + ramSize s.cfg)) ∧
    (s.dmaAdmits addr len = true →
      s.cfg.ramBase.toNat ≤ addr.toNat ∧ addr.toNat + len.toNat ≤ s.cfg.ramBase.toNat + ramSize s.cfg) ∧
    (addr.toNat = s.cfg.ramBase.toNat + ramSize s.cfg → len ≠ 0#32 → s.dmaAdmits addr len = false)

/-! ## Exceptions -/

/-- From R197: trap entry, for every exception: `mepc`, `mcause` and `pc` are written, and nothing but `mtval` changes
besides. The value of `mtval` is stated under the decided parameters `MTVAL_*` only, where it is R190's (the spec's
decision D4, log 7). -/
def Obligations.TrapEntry : Prop :=
  ∀ (s : State) (e : Exception), TakesTrap s (s.trap e) (causeOf s.cfg e) (valueOf e)

/-- From R190: cause and value of the six exceptions under CFG0. (The numbers are the spec's D3, the values its D4.) -/
def Obligations.CauseCodesUnderCfg0 : Prop :=
  ∀ (s : State) (a : Word), s.cfg = Config.cfg0 →
    ((s.trap (.instrAddrMisaligned a)).mcause, (s.trap (.instrAddrMisaligned a)).mtval) = (0#32, a) ∧
    ((s.trap (.illegalInstruction a)).mcause, (s.trap (.illegalInstruction a)).mtval) = (2#32, a) ∧
    ((s.trap .breakpoint).mcause, (s.trap .breakpoint).mtval) = (3#32, 0#32) ∧
    ((s.trap (.loadAddrMisaligned a)).mcause, (s.trap (.loadAddrMisaligned a)).mtval) = (4#32, a) ∧
    ((s.trap (.storeAddrMisaligned a)).mcause, (s.trap (.storeAddrMisaligned a)).mtval) = (6#32, a) ∧
    ((s.trap .envCallFromM).mcause, (s.trap .envCallFromM).mtval) = (11#32, 0#32)

/-- R191: a word that is no instruction traps after its fetch, with the word in `mtval` (the spec's decision D4), and
changes nothing else. -/
def Obligations.IllegalInstructionTraps : Prop :=
  ∀ (s : State) (e : Illegal), s.run = .running → decode s.cfg s.fetchWord = .error e → s.cfg.abortOnIllegal = false →
    ∃ t, step s = .next t ∧ TakesTrap s.afterFetch t s.cfg.ecIllegal s.fetchWord

/-- From R205 (the spec's decision D24): with ABORT_ON_ILLEGAL the run is aborted and nothing else changes; the other
exceptions trap as before. -/
def Obligations.AbortOnIllegal : Prop :=
  ∀ (s : State) (e : Illegal), s.run = .running → decode s.cfg s.fetchWord = .error e → s.cfg.abortOnIllegal = true →
    step s = .next { s.afterFetch with run := .aborted }

/-- From R202 (the spec's resolution C1): the handler of an `ECALL` that returns at once executes it again; one that first adds 4 to `mepc` with a
CSR instruction goes on after it. -/
def Obligations.EcallThenMret : Prop :=
  ∀ (s : State) (r : Reg), s.pc &&& 3#32 = 0#32 → s.x r = s.pc + 4#32 →
    ∃ t, exec .ecall s = .next t ∧ t.mepc = s.pc ∧
      (∃ u, exec .mret t = .next u ∧ u.pc = s.pc ∧ KeepsRegs s u) ∧
      (∃ v u, exec (.csrrw 0#5 0x341#12 r) t = .next v ∧ exec .mret v = .next u ∧ u.pc = s.pc + 4#32 ∧ KeepsRegs s u)

/-- From R201: if the word at the handler's own address is no instruction, the machine traps to it for ever, with
`mepc` the handler's address. -/
def Obligations.TrapLoopForever : Prop :=
  ∀ (s : State) (e : Illegal) (n : Nat), s.run = .running → s.cfg.abortOnIllegal = false →
    (isRam s.cfg s.pc = true ∨ s.cfg.mmio = .default) → s.pc = s.mtvec &&& 0xFFFFFFFC#32 →
    decode s.cfg s.fetchWord = .error e →
    ∃ t : State, steps (n + 1) s = .next t ∧ t.pc = s.pc ∧ t.mepc = s.pc ∧ t.mcause = s.cfg.ecIllegal ∧
      t.run = .running ∧ KeepsRegs s t

/-! ## Steps -/

/-- R3, R50, R88 as the model's step: the word at `pc` is fetched through the bus; if it decodes to `i`, the step is `i`
at that state (a platform device has seen the fetch). A fetch from RAM or from the default device leaves the state as
it was, and the word's bytes are those at `pc`, little-endian. -/
def Obligations.StepRunsDecoded : Prop :=
  ∀ s : State, s.run = .running →
    (∀ i, decode s.cfg s.fetchWord = .ok i → step s = exec i s.afterFetch) ∧
    (isRam s.cfg s.pc = true ∨ s.cfg.mmio = .default → s.afterFetch = s) ∧
    (s.cfg.wf = true → isRam s.cfg s.pc = true → s.pc &&& 3#32 = 0#32 →
      s.fetchWord = wordOfBytes (s.ramByte s.pc) (s.ramByte (s.pc + 1#32)) (s.ramByte (s.pc + 2#32))
        (s.ramByte (s.pc + 3#32)))

/-- From R51: a fetch from the default MMIO device reads all-ones, which is no instruction. (`mtval`: the spec's decision
D4.) -/
def Obligations.FetchFromDefaultMmioTraps : Prop :=
  ∀ s : State, s.run = .running → isRam s.cfg s.pc = false → s.cfg.mmio = .default → s.cfg.abortOnIllegal = false →
    ∃ t, step s = .next t ∧ TakesTrap s t s.cfg.ecIllegal 0xFFFFFFFF#32

/-- From R29, R212: the run's state machine. A run ends only by `EXITI` or `EXIT`, with their code, or by an illegal
instruction under ABORT_ON_ILLEGAL; an ended run takes no step (the model's fault, log 11). -/
def Obligations.RunStateMachine : Prop :=
  (∀ s : State, s.run ≠ .running → step s = .fault .runEnded) ∧
  (∀ s t : State, step s = .next t →
    (t.run = .running ∨ t.run = .aborted ∨ ∃ code, t.run = .halted code) ∧
    (t.run = .aborted → s.cfg.abortOnIllegal = true ∧ ∃ e, decode s.cfg s.fetchWord = .error e) ∧
    (∀ code, t.run = .halted code →
      (∃ imm : BitVec 12, decode s.cfg s.fetchWord = .ok (.exiti imm) ∧ code = imm.signExtend 32) ∨
      (∃ rs1, decode s.cfg s.fetchWord = .ok (.exit rs1) ∧ code = s.x rs1)))

/-- From R211, R167, R185: every step of a running machine answers a next state, but for `MRET` with a misaligned `mepc`
(the spec's decision D17, log 12) and, under a host that may block, an `IOCALL` whose host never returns (log 18). -/
def Obligations.RunningMachineSteps : Prop :=
  ∀ s : State, s.run = .running →
    (∃ t, step s = .next t) ∨
    (decode s.cfg s.fetchWord = .ok .mret ∧ s.mepc &&& 3#32 ≠ 0#32 ∧ step s = .refused .mretMisaligned) ∨
    (∃ imm, decode s.cfg s.fetchWord = .ok (.iocall imm) ∧ s.cfg.host = .mayBlock ∧
      step s = .fault .hostNeverReturns)

/-- From R11: no step writes two general registers, and one that traps or stops the run writes none. -/
def Obligations.OneRegisterPerStep : Prop :=
  ∀ s t : State, step s = .next t →
    (∃ r : Reg, ∀ q, q ≠ r → t.x q = s.x q) ∧
    (t.run ≠ .running → KeepsRegs s t) ∧
    (∀ e, decode s.cfg s.fetchWord = .error e → KeepsRegs s t)

/-- From R17, R18: `mscratch` and `mtvec` change only in a CSR instruction that names them; a step never sets the low
bits of `mtvec`, so they read zero once they have been zero. -/
def Obligations.ScratchAndVectorOnlyByCsr : Prop :=
  ∀ s t : State, step s = .next t →
    (t.mscratch ≠ s.mscratch → ∃ i, decode s.cfg s.fetchWord = .ok i ∧ namesCsr 0x340#12 i = true) ∧
    (t.mtvec ≠ s.mtvec → (∃ i, decode s.cfg s.fetchWord = .ok i ∧ namesCsr 0x305#12 i = true) ∧
      t.mtvec &&& 3#32 = 0#32)

/-- From R52: RAM changes only in a step that executes a store or an `IOCALL`. -/
def Obligations.RamOnlyByStoresAndIocall : Prop :=
  ∀ s t : State, step s = .next t →
    (∃ a, t.ramByte a ≠ s.ramByte a) → ∃ i, decode s.cfg s.fetchWord = .ok i ∧ mayWriteRam i = true

/-- Every step keeps the invariant (R2's constraints, R13's alignment of `pc`, RAM in its form and inside the array, the
cell of `x0`), and no step changes the configuration (log 1). -/
def Obligations.InvariantKept : Prop :=
  ∀ s t : State, Inv s → step s = .next t → Inv t ∧ t.cfg = s.cfg

/-- The state after reset has the invariant; its `pc`, `run` and configuration are R33's, R36's and CFG0, and `x0` reads
zero (R34). (Memory and the other registers: log 3 to 5, nothing rests on them here.) -/
def Obligations.InvariantAtReset : Prop :=
  Inv State.reset ∧ State.reset.cfg = Config.cfg0 ∧ State.reset.pc = 0x80000000#32 ∧
    State.reset.run = .running ∧ State.reset.x 0#5 = 0#32

/-- From R220, R221, R37, for every configuration, every choice of the open reset values and every image: an image that
fits boots to `pc = RAM_BASE`, running, with byte `i` of the image at `RAM_BASE + i` and RESET_RAM elsewhere, and with
the invariant; an image that is too long does not boot. (`pc` and `run`: the spec's decision D7.) -/
def Obligations.BootState : Prop :=
  ∀ (c : Config) (v : ResetValues) (image : List Byte),
    (bootState c v image = none ↔ ramSize c < image.length) ∧
    (∀ s, bootState c v image = some s →
      s.cfg = c ∧ s.pc = c.ramBase ∧ s.run = .running ∧ s.regs = v.regs ∧ s.mscratch = v.mscratch ∧
      s.mtvec = v.mtvec ∧ s.mepc = v.mepc ∧ s.mcause = v.mcause ∧ s.mtval = v.mtval ∧
      (∀ (i : Nat) (h : i < image.length), c.wf = true → c.ramBase.toNat + i < 2 ^ 32 →
        s.busRead (c.ramBase + BitVec.ofNat 32 i) .byte = image[i].setWidth 32) ∧
      (∀ a : Word, image.length ≤ (ramOff c a).toNat → s.ramByte a = memGet v.ram (ramKey c a)) ∧
      (c.wf = true → v.ram.wf = true → v.regs[0] = 0#32 →
        memWithin c.ramBase.toNat (c.ramBase.toNat + ramSize c) v.ram = true → Inv s))

/-! ## Registers and memory -/

/-- R10: `x0` reads zero and discards writes; every other register returns the last value written, and writing it changes
no other. -/
def Obligations.RegisterFile : Prop :=
  ∀ (s : State) (r q : Reg) (v : Word),
    s.x 0#5 = 0#32 ∧ (s.setX 0#5 v).x q = s.x q ∧
    (r ≠ 0#5 → (s.setX r v).x r = v) ∧ (q ≠ r → (s.setX r v).x q = s.x q)

/-- Two memories in the canonical form that read alike are equal data, and writing keeps the form (log 14). -/
def Obligations.MemoryIsCanonical : Prop :=
  (∀ m m' : Memory, m.wf = true → m'.wf = true → (∀ a, memGet m a = memGet m' a) → m = m') ∧
  (∀ (m : Memory) (a : Nat) (b : Byte), m.wf = true →
    (memSet m a b).wf = true ∧ (∀ k, memGet (memSet m a b) k = if k = a then b else memGet m k) ∧
    memSet m a (memGet m a) = m)

/-! ## Encoding -/

/-- R92: decoding an encoded instruction gives it back, for every well-formed instruction and every operand, under every
permitted configuration. -/
def Obligations.DecodeEncode : Prop :=
  ∀ (c : Config) (i : Instr), c.wf = true → i.wf c = true → decode c (encode c i) = .ok i

/-- From R92, R87: a decoded instruction is well-formed, and encoding it gives the word back when the fields the
instruction ignores are zero. -/
def Obligations.EncodeDecode : Prop :=
  ∀ (c : Config) (w : Word) (i : Instr), decode c w = .ok i →
    i.wf c = true ∧ (w &&& ignoredBits i = 0#32 → encode c i = w)

/-- R80, R81, against the opcode table as data: no word is selected by two rows, and under CFG0 a word is illegal exactly
when no row selects it. (That the words outside the table are illegal rests on the spec's decisions D11 to D15 and D35,
and CFG0 is the model's choice, log 2.) -/
def Obligations.OpcodeTableDecidesLegality : Prop :=
  opcodeTable.length = 59 ∧
  (∀ w : Word, ∀ r ∈ opcodeTable, ∀ r' ∈ opcodeTable, r.selects w = true → r'.selects w = true → r = r') ∧
  (∀ w : Word, (∃ e, decode Config.cfg0 w = .error e) ↔ ∀ r ∈ opcodeTable, r.selects w = false)

/-- R73 to R77: the five immediates as the formulas over the whole word. -/
def Obligations.ImmediateFormulas : Prop :=
  ∀ w : Word,
    immVal (immIOf w) = w.sshiftRight 20 ∧
    immVal (immSOf w) = (w.sshiftRight 20 &&& 0xFFFFFFE0#32) ||| (w >>> 7 &&& 0x0000001F#32) ∧
    offsetB (immBOf w) = (w.sshiftRight 19 &&& 0xFFFFF000#32) ||| (w <<< 4 &&& 0x00000800#32)
      ||| (w >>> 20 &&& 0x000007E0#32) ||| (w >>> 7 &&& 0x0000001E#32) ∧
    immUVal (immUOf w) = w &&& 0xFFFFF000#32 ∧
    offsetJ (immJOf w) = (w.sshiftRight 11 &&& 0xFFF00000#32) ||| (w &&& 0x000FF000#32)
      ||| (w >>> 9 &&& 0x00000800#32) ||| (w >>> 20 &&& 0x000007FE#32)

/-- The worked encodings of 30_encoding.md section 7, under CFG0. -/
def Obligations.WorkedEncodings : Prop :=
  decode Config.cfg0 0x00500093#32 = .ok (.addi 1#5 0#5 5#12) ∧
  decode Config.cfg0 0x0000900B#32 = .ok (.exit 1#5) ∧
  decode Config.cfg0 0x0050000B#32 = .ok (.exiti 5#12) ∧
  decode Config.cfg0 0xFE112E23#32 = .ok (.sw 1#5 2#5 0xFFC#12) ∧
  decode Config.cfg0 0xFE000EE3#32 = .ok (.beq 0#5 0#5 0x1FFC#13) ∧
  decode Config.cfg0 0xFFDFF0EF#32 = .ok (.jal 1#5 0x1FFFFC#21) ∧
  decode Config.cfg0 0x800000B7#32 = .ok (.lui 1#5 0x80000#20) ∧
  decode Config.cfg0 0x41F35293#32 = .ok (.srai 5#5 6#5 31#5) ∧
  decode Config.cfg0 0x30529073#32 = .ok (.csrrw 0#5 0x305#12 5#5) ∧
  decode Config.cfg0 0x022081B3#32 = .ok (.mul 3#5 1#5 2#5)

/-- From R91: `LI` loads its value, for every value and every register other than `x0`, in the one or two instructions it
expands to; `CALL` goes to the sum of `pc` and the offset and links the address after its second instruction. (How a
value splits into its upper 20 and lower 12 bits in `LI` and `CALL` is the model's reading, DEDUCED: log 6.) -/
def Obligations.LoadImmediateAndCall : Prop :=
  (∀ (s t u : State) (rd : Reg) (imm : Word) (i j : Instr), rd ≠ 0#5 → expand (.li rd imm) = [i, j] →
    exec i s = .next t → exec j t = .next u → u.x rd = imm) ∧
  (∀ (s t : State) (rd : Reg) (imm : Word) (i : Instr), rd ≠ 0#5 → expand (.li rd imm) = [i] →
    exec i s = .next t → t.x rd = imm) ∧
  (∀ (s t u : State) (off : Word) (i j : Instr), expand (.call off) = [i, j] →
    (s.pc + off) &&& 3#32 = 0#32 → exec i s = .next t → exec j t = .next u →
    u.pc = s.pc + off ∧ u.x 1#5 = s.pc + 8#32)
end

