-- ==== Sys2Proof/Laws/Memory.lean ====
section
/-! SUPPORT. Laws of registers and of memory cells: read after write, what a write leaves alone, and that every
memory operation keeps the canonical form. -/

namespace Sys2Proof.Machine

/-! ## Registers (R10) -/

@[simp] theorem readReg_zero (g : Vector Word 32) : readReg g 0#5 = 0#32 := by simp [readReg]

theorem readReg_writeReg (g : Vector Word 32) (r q : Reg) (v : Word) :
    readReg (writeReg g r v) q = if q = r ∧ q ≠ 0#5 then v else readReg g q := by
  by_cases hq : q = 0#5
  · simp [hq]
  · by_cases hr : r = 0#5
    · subst hr; simp [writeReg, hq]
    · by_cases h : q = r
      · subst h; simp [readReg, writeReg, hq]
      · have : ¬ r.toNat = q.toNat := fun e => h (BitVec.eq_of_toNat_eq e.symm)
        simp [readReg, writeReg, hq, hr, h, this]

@[simp] theorem readReg_writeReg_self (g : Vector Word 32) (r : Reg) (v : Word) :
    readReg (writeReg g r v) r = if r = 0#5 then 0#32 else v := by
  rw [readReg_writeReg]; by_cases h : r = 0#5 <;> simp [h]

theorem readReg_writeReg_ne (g : Vector Word 32) {r q : Reg} (v : Word) (h : q ≠ r) :
    readReg (writeReg g r v) q = readReg g q := by
  rw [readReg_writeReg]; simp [h]

@[simp] theorem writeReg_zero_cell (g : Vector Word 32) (r : Reg) (v : Word) :
    (writeReg g r v)[0] = g[0] := by
  unfold writeReg
  split
  · rfl
  · rename_i h
    have : r.toNat ≠ 0 := fun e => h (BitVec.eq_of_toNat_eq (by simpa using e))
    exact Vector.getElem_set_ne (by simpa using r.isLt) (by omega) this

/-! ## Memory cells -/

@[simp] theorem memGet_nil (a : Nat) : memGet [] a = unwrittenByte := rfl

theorem memGet_memRemove (m : Memory) (k a : Nat) :
    memGet (memRemove m k) a = if a = k then unwrittenByte else memGet m a := by
  induction m with
  | nil => simp [memRemove]
  | cons p m ih =>
    obtain ⟨k', b⟩ := p
    by_cases h : k = k' <;> by_cases h2 : a = k' <;> simp [memRemove, memGet, h, h2, ih] <;> aesop

theorem memGet_memInsert (m : Memory) (k : Nat) (v : Byte) (a : Nat) 
    (hk : ∀ p ∈ m, p.1 ≠ k) : memGet (memInsert m k v) a = if a = k then v else memGet m a := by
  induction m with
  | nil => simp [memInsert, memGet]
  | cons p m ih =>
    obtain ⟨k', b⟩ := p
    have hne : k' ≠ k := hk (k', b) (by simp)
    have ih := ih (fun p hp => hk p (by simp [hp]))
    by_cases h : k < k' <;> simp [memInsert, memGet, h, ih]
    by_cases h2 : a = k' <;> by_cases h3 : a = k <;> simp_all

theorem memRemove_no_key (m : Memory) (k : Nat) : ∀ p ∈ memRemove m k, p.1 ≠ k := by
  induction m with
  | nil => simp [memRemove]
  | cons p m ih =>
    obtain ⟨k', b⟩ := p
    by_cases h : k = k'
    · simpa [memRemove, h] using ih
    · simp only [memRemove, h, if_false, List.mem_cons]
      rintro p (rfl | hp)
      · exact fun e => h e.symm
      · exact ih p hp

/-- Read after write, at every address and on every list. -/
theorem memGet_memSet (m : Memory) (k : Nat) (v : Byte) (a : Nat) :
    memGet (memSet m k v) a = if a = k then v else memGet m a := by
  unfold memSet
  split
  · rename_i h; rw [memGet_memRemove, h]
  · rw [memGet_memInsert _ _ _ _ (memRemove_no_key m k), memGet_memRemove]
    split <;> rfl

/-- Read after a write of successive bytes. -/
theorem memGet_memSetList (m : Memory) (k : Nat) (bs : List Byte) (a : Nat) :
    memGet (memSetList m k bs) a =
      if h : k ≤ a ∧ a - k < bs.length then bs[a - k]'h.2 else memGet m a := by
  induction bs generalizing m k with
  | nil => simp [memSetList]
  | cons b bs ih =>
    simp only [memSetList, ih, memGet_memSet, List.length_cons]
    by_cases h1 : a = k
    · subst h1; simp
    · by_cases h2 : k + 1 ≤ a
      · obtain ⟨d, rfl⟩ : ∃ d, a = k + 1 + d := ⟨a - (k + 1), by omega⟩
        have e1 : k + 1 + d - (k + 1) = d := by omega
        have e2 : k + 1 + d - k = d + 1 := by omega
        simp [e2, h1, show k ≤ k + 1 + d by omega]
      · have h3 : ¬ (k ≤ a) := by omega
        simp [h1, h2, h3]

theorem memGet_memSetList_out (m : Memory) (k : Nat) (bs : List Byte) (a : Nat)
    (h : ¬ (k ≤ a ∧ a < k + bs.length)) : memGet (memSetList m k bs) a = memGet m a := by
  rw [memGet_memSetList, dif_neg (by omega)]

/-- A byte written over is the same in both memories, any other as it was. -/
theorem memGet_memSetList_congr {m m' : Memory} (k : Nat) (bs : List Byte) {a : Nat} (h : memGet m' a = memGet m a) :
    memGet (memSetList m' k bs) a = memGet (memSetList m k bs) a := by
  rw [memGet_memSetList, memGet_memSetList]
  split
  · rfl
  · exact h

theorem memGet_memSetList_in (m : Memory) (k : Nat) (bs : List Byte) (i : Nat) (h : i < bs.length) :
    memGet (memSetList m k bs) (k + i) = bs[i] := by
  rw [memGet_memSetList, dif_pos ⟨by omega, by omega⟩]
  simp

/-! ## The canonical form -/

theorem memWfFrom_mono {lo lo' : Nat} (h : lo' ≤ lo) {m : Memory} (hm : memWfFrom lo m = true) :
    memWfFrom lo' m = true := by
  cases m with
  | nil => rfl
  | cons p m =>
    simp [memWfFrom] at hm ⊢
    exact ⟨⟨by omega, hm.1.2⟩, hm.2⟩

theorem memRemove_wf {lo : Nat} {m : Memory} (a : Nat) (hm : memWfFrom lo m = true) :
    memWfFrom lo (memRemove m a) = true := by
  induction m generalizing lo with
  | nil => rfl
  | cons p m ih =>
    obtain ⟨k, b⟩ := p
    simp [memWfFrom] at hm
    by_cases h : a = k
    · subst h
      simpa [memRemove] using memWfFrom_mono (show lo ≤ a + 1 by omega) (ih hm.2)
    · simp [memRemove, h, memWfFrom, hm, ih hm.2]

theorem memInsert_wf {lo : Nat} {m : Memory} (a : Nat) {v : Byte} (hv : v ≠ unwrittenByte) (hlo : lo ≤ a)
    (hm : memWfFrom lo m = true) (hk : ∀ p ∈ m, p.1 ≠ a) : memWfFrom lo (memInsert m a v) = true := by
  induction m generalizing lo with
  | nil => simp [memInsert, memWfFrom, hv, hlo]
  | cons p m ih =>
    obtain ⟨k, b⟩ := p
    simp [memWfFrom] at hm
    have hne : k ≠ a := hk (k, b) (by simp)
    by_cases h : a < k
    · simp [memInsert, h, memWfFrom, hv, hlo, hm, show a + 1 ≤ k from h]
    · simp [memInsert, h, memWfFrom, hm, ih (lo := k + 1) (by omega) hm.2 (fun p hp => hk p (by simp [hp]))]

theorem memSet_wf {m : Memory} (a : Nat) (v : Byte) (hm : m.wf = true) : Memory.wf (memSet m a v) = true := by
  unfold memSet
  split
  · exact memRemove_wf a hm
  · rename_i h
    exact memInsert_wf a h (Nat.zero_le a) (memRemove_wf a hm) (memRemove_no_key m a)

/-- Every memory operation keeps the canonical form: all of them are lists of byte writes. -/
theorem memSetList_wf {m : Memory} (a : Nat) (bs : List Byte) (hm : m.wf = true) :
    Memory.wf (memSetList m a bs) = true := by
  induction bs generalizing m a with
  | nil => exact hm
  | cons b bs ih => exact ih (a + 1) (memSet_wf a b hm)

theorem memRemove_within {lo hi : Nat} {m : Memory} (a : Nat) (h : memWithin lo hi m = true) :
    memWithin lo hi (memRemove m a) = true := by
  induction m with
  | nil => rfl
  | cons p m ih =>
    simp [memWithin] at h
    have ih := ih h.2
    by_cases e : a = p.1
    · simpa [memRemove, e] using e ▸ ih
    · simp [memRemove, e, memWithin, h, ih]

theorem memInsert_within {lo hi : Nat} {m : Memory} {a : Nat} (v : Byte) (ha : lo ≤ a ∧ a < hi)
    (h : memWithin lo hi m = true) : memWithin lo hi (memInsert m a v) = true := by
  induction m with
  | nil => simp [memInsert, memWithin, ha]
  | cons p m ih =>
    simp [memWithin] at h
    by_cases e : a < p.1 <;> simp [memInsert, e, memWithin, h, ha, ih h.2]

theorem memSet_within {lo hi : Nat} {m : Memory} {a : Nat} (v : Byte) (ha : lo ≤ a ∧ a < hi)
    (h : memWithin lo hi m = true) : memWithin lo hi (memSet m a v) = true := by
  unfold memSet
  split
  · exact memRemove_within a h
  · exact memInsert_within v ha (memRemove_within a h)

/-- Writes inside a range keep every listed address in it. -/
theorem memSetList_within {lo hi : Nat} {m : Memory} {a : Nat} (bs : List Byte) (ha : lo ≤ a)
    (hb : a + bs.length ≤ hi) (h : memWithin lo hi m = true) :
    memWithin lo hi (memSetList m a bs) = true := by
  induction bs generalizing m a with
  | nil => exact h
  | cons b bs ih =>
    simp only [List.length_cons] at hb
    exact ih (by omega) (by omega) (memSet_within b ⟨ha, by omega⟩ h)

end Sys2Proof.Machine
end

