-- ==== Sys2Proof/Laws/State.lean ====
section
/-! SUPPORT. One lemma per field per state update, true by rfl, so that no proof unfolds a record update. -/

namespace Sys2Proof.Machine

variable (s : State)

/-! ## setX -/

@[simp] theorem setX_cfg (r : Reg) (v : Word) : (s.setX r v).cfg = s.cfg := rfl
@[simp] theorem setX_regs (r : Reg) (v : Word) : (s.setX r v).regs = writeReg s.regs r v := rfl
@[simp] theorem setX_pc (r : Reg) (v : Word) : (s.setX r v).pc = s.pc := rfl
@[simp] theorem setX_mscratch (r : Reg) (v : Word) : (s.setX r v).mscratch = s.mscratch := rfl
@[simp] theorem setX_mtvec (r : Reg) (v : Word) : (s.setX r v).mtvec = s.mtvec := rfl
@[simp] theorem setX_mepc (r : Reg) (v : Word) : (s.setX r v).mepc = s.mepc := rfl
@[simp] theorem setX_mcause (r : Reg) (v : Word) : (s.setX r v).mcause = s.mcause := rfl
@[simp] theorem setX_mtval (r : Reg) (v : Word) : (s.setX r v).mtval = s.mtval := rfl
@[simp] theorem setX_run (r : Reg) (v : Word) : (s.setX r v).run = s.run := rfl
@[simp] theorem setX_mem (r : Reg) (v : Word) : (s.setX r v).mem = s.mem := rfl
@[simp] theorem setX_mmioLog (r : Reg) (v : Word) : (s.setX r v).mmioLog = s.mmioLog := rfl
@[simp] theorem setX_bridgeLog (r : Reg) (v : Word) : (s.setX r v).bridgeLog = s.bridgeLog := rfl
@[simp] theorem setX_ramByte (r : Reg) (v : Word) (p : Word) : (s.setX r v).ramByte p = s.ramByte p := rfl

/-! ## setPc -/

@[simp] theorem setPc_cfg (a : Word) : (s.setPc a).cfg = s.cfg := rfl
@[simp] theorem setPc_regs (a : Word) : (s.setPc a).regs = s.regs := rfl
@[simp] theorem setPc_pc (a : Word) : (s.setPc a).pc = a := rfl
@[simp] theorem setPc_mscratch (a : Word) : (s.setPc a).mscratch = s.mscratch := rfl
@[simp] theorem setPc_mtvec (a : Word) : (s.setPc a).mtvec = s.mtvec := rfl
@[simp] theorem setPc_mepc (a : Word) : (s.setPc a).mepc = s.mepc := rfl
@[simp] theorem setPc_mcause (a : Word) : (s.setPc a).mcause = s.mcause := rfl
@[simp] theorem setPc_mtval (a : Word) : (s.setPc a).mtval = s.mtval := rfl
@[simp] theorem setPc_run (a : Word) : (s.setPc a).run = s.run := rfl
@[simp] theorem setPc_mem (a : Word) : (s.setPc a).mem = s.mem := rfl
@[simp] theorem setPc_mmioLog (a : Word) : (s.setPc a).mmioLog = s.mmioLog := rfl
@[simp] theorem setPc_bridgeLog (a : Word) : (s.setPc a).bridgeLog = s.bridgeLog := rfl
@[simp] theorem setPc_x (a : Word) (q : Reg) : (s.setPc a).x q = s.x q := rfl
@[simp] theorem setPc_ramByte (a : Word) (p : Word) : (s.setPc a).ramByte p = s.ramByte p := rfl

/-! ## setRun -/

@[simp] theorem setRun_cfg (r : RunState) : (s.setRun r).cfg = s.cfg := rfl
@[simp] theorem setRun_regs (r : RunState) : (s.setRun r).regs = s.regs := rfl
@[simp] theorem setRun_pc (r : RunState) : (s.setRun r).pc = s.pc := rfl
@[simp] theorem setRun_mscratch (r : RunState) : (s.setRun r).mscratch = s.mscratch := rfl
@[simp] theorem setRun_mtvec (r : RunState) : (s.setRun r).mtvec = s.mtvec := rfl
@[simp] theorem setRun_mepc (r : RunState) : (s.setRun r).mepc = s.mepc := rfl
@[simp] theorem setRun_mcause (r : RunState) : (s.setRun r).mcause = s.mcause := rfl
@[simp] theorem setRun_mtval (r : RunState) : (s.setRun r).mtval = s.mtval := rfl
@[simp] theorem setRun_run (r : RunState) : (s.setRun r).run = r := rfl
@[simp] theorem setRun_mem (r : RunState) : (s.setRun r).mem = s.mem := rfl
@[simp] theorem setRun_mmioLog (r : RunState) : (s.setRun r).mmioLog = s.mmioLog := rfl
@[simp] theorem setRun_bridgeLog (r : RunState) : (s.setRun r).bridgeLog = s.bridgeLog := rfl
@[simp] theorem setRun_x (r : RunState) (q : Reg) : (s.setRun r).x q = s.x q := rfl
@[simp] theorem setRun_ramByte (r : RunState) (p : Word) : (s.setRun r).ramByte p = s.ramByte p := rfl

/-! ## setMem -/

@[simp] theorem setMem_cfg (m : Memory) : (s.setMem m).cfg = s.cfg := rfl
@[simp] theorem setMem_regs (m : Memory) : (s.setMem m).regs = s.regs := rfl
@[simp] theorem setMem_pc (m : Memory) : (s.setMem m).pc = s.pc := rfl
@[simp] theorem setMem_mscratch (m : Memory) : (s.setMem m).mscratch = s.mscratch := rfl
@[simp] theorem setMem_mtvec (m : Memory) : (s.setMem m).mtvec = s.mtvec := rfl
@[simp] theorem setMem_mepc (m : Memory) : (s.setMem m).mepc = s.mepc := rfl
@[simp] theorem setMem_mcause (m : Memory) : (s.setMem m).mcause = s.mcause := rfl
@[simp] theorem setMem_mtval (m : Memory) : (s.setMem m).mtval = s.mtval := rfl
@[simp] theorem setMem_run (m : Memory) : (s.setMem m).run = s.run := rfl
@[simp] theorem setMem_mem (m : Memory) : (s.setMem m).mem = m := rfl
@[simp] theorem setMem_mmioLog (m : Memory) : (s.setMem m).mmioLog = s.mmioLog := rfl
@[simp] theorem setMem_bridgeLog (m : Memory) : (s.setMem m).bridgeLog = s.bridgeLog := rfl
@[simp] theorem setMem_x (m : Memory) (q : Reg) : (s.setMem m).x q = s.x q := rfl

/-! ## halt -/

@[simp] theorem halt_cfg (c : Word) : (s.halt c).cfg = s.cfg := rfl
@[simp] theorem halt_regs (c : Word) : (s.halt c).regs = s.regs := rfl
@[simp] theorem halt_pc (c : Word) : (s.halt c).pc = s.pc := rfl
@[simp] theorem halt_mscratch (c : Word) : (s.halt c).mscratch = s.mscratch := rfl
@[simp] theorem halt_mtvec (c : Word) : (s.halt c).mtvec = s.mtvec := rfl
@[simp] theorem halt_mepc (c : Word) : (s.halt c).mepc = s.mepc := rfl
@[simp] theorem halt_mcause (c : Word) : (s.halt c).mcause = s.mcause := rfl
@[simp] theorem halt_mtval (c : Word) : (s.halt c).mtval = s.mtval := rfl
@[simp] theorem halt_run (c : Word) : (s.halt c).run = .halted c := rfl
@[simp] theorem halt_mem (c : Word) : (s.halt c).mem = s.mem := rfl
@[simp] theorem halt_mmioLog (c : Word) : (s.halt c).mmioLog = s.mmioLog := rfl
@[simp] theorem halt_bridgeLog (c : Word) : (s.halt c).bridgeLog = s.bridgeLog := rfl
@[simp] theorem halt_x (c : Word) (q : Reg) : (s.halt c).x q = s.x q := rfl
@[simp] theorem halt_ramByte (c : Word) (p : Word) : (s.halt c).ramByte p = s.ramByte p := rfl

/-! ## retired -/

@[simp] theorem retired_cfg : (s.retired).cfg = s.cfg := rfl
@[simp] theorem retired_regs : (s.retired).regs = s.regs := rfl
@[simp] theorem retired_pc : (s.retired).pc = s.pc + 4#32 := rfl
@[simp] theorem retired_mscratch : (s.retired).mscratch = s.mscratch := rfl
@[simp] theorem retired_mtvec : (s.retired).mtvec = s.mtvec := rfl
@[simp] theorem retired_mepc : (s.retired).mepc = s.mepc := rfl
@[simp] theorem retired_mcause : (s.retired).mcause = s.mcause := rfl
@[simp] theorem retired_mtval : (s.retired).mtval = s.mtval := rfl
@[simp] theorem retired_run : (s.retired).run = s.run := rfl
@[simp] theorem retired_mem : (s.retired).mem = s.mem := rfl
@[simp] theorem retired_mmioLog : (s.retired).mmioLog = s.mmioLog := rfl
@[simp] theorem retired_bridgeLog : (s.retired).bridgeLog = s.bridgeLog := rfl
@[simp] theorem retired_x (q : Reg) : (s.retired).x q = s.x q := rfl
@[simp] theorem retired_ramByte (p : Word) : (s.retired).ramByte p = s.ramByte p := rfl

/-! ## retireWith -/

@[simp] theorem retireWith_cfg (r : Reg) (v : Word) : (s.retireWith r v).cfg = s.cfg := rfl
@[simp] theorem retireWith_regs (r : Reg) (v : Word) : (s.retireWith r v).regs = writeReg s.regs r v := rfl
@[simp] theorem retireWith_pc (r : Reg) (v : Word) : (s.retireWith r v).pc = s.pc + 4#32 := rfl
@[simp] theorem retireWith_mscratch (r : Reg) (v : Word) : (s.retireWith r v).mscratch = s.mscratch := rfl
@[simp] theorem retireWith_mtvec (r : Reg) (v : Word) : (s.retireWith r v).mtvec = s.mtvec := rfl
@[simp] theorem retireWith_mepc (r : Reg) (v : Word) : (s.retireWith r v).mepc = s.mepc := rfl
@[simp] theorem retireWith_mcause (r : Reg) (v : Word) : (s.retireWith r v).mcause = s.mcause := rfl
@[simp] theorem retireWith_mtval (r : Reg) (v : Word) : (s.retireWith r v).mtval = s.mtval := rfl
@[simp] theorem retireWith_run (r : Reg) (v : Word) : (s.retireWith r v).run = s.run := rfl
@[simp] theorem retireWith_mem (r : Reg) (v : Word) : (s.retireWith r v).mem = s.mem := rfl
@[simp] theorem retireWith_mmioLog (r : Reg) (v : Word) : (s.retireWith r v).mmioLog = s.mmioLog := rfl
@[simp] theorem retireWith_bridgeLog (r : Reg) (v : Word) : (s.retireWith r v).bridgeLog = s.bridgeLog := rfl
@[simp] theorem retireWith_ramByte (r : Reg) (v : Word) (p : Word) : (s.retireWith r v).ramByte p = s.ramByte p := rfl

/-! ## afterRead -/

@[simp] theorem afterRead_cfg (a : Word) (n : Width) : (s.afterRead a n).cfg = s.cfg := rfl
@[simp] theorem afterRead_regs (a : Word) (n : Width) : (s.afterRead a n).regs = s.regs := rfl
@[simp] theorem afterRead_pc (a : Word) (n : Width) : (s.afterRead a n).pc = s.pc := rfl
@[simp] theorem afterRead_mscratch (a : Word) (n : Width) : (s.afterRead a n).mscratch = s.mscratch := rfl
@[simp] theorem afterRead_mtvec (a : Word) (n : Width) : (s.afterRead a n).mtvec = s.mtvec := rfl
@[simp] theorem afterRead_mepc (a : Word) (n : Width) : (s.afterRead a n).mepc = s.mepc := rfl
@[simp] theorem afterRead_mcause (a : Word) (n : Width) : (s.afterRead a n).mcause = s.mcause := rfl
@[simp] theorem afterRead_mtval (a : Word) (n : Width) : (s.afterRead a n).mtval = s.mtval := rfl
@[simp] theorem afterRead_run (a : Word) (n : Width) : (s.afterRead a n).run = s.run := rfl
@[simp] theorem afterRead_mem (a : Word) (n : Width) : (s.afterRead a n).mem = s.mem := rfl
@[simp] theorem afterRead_mmioLog (a : Word) (n : Width) : (s.afterRead a n).mmioLog = mmioLogAfter s a (.read a n) := rfl
@[simp] theorem afterRead_bridgeLog (a : Word) (n : Width) : (s.afterRead a n).bridgeLog = s.bridgeLog := rfl
@[simp] theorem afterRead_x (a : Word) (n : Width) (q : Reg) : (s.afterRead a n).x q = s.x q := rfl
@[simp] theorem afterRead_ramByte (a : Word) (n : Width) (p : Word) : (s.afterRead a n).ramByte p = s.ramByte p := rfl

/-! ## afterFetch -/

@[simp] theorem afterFetch_cfg : (s.afterFetch).cfg = s.cfg := rfl
@[simp] theorem afterFetch_regs : (s.afterFetch).regs = s.regs := rfl
@[simp] theorem afterFetch_pc : (s.afterFetch).pc = s.pc := rfl
@[simp] theorem afterFetch_mscratch : (s.afterFetch).mscratch = s.mscratch := rfl
@[simp] theorem afterFetch_mtvec : (s.afterFetch).mtvec = s.mtvec := rfl
@[simp] theorem afterFetch_mepc : (s.afterFetch).mepc = s.mepc := rfl
@[simp] theorem afterFetch_mcause : (s.afterFetch).mcause = s.mcause := rfl
@[simp] theorem afterFetch_mtval : (s.afterFetch).mtval = s.mtval := rfl
@[simp] theorem afterFetch_run : (s.afterFetch).run = s.run := rfl
@[simp] theorem afterFetch_mem : (s.afterFetch).mem = s.mem := rfl
@[simp] theorem afterFetch_mmioLog : (s.afterFetch).mmioLog = mmioLogAfter s s.pc (.read s.pc .word) := rfl
@[simp] theorem afterFetch_bridgeLog : (s.afterFetch).bridgeLog = s.bridgeLog := rfl
@[simp] theorem afterFetch_x (q : Reg) : (s.afterFetch).x q = s.x q := rfl
@[simp] theorem afterFetch_ramByte (p : Word) : (s.afterFetch).ramByte p = s.ramByte p := rfl

/-! ## busWrite -/

@[simp] theorem busWrite_cfg (a : Word) (n : Width) (v : Word) : (s.busWrite a n v).cfg = s.cfg := rfl
@[simp] theorem busWrite_regs (a : Word) (n : Width) (v : Word) : (s.busWrite a n v).regs = s.regs := rfl
@[simp] theorem busWrite_pc (a : Word) (n : Width) (v : Word) : (s.busWrite a n v).pc = s.pc := rfl
@[simp] theorem busWrite_mscratch (a : Word) (n : Width) (v : Word) : (s.busWrite a n v).mscratch = s.mscratch := rfl
@[simp] theorem busWrite_mtvec (a : Word) (n : Width) (v : Word) : (s.busWrite a n v).mtvec = s.mtvec := rfl
@[simp] theorem busWrite_mepc (a : Word) (n : Width) (v : Word) : (s.busWrite a n v).mepc = s.mepc := rfl
@[simp] theorem busWrite_mcause (a : Word) (n : Width) (v : Word) : (s.busWrite a n v).mcause = s.mcause := rfl
@[simp] theorem busWrite_mtval (a : Word) (n : Width) (v : Word) : (s.busWrite a n v).mtval = s.mtval := rfl
@[simp] theorem busWrite_run (a : Word) (n : Width) (v : Word) : (s.busWrite a n v).run = s.run := rfl
@[simp] theorem busWrite_mem (a : Word) (n : Width) (v : Word) : (s.busWrite a n v).mem = if isRam s.cfg a then memSetList s.mem (unitKey s.cfg a n) (leBytes v n) else s.mem := rfl
@[simp] theorem busWrite_mmioLog (a : Word) (n : Width) (v : Word) : (s.busWrite a n v).mmioLog = mmioLogAfter s a (.write a n (v &&& widthOnes n)) := rfl
@[simp] theorem busWrite_bridgeLog (a : Word) (n : Width) (v : Word) : (s.busWrite a n v).bridgeLog = s.bridgeLog := rfl
@[simp] theorem busWrite_x (a : Word) (n : Width) (v : Word) (q : Reg) : (s.busWrite a n v).x q = s.x q := rfl

/-! ## trap -/

@[simp] theorem trap_cfg (e : Exception) : (s.trap e).cfg = s.cfg := rfl
@[simp] theorem trap_regs (e : Exception) : (s.trap e).regs = s.regs := rfl
@[simp] theorem trap_pc (e : Exception) : (s.trap e).pc = clearLow2 s.mtvec := rfl
@[simp] theorem trap_mscratch (e : Exception) : (s.trap e).mscratch = s.mscratch := rfl
@[simp] theorem trap_mtvec (e : Exception) : (s.trap e).mtvec = s.mtvec := rfl
@[simp] theorem trap_mepc (e : Exception) : (s.trap e).mepc = s.pc := rfl
@[simp] theorem trap_mcause (e : Exception) : (s.trap e).mcause = causeOf s.cfg e := rfl
@[simp] theorem trap_mtval (e : Exception) : (s.trap e).mtval = mtvalOf s e := rfl
@[simp] theorem trap_run (e : Exception) : (s.trap e).run = s.run := rfl
@[simp] theorem trap_mem (e : Exception) : (s.trap e).mem = s.mem := rfl
@[simp] theorem trap_mmioLog (e : Exception) : (s.trap e).mmioLog = s.mmioLog := rfl
@[simp] theorem trap_bridgeLog (e : Exception) : (s.trap e).bridgeLog = s.bridgeLog := rfl
@[simp] theorem trap_x (e : Exception) (q : Reg) : (s.trap e).x q = s.x q := rfl
@[simp] theorem trap_ramByte (e : Exception) (p : Word) : (s.trap e).ramByte p = s.ramByte p := rfl

/-! ## csrWrite -/

@[simp] theorem csrWrite_cfg (a : CsrAddr) (v : Word) : (s.csrWrite a v).cfg = s.cfg := rfl
@[simp] theorem csrWrite_regs (a : CsrAddr) (v : Word) : (s.csrWrite a v).regs = s.regs := rfl
@[simp] theorem csrWrite_pc (a : CsrAddr) (v : Word) : (s.csrWrite a v).pc = s.pc := rfl
@[simp] theorem csrWrite_mscratch (a : CsrAddr) (v : Word) : (s.csrWrite a v).mscratch = if a = 0x340#12 then v else s.mscratch := rfl
@[simp] theorem csrWrite_mtvec (a : CsrAddr) (v : Word) : (s.csrWrite a v).mtvec = if a = 0x305#12 then clearLow2 v else s.mtvec := rfl
@[simp] theorem csrWrite_mepc (a : CsrAddr) (v : Word) : (s.csrWrite a v).mepc = if a = 0x341#12 then v else s.mepc := rfl
@[simp] theorem csrWrite_mcause (a : CsrAddr) (v : Word) : (s.csrWrite a v).mcause = if a = 0x342#12 then v else s.mcause := rfl
@[simp] theorem csrWrite_mtval (a : CsrAddr) (v : Word) : (s.csrWrite a v).mtval = if a = 0x343#12 then v else s.mtval := rfl
@[simp] theorem csrWrite_run (a : CsrAddr) (v : Word) : (s.csrWrite a v).run = s.run := rfl
@[simp] theorem csrWrite_mem (a : CsrAddr) (v : Word) : (s.csrWrite a v).mem = s.mem := rfl
@[simp] theorem csrWrite_mmioLog (a : CsrAddr) (v : Word) : (s.csrWrite a v).mmioLog = s.mmioLog := rfl
@[simp] theorem csrWrite_bridgeLog (a : CsrAddr) (v : Word) : (s.csrWrite a v).bridgeLog = s.bridgeLog := rfl
@[simp] theorem csrWrite_x (a : CsrAddr) (v : Word) (q : Reg) : (s.csrWrite a v).x q = s.x q := rfl
@[simp] theorem csrWrite_ramByte (a : CsrAddr) (v : Word) (p : Word) : (s.csrWrite a v).ramByte p = s.ramByte p := rfl

/-! ## afterBridge -/

@[simp] theorem afterBridge_cfg (c : BridgeCall) (k : BridgeKind) (h : BridgeEvent → BridgeAnswer) : (s.afterBridge c k h).cfg = s.cfg := rfl
@[simp] theorem afterBridge_regs (c : BridgeCall) (k : BridgeKind) (h : BridgeEvent → BridgeAnswer) : (s.afterBridge c k h).regs = writeReg s.regs 10#5 (bridgeResult s c k h) := rfl
@[simp] theorem afterBridge_pc (c : BridgeCall) (k : BridgeKind) (h : BridgeEvent → BridgeAnswer) : (s.afterBridge c k h).pc = s.pc := rfl
@[simp] theorem afterBridge_mscratch (c : BridgeCall) (k : BridgeKind) (h : BridgeEvent → BridgeAnswer) : (s.afterBridge c k h).mscratch = s.mscratch := rfl
@[simp] theorem afterBridge_mtvec (c : BridgeCall) (k : BridgeKind) (h : BridgeEvent → BridgeAnswer) : (s.afterBridge c k h).mtvec = s.mtvec := rfl
@[simp] theorem afterBridge_mepc (c : BridgeCall) (k : BridgeKind) (h : BridgeEvent → BridgeAnswer) : (s.afterBridge c k h).mepc = s.mepc := rfl
@[simp] theorem afterBridge_mcause (c : BridgeCall) (k : BridgeKind) (h : BridgeEvent → BridgeAnswer) : (s.afterBridge c k h).mcause = s.mcause := rfl
@[simp] theorem afterBridge_mtval (c : BridgeCall) (k : BridgeKind) (h : BridgeEvent → BridgeAnswer) : (s.afterBridge c k h).mtval = s.mtval := rfl
@[simp] theorem afterBridge_run (c : BridgeCall) (k : BridgeKind) (h : BridgeEvent → BridgeAnswer) : (s.afterBridge c k h).run = s.run := rfl
@[simp] theorem afterBridge_mem (c : BridgeCall) (k : BridgeKind) (h : BridgeEvent → BridgeAnswer) : (s.afterBridge c k h).mem = bridgeRam s c k h := rfl
@[simp] theorem afterBridge_mmioLog (c : BridgeCall) (k : BridgeKind) (h : BridgeEvent → BridgeAnswer) : (s.afterBridge c k h).mmioLog = s.mmioLog := rfl
@[simp] theorem afterBridge_bridgeLog (c : BridgeCall) (k : BridgeKind) (h : BridgeEvent → BridgeAnswer) : (s.afterBridge c k h).bridgeLog = bridgeLogAfter s c k := rfl

/-! ## A read by the bus sees the configuration, RAM and the log, nothing else -/

@[simp] theorem setPc_busRead (p a : Word) (n : Width) : (s.setPc p).busRead a n = s.busRead a n := rfl
@[simp] theorem setX_busRead (r : Reg) (v a : Word) (n : Width) : (s.setX r v).busRead a n = s.busRead a n := rfl

end Sys2Proof.Machine
end

