-- ==== Sys2Proof/Laws/Bus.lean ====
section
/-! SUPPORT. Laws of the address map and of the bus: where an aligned access lies in RAM, and what a write changes. -/

namespace Sys2Proof.Machine

/-! ## Configurations (R2) -/

theorem wf_ramBase {c : Config} (h : c.wf = true) : c.ramBase.toNat % 4 = 0 := by
  simp [Config.wf] at h; exact h.1.1.1.1

theorem wf_ramSizeLog2 {c : Config} (h : c.wf = true) : 2 ≤ c.ramSizeLog2 := by
  simp [Config.wf] at h; exact h.1.1.1.2

theorem wf_ramSize {c : Config} (h : c.wf = true) : ∃ k, ramSize c = 4 * k ∧ 0 < k := by
  refine ⟨2 ^ (c.ramSizeLog2 - 2), ?_, Nat.two_pow_pos _⟩
  have := wf_ramSizeLog2 h
  rw [ramSize, show (4 : Nat) = 2 ^ 2 from rfl, ← Nat.pow_add]
  congr 1; omega

theorem ramSize_pos (c : Config) : 0 < ramSize c := Nat.two_pow_pos _

/-! ## Widths -/

theorem widthBytes_pos (n : Width) : 0 < widthBytes n := by cases n <;> decide
theorem widthBytes_dvd_four (n : Width) : widthBytes n ∣ 4 := by cases n <;> decide
@[simp] theorem leBytes_length (v : Word) (n : Width) : (leBytes v n).length = widthBytes n := by
  cases n <;> rfl

theorem aligned_iff (n : Width) (a : Word) : aligned n a = true ↔ a.toNat % widthBytes n = 0 := by
  simp [aligned]

/-! ## Offsets (R42) -/

/-- Masking is reduction modulo `RAM_SIZE`. -/
theorem ramOff_toNat (c : Config) (a : Word) : (ramOff c a).toNat = (a - c.ramBase).toNat % ramSize c := by
  have hx := (a - c.ramBase).isLt
  simp only [ramOff, ramSize, BitVec.toNat_and, BitVec.toNat_ofNat]
  by_cases hk : c.ramSizeLog2 ≤ 32
  · have : 2 ^ c.ramSizeLog2 ≤ 2 ^ 32 := Nat.pow_le_pow_right (by omega) hk
    have hp := Nat.two_pow_pos c.ramSizeLog2
    rw [Nat.mod_eq_of_lt (by omega), Nat.and_two_pow_sub_one_eq_mod]
  · obtain ⟨d, hd⟩ : ∃ d, c.ramSizeLog2 = 32 + d := ⟨c.ramSizeLog2 - 32, by omega⟩
    have hbig : 2 ^ 32 ≤ 2 ^ c.ramSizeLog2 := Nat.pow_le_pow_right (by omega) (by omega)
    have hm : (2 ^ c.ramSizeLog2 - 1) % 2 ^ 32 = 2 ^ 32 - 1 := by
      have hp := Nat.two_pow_pos d
      rw [hd, Nat.pow_add]
      have : 2 ^ 32 * 2 ^ d - 1 = (2 ^ 32 - 1) + 2 ^ 32 * (2 ^ d - 1) := by
        rw [Nat.mul_sub]; omega
      rw [this, Nat.add_mul_mod_self_left, Nat.mod_eq_of_lt (by decide)]
    rw [hm, Nat.and_two_pow_sub_one_eq_mod, Nat.mod_eq_of_lt hx, Nat.mod_eq_of_lt (by omega)]

theorem ramOff_lt (c : Config) (a : Word) : (ramOff c a).toNat < ramSize c := by
  rw [ramOff_toNat]; exact Nat.mod_lt _ (ramSize_pos c)

theorem ramKey_range (c : Config) (a : Word) :
    c.ramBase.toNat ≤ ramKey c a ∧ ramKey c a < c.ramBase.toNat + ramSize c := by
  have := ramOff_lt c a
  simp [ramKey]; omega

/-- The unit a request names lies inside the array (R44). -/
theorem unitKey_range {c : Config} (h : c.wf = true) (a : Word) (n : Width) :
    c.ramBase.toNat ≤ unitKey c a n ∧ unitKey c a n + widthBytes n ≤ c.ramBase.toNat + ramSize c := by
  obtain ⟨k, hk, -⟩ := wf_ramSize h
  have := ramOff_lt c a
  unfold unitKey
  cases n <;> simp [widthBytes] <;> omega

theorem isRam_iff (c : Config) (a : Word) : isRam c a = true ↔ c.ramBase.toNat ≤ a.toNat := by
  simp [isRam]

theorem sub_toNat_of_isRam {c : Config} {a : Word} (h : isRam c a = true) :
    (a - c.ramBase).toNat = a.toNat - c.ramBase.toNat := by
  rw [isRam_iff] at h
  exact BitVec.toNat_sub_of_le (by simpa [BitVec.le_def] using h)

/-- The offset of an aligned address is a multiple of the access size (R44). -/
theorem ramOff_aligned {c : Config} (hc : c.wf = true) {a : Word} {n : Width} (hr : isRam c a = true)
    (ha : aligned n a = true) : (ramOff c a).toNat % widthBytes n = 0 := by
  obtain ⟨k, hk, hk0⟩ := wf_ramSize hc
  have hb := wf_ramBase hc
  have hle := (isRam_iff c a).1 hr
  rw [ramOff_toNat, sub_toNat_of_isRam hr, hk]
  rw [aligned_iff] at ha
  cases n <;> simp only [widthBytes] at ha ⊢
  · omega
  · rw [Nat.mod_mod_of_dvd _ (Dvd.intro (2 * k) (by ring))]; omega
  · rw [Nat.mod_mod_of_dvd _ (Dvd.intro k rfl)]; omega

theorem unitKey_eq_ramKey {c : Config} (hc : c.wf = true) {a : Word} {n : Width} (hr : isRam c a = true)
    (ha : aligned n a = true) : unitKey c a n = ramKey c a := by
  have := ramOff_aligned hc hr ha
  simp only [unitKey, ramKey]
  congr 1
  exact Nat.div_mul_cancel (Nat.dvd_of_mod_eq_zero this)

/-- The `i`-th address of an aligned access does not wrap. -/
theorem aligned_add_toNat {a : Word} {n : Width} (ha : aligned n a = true) {i : Nat} (hi : i < widthBytes n) :
    (a + BitVec.ofNat 32 i).toNat = a.toNat + i := by
  have := a.isLt
  rw [aligned_iff] at ha
  rw [BitVec.toNat_add, BitVec.toNat_ofNat]
  cases n <;> simp only [widthBytes] at ha hi <;> omega

/-- The `i`-th byte of an aligned access is the `i`-th cell after its first (R42, R44). -/
theorem ramKey_add {c : Config} (hc : c.wf = true) {a : Word} {n : Width} (hr : isRam c a = true)
    (ha : aligned n a = true) {i : Nat} (hi : i < widthBytes n) :
    ramKey c (a + BitVec.ofNat 32 i) = unitKey c a n + i := by
  obtain ⟨k, hk, hk0⟩ := wf_ramSize hc
  have hadd := aligned_add_toNat ha hi
  have hle := (isRam_iff c a).1 hr
  have hr' : isRam c (a + BitVec.ofNat 32 i) = true := by rw [isRam_iff, hadd]; omega
  have hoff := ramOff_aligned hc hr ha
  rw [unitKey_eq_ramKey hc hr ha]
  rw [ramOff_toNat, sub_toNat_of_isRam hr] at hoff
  simp only [ramKey, ramOff_toNat, sub_toNat_of_isRam hr, sub_toNat_of_isRam hr', hadd]
  rw [show a.toNat + i - c.ramBase.toNat = (a.toNat - c.ramBase.toNat) + i by omega]
  have hlt := Nat.mod_lt (a.toNat - c.ramBase.toNat) (ramSize_pos c)
  have : (a.toNat - c.ramBase.toNat) % ramSize c + i < ramSize c := by
    rw [hk] at hlt hoff ⊢
    cases n <;> simp only [widthBytes] at hoff hi <;> omega
  rw [Nat.add_mod, Nat.mod_eq_of_lt (show i < ramSize c by omega), Nat.mod_eq_of_lt this]
  omega

/-! ## What a write changes (R45) -/

/-- A byte after a bus write: one of the written bytes, or as before. -/
theorem busWrite_memGet (s : State) (a : Word) (n : Width) (v : Word) (k : Nat) :
    memGet (s.busWrite a n v).mem k =
      if h : isRam s.cfg a = true ∧ unitKey s.cfg a n ≤ k ∧ k - unitKey s.cfg a n < widthBytes n then
        (leBytes v n)[k - unitKey s.cfg a n]'(by simpa using h.2.2)
      else memGet s.mem k := by
  by_cases hr : isRam s.cfg a = true <;> simp [hr, memGet_memSetList]

theorem busWrite_ramByte_out (s : State) (a : Word) (n : Width) (v p : Word)
    (h : ¬ (isRam s.cfg a = true ∧ unitKey s.cfg a n ≤ ramKey s.cfg p ∧
      ramKey s.cfg p < unitKey s.cfg a n + widthBytes n)) :
    (s.busWrite a n v).ramByte p = s.ramByte p := by
  simp only [State.ramByte, busWrite_cfg, busWrite_memGet]
  rw [dif_neg (fun h' => h ⟨h'.1, h'.2.1, by omega⟩)]

theorem leBytes_getElem (v : Word) (n : Width) (i : Nat) (h : i < widthBytes n) :
    (leBytes v n)[i]'(by simpa using h) = v.extractLsb' (8 * i) 8 := by
  cases n <;> simp only [widthBytes] at h <;> interval_cases i <;> rfl

/-- The bytes an aligned write leaves, little-endian (R43, R45). -/
theorem busWrite_ramByte_in {s : State} (hc : s.cfg.wf = true) {a : Word} {n : Width} (v : Word)
    (hr : isRam s.cfg a = true) (ha : aligned n a = true) {i : Nat} (hi : i < widthBytes n) :
    (s.busWrite a n v).ramByte (a + BitVec.ofNat 32 i) = v.extractLsb' (8 * i) 8 := by
  simp only [State.ramByte, busWrite_cfg, busWrite_memGet, ramKey_add hc hr ha hi]
  rw [dif_pos ⟨hr, by omega, by omega⟩]
  simp only [Nat.add_sub_cancel_left]
  exact leBytes_getElem v n i hi

/-- A bus write keeps the canonical form. -/
theorem busWrite_wf {s : State} (a : Word) (n : Width) (v : Word) (h : s.mem.wf = true) :
    Memory.wf (s.busWrite a n v).mem = true := by
  simp only [busWrite_mem]
  split
  · exact memSetList_wf _ _ h
  · exact h

/-- A bus write stays inside RAM. -/
theorem busWrite_within {s : State} (hc : s.cfg.wf = true) (a : Word) (n : Width) (v : Word)
    (h : memWithin s.cfg.ramBase.toNat (s.cfg.ramBase.toNat + ramSize s.cfg) s.mem = true) :
    memWithin s.cfg.ramBase.toNat (s.cfg.ramBase.toNat + ramSize s.cfg) (s.busWrite a n v).mem = true := by
  have hu := unitKey_range hc a n
  simp only [busWrite_mem]
  split
  · exact memSetList_within _ hu.1 (by simpa using hu.2) h
  · exact h

/-! ## What a read gives (R44, R46) -/

theorem busRead_mmio {s : State} {a : Word} (n : Width) (h : isRam s.cfg a = false) :
    s.busRead a n = mmioValue s a n := by simp [State.busRead, h]

theorem busRead_ram {s : State} {a : Word} (n : Width) (h : isRam s.cfg a = true) :
    s.busRead a n = readUnit s.mem (unitKey s.cfg a n) n := by simp [State.busRead, h]

/-- A RAM read leaves the state as it was. -/
theorem afterRead_ram {s : State} {a : Word} (n : Width) (h : isRam s.cfg a = true) : s.afterRead a n = s := by
  simp [State.afterRead, mmioLogAfter, h]

/-- With the default device every read leaves the state as it was (R46). -/
theorem afterRead_default {s : State} (a : Word) (n : Width) (h : s.cfg.mmio = .default) : s.afterRead a n = s := by
  simp [State.afterRead, mmioLogAfter, h]

/-- Reading back what was just written to RAM. -/
theorem busRead_busWrite_word {s : State} {a : Word} (v : Word) (hr : isRam s.cfg a = true) :
    (s.busWrite a .word v).busRead a .word = v := by
  have h : ∀ i, i < 4 → memGet (s.busWrite a .word v).mem (unitKey s.cfg a .word + i) = v.extractLsb' (8 * i) 8 := by
    intro i hi
    rw [busWrite_memGet, dif_pos ⟨hr, by omega, by simp [widthBytes]; omega⟩]
    simp only [Nat.add_sub_cancel_left]
    exact leBytes_getElem v .word i hi
  have h0 := h 0 (by omega)
  rw [busRead_ram _ (by simpa using hr)]
  simp only [readUnit, busWrite_cfg, h 1 (by omega), h 2 (by omega), h 3 (by omega), Nat.add_zero] at h0 ⊢
  rw [h0]
  ext i hi
  simp only [BitVec.getElem_append, BitVec.getElem_extractLsb']
  split
  · simp [BitVec.getLsbD_eq_getElem, hi]
  · split
    · simp [BitVec.getLsbD_eq_getElem, show 8 + (i - 8) = i by omega, hi]
    · split
      · simp [BitVec.getLsbD_eq_getElem, show 16 + (i - 8 - 8) = i by omega, hi]
      · simp [BitVec.getLsbD_eq_getElem, show 24 + (i - 8 - 8 - 8) = i by omega, hi]

theorem aligned_byte (a : Word) : aligned .byte a = true := by
  rw [aligned_iff]; simp [widthBytes, Nat.mod_one]

/-- Reads as the bytes they are made of (R43, R44). -/
theorem busRead_byte_eq {s : State} (hc : s.cfg.wf = true) {a : Word} (hr : isRam s.cfg a = true) :
    s.busRead a .byte = (s.ramByte a).setWidth 32 := by
  rw [busRead_ram _ hr, unitKey_eq_ramKey hc hr (aligned_byte a)]; rfl

theorem ramByte_unit {s : State} (hc : s.cfg.wf = true) {a : Word} {n : Width} (hr : isRam s.cfg a = true)
    (ha : aligned n a = true) {i : Nat} (hi : i < widthBytes n) :
    s.ramByte (a + BitVec.ofNat 32 i) = memGet s.mem (unitKey s.cfg a n + i) := by
  rw [State.ramByte, ramKey_add hc hr ha hi]

theorem busRead_half_eq {s : State} (hc : s.cfg.wf = true) {a : Word} (hr : isRam s.cfg a = true)
    (ha : aligned .half a = true) : s.busRead a .half = (s.ramByte (a + 1#32) ++ s.ramByte a).setWidth 32 := by
  have h0 := ramByte_unit hc hr ha (i := 0) (by decide)
  have h1 := ramByte_unit hc hr ha (i := 1) (by decide)
  simp only [BitVec.add_zero, Nat.add_zero] at h0 h1
  rw [busRead_ram _ hr, h0, h1]; rfl

theorem busRead_word_eq {s : State} (hc : s.cfg.wf = true) {a : Word} (hr : isRam s.cfg a = true)
    (ha : aligned .word a = true) : s.busRead a .word =
      s.ramByte (a + 3#32) ++ s.ramByte (a + 2#32) ++ s.ramByte (a + 1#32) ++ s.ramByte a := by
  have h0 := ramByte_unit hc hr ha (i := 0) (by decide)
  have h1 := ramByte_unit hc hr ha (i := 1) (by decide)
  have h2 := ramByte_unit hc hr ha (i := 2) (by decide)
  have h3 := ramByte_unit hc hr ha (i := 3) (by decide)
  simp only [BitVec.add_zero, Nat.add_zero] at h0 h1 h2 h3
  rw [busRead_ram _ hr, h0, h1, h2, h3]; rfl

theorem isRam_add {c : Config} {a : Word} {n : Width} (hr : isRam c a = true) (ha : aligned n a = true)
    {i : Nat} (hi : i < widthBytes n) : isRam c (a + BitVec.ofNat 32 i) = true := by
  rw [isRam_iff] at *; rw [aligned_add_toNat ha hi]; omega

/-- A read of the unit just written. -/
theorem busRead_busWrite_self {s : State} {a : Word} (n : Width) (v : Word) (hr : isRam s.cfg a = true) :
    (s.busWrite a n v).busRead a n = v &&& widthOnes n := by
  have h : ∀ i, i < widthBytes n → memGet (s.busWrite a n v).mem (unitKey s.cfg a n + i) = v.extractLsb' (8 * i) 8 := by
    intro i hi
    rw [busWrite_memGet, dif_pos ⟨hr, by omega, by omega⟩]
    simp only [Nat.add_sub_cancel_left]
    exact leBytes_getElem v n i hi
  cases n with
  | word => rw [busRead_busWrite_word v hr]; exact BitVec.and_allOnes.symm
  | byte =>
    have h0 := h 0 (by decide)
    rw [busRead_ram _ (by simpa using hr)]
    simp only [readUnit, busWrite_cfg, Nat.add_zero] at h0 ⊢
    rw [h0]
    refine BitVec.eq_of_getLsbD_eq fun i hi => ?_
    simp only [widthOnes, BitVec.getLsbD_setWidth, BitVec.getLsbD_extractLsb', BitVec.getLsbD_and]
    interval_cases i <;> simp
  | half =>
    have h0 := h 0 (by decide)
    rw [busRead_ram _ (by simpa using hr)]
    simp only [readUnit, busWrite_cfg, Nat.add_zero, h 1 (by decide)] at h0 ⊢
    rw [h0]
    refine BitVec.eq_of_getLsbD_eq fun i hi => ?_
    simp only [widthOnes, BitVec.getLsbD_setWidth, BitVec.getLsbD_extractLsb', BitVec.getLsbD_and, BitVec.getLsbD_append]
    interval_cases i <;> simp

end Sys2Proof.Machine
end

