-- ==== Sys2Proof/Laws/Encoding.lean ====
section
/-! SUPPORT. The fields of an encoded word are the fields it was built from (spec/30_encoding.md R71, R72), and a word is
rebuilt from its fields. -/

namespace Sys2Proof

/-- A field read out of a concatenation, bit by bit. -/
theorem field_ext {n : Nat} {x y : BitVec n} (h : ∀ i, i < n → x.getLsbD i = y.getLsbD i) : x = y :=
  BitVec.eq_of_getLsbD_eq h

/-! ## encR -/

@[simp] theorem opcodeOf_encR (f7 : BitVec 7) (r2 r1 : Reg) (f3 : BitVec 3) (rd : Reg) (op : BitVec 7) : opcodeOf (encR f7 r2 r1 f3 rd op) = op := by
  refine field_ext fun i hi => ?_
  simp only [opcodeOf, encR, BitVec.getLsbD_extractLsb', BitVec.getLsbD_append]
  interval_cases i <;> simp

@[simp] theorem rdOf_encR (f7 : BitVec 7) (r2 r1 : Reg) (f3 : BitVec 3) (rd : Reg) (op : BitVec 7) : rdOf (encR f7 r2 r1 f3 rd op) = rd := by
  refine field_ext fun i hi => ?_
  simp only [rdOf, encR, BitVec.getLsbD_extractLsb', BitVec.getLsbD_append]
  interval_cases i <;> simp

@[simp] theorem funct3Of_encR (f7 : BitVec 7) (r2 r1 : Reg) (f3 : BitVec 3) (rd : Reg) (op : BitVec 7) : funct3Of (encR f7 r2 r1 f3 rd op) = f3 := by
  refine field_ext fun i hi => ?_
  simp only [funct3Of, encR, BitVec.getLsbD_extractLsb', BitVec.getLsbD_append]
  interval_cases i <;> simp

@[simp] theorem rs1Of_encR (f7 : BitVec 7) (r2 r1 : Reg) (f3 : BitVec 3) (rd : Reg) (op : BitVec 7) : rs1Of (encR f7 r2 r1 f3 rd op) = r1 := by
  refine field_ext fun i hi => ?_
  simp only [rs1Of, encR, BitVec.getLsbD_extractLsb', BitVec.getLsbD_append]
  interval_cases i <;> simp

@[simp] theorem rs2Of_encR (f7 : BitVec 7) (r2 r1 : Reg) (f3 : BitVec 3) (rd : Reg) (op : BitVec 7) : rs2Of (encR f7 r2 r1 f3 rd op) = r2 := by
  refine field_ext fun i hi => ?_
  simp only [rs2Of, encR, BitVec.getLsbD_extractLsb', BitVec.getLsbD_append]
  interval_cases i <;> simp

@[simp] theorem funct7Of_encR (f7 : BitVec 7) (r2 r1 : Reg) (f3 : BitVec 3) (rd : Reg) (op : BitVec 7) : funct7Of (encR f7 r2 r1 f3 rd op) = f7 := by
  refine field_ext fun i hi => ?_
  simp only [funct7Of, encR, BitVec.getLsbD_extractLsb', BitVec.getLsbD_append]
  interval_cases i <;> simp

@[simp] theorem shamtOf_encR (f7 : BitVec 7) (r2 r1 : Reg) (f3 : BitVec 3) (rd : Reg) (op : BitVec 7) : shamtOf (encR f7 r2 r1 f3 rd op) = r2 := by
  refine field_ext fun i hi => ?_
  simp only [shamtOf, encR, BitVec.getLsbD_extractLsb', BitVec.getLsbD_append]
  interval_cases i <;> simp

/-! ## encI -/

@[simp] theorem opcodeOf_encI (imm : BitVec 12) (r1 : Reg) (f3 : BitVec 3) (rd : Reg) (op : BitVec 7) : opcodeOf (encI imm r1 f3 rd op) = op := by
  refine field_ext fun i hi => ?_
  simp only [opcodeOf, encI, BitVec.getLsbD_extractLsb', BitVec.getLsbD_append]
  interval_cases i <;> simp

@[simp] theorem rdOf_encI (imm : BitVec 12) (r1 : Reg) (f3 : BitVec 3) (rd : Reg) (op : BitVec 7) : rdOf (encI imm r1 f3 rd op) = rd := by
  refine field_ext fun i hi => ?_
  simp only [rdOf, encI, BitVec.getLsbD_extractLsb', BitVec.getLsbD_append]
  interval_cases i <;> simp

@[simp] theorem funct3Of_encI (imm : BitVec 12) (r1 : Reg) (f3 : BitVec 3) (rd : Reg) (op : BitVec 7) : funct3Of (encI imm r1 f3 rd op) = f3 := by
  refine field_ext fun i hi => ?_
  simp only [funct3Of, encI, BitVec.getLsbD_extractLsb', BitVec.getLsbD_append]
  interval_cases i <;> simp

@[simp] theorem rs1Of_encI (imm : BitVec 12) (r1 : Reg) (f3 : BitVec 3) (rd : Reg) (op : BitVec 7) : rs1Of (encI imm r1 f3 rd op) = r1 := by
  refine field_ext fun i hi => ?_
  simp only [rs1Of, encI, BitVec.getLsbD_extractLsb', BitVec.getLsbD_append]
  interval_cases i <;> simp

@[simp] theorem uimmOf_encI (imm : BitVec 12) (r1 : Reg) (f3 : BitVec 3) (rd : Reg) (op : BitVec 7) : uimmOf (encI imm r1 f3 rd op) = r1 := by
  refine field_ext fun i hi => ?_
  simp only [uimmOf, encI, BitVec.getLsbD_extractLsb', BitVec.getLsbD_append]
  interval_cases i <;> simp

@[simp] theorem immIOf_encI (imm : BitVec 12) (r1 : Reg) (f3 : BitVec 3) (rd : Reg) (op : BitVec 7) : immIOf (encI imm r1 f3 rd op) = imm := by
  refine field_ext fun i hi => ?_
  simp only [immIOf, encI, BitVec.getLsbD_extractLsb', BitVec.getLsbD_append]
  interval_cases i <;> simp

@[simp] theorem csrOf_encI (imm : BitVec 12) (r1 : Reg) (f3 : BitVec 3) (rd : Reg) (op : BitVec 7) : csrOf (encI imm r1 f3 rd op) = imm := by
  refine field_ext fun i hi => ?_
  simp only [csrOf, encI, BitVec.getLsbD_extractLsb', BitVec.getLsbD_append]
  interval_cases i <;> simp

/-! ## encS -/

@[simp] theorem opcodeOf_encS (imm : BitVec 12) (r2 r1 : Reg) (f3 : BitVec 3) (op : BitVec 7) : opcodeOf (encS imm r2 r1 f3 op) = op := by
  refine field_ext fun i hi => ?_
  simp only [opcodeOf, encS, BitVec.getLsbD_extractLsb', BitVec.getLsbD_append]
  interval_cases i <;> simp

@[simp] theorem funct3Of_encS (imm : BitVec 12) (r2 r1 : Reg) (f3 : BitVec 3) (op : BitVec 7) : funct3Of (encS imm r2 r1 f3 op) = f3 := by
  refine field_ext fun i hi => ?_
  simp only [funct3Of, encS, BitVec.getLsbD_extractLsb', BitVec.getLsbD_append]
  interval_cases i <;> simp

@[simp] theorem rs1Of_encS (imm : BitVec 12) (r2 r1 : Reg) (f3 : BitVec 3) (op : BitVec 7) : rs1Of (encS imm r2 r1 f3 op) = r1 := by
  refine field_ext fun i hi => ?_
  simp only [rs1Of, encS, BitVec.getLsbD_extractLsb', BitVec.getLsbD_append]
  interval_cases i <;> simp

@[simp] theorem rs2Of_encS (imm : BitVec 12) (r2 r1 : Reg) (f3 : BitVec 3) (op : BitVec 7) : rs2Of (encS imm r2 r1 f3 op) = r2 := by
  refine field_ext fun i hi => ?_
  simp only [rs2Of, encS, BitVec.getLsbD_extractLsb', BitVec.getLsbD_append]
  interval_cases i <;> simp

@[simp] theorem immSOf_encS (imm : BitVec 12) (r2 r1 : Reg) (f3 : BitVec 3) (op : BitVec 7) : immSOf (encS imm r2 r1 f3 op) = imm := by
  refine field_ext fun i hi => ?_
  simp only [immSOf, encS, BitVec.getLsbD_extractLsb', BitVec.getLsbD_append]
  interval_cases i <;> simp

/-! ## encB -/

@[simp] theorem opcodeOf_encB (imm : BitVec 13) (r2 r1 : Reg) (f3 : BitVec 3) (op : BitVec 7) : opcodeOf (encB imm r2 r1 f3 op) = op := by
  refine field_ext fun i hi => ?_
  simp only [opcodeOf, encB, BitVec.getLsbD_extractLsb', BitVec.getLsbD_append]
  interval_cases i <;> simp

@[simp] theorem funct3Of_encB (imm : BitVec 13) (r2 r1 : Reg) (f3 : BitVec 3) (op : BitVec 7) : funct3Of (encB imm r2 r1 f3 op) = f3 := by
  refine field_ext fun i hi => ?_
  simp only [funct3Of, encB, BitVec.getLsbD_extractLsb', BitVec.getLsbD_append]
  interval_cases i <;> simp

@[simp] theorem rs1Of_encB (imm : BitVec 13) (r2 r1 : Reg) (f3 : BitVec 3) (op : BitVec 7) : rs1Of (encB imm r2 r1 f3 op) = r1 := by
  refine field_ext fun i hi => ?_
  simp only [rs1Of, encB, BitVec.getLsbD_extractLsb', BitVec.getLsbD_append]
  interval_cases i <;> simp

@[simp] theorem rs2Of_encB (imm : BitVec 13) (r2 r1 : Reg) (f3 : BitVec 3) (op : BitVec 7) : rs2Of (encB imm r2 r1 f3 op) = r2 := by
  refine field_ext fun i hi => ?_
  simp only [rs2Of, encB, BitVec.getLsbD_extractLsb', BitVec.getLsbD_append]
  interval_cases i <;> simp

/-! ## encU -/

@[simp] theorem opcodeOf_encU (imm : BitVec 20) (rd : Reg) (op : BitVec 7) : opcodeOf (encU imm rd op) = op := by
  refine field_ext fun i hi => ?_
  simp only [opcodeOf, encU, BitVec.getLsbD_extractLsb', BitVec.getLsbD_append]
  interval_cases i <;> simp

@[simp] theorem rdOf_encU (imm : BitVec 20) (rd : Reg) (op : BitVec 7) : rdOf (encU imm rd op) = rd := by
  refine field_ext fun i hi => ?_
  simp only [rdOf, encU, BitVec.getLsbD_extractLsb', BitVec.getLsbD_append]
  interval_cases i <;> simp

@[simp] theorem immUOf_encU (imm : BitVec 20) (rd : Reg) (op : BitVec 7) : immUOf (encU imm rd op) = imm := by
  refine field_ext fun i hi => ?_
  simp only [immUOf, encU, BitVec.getLsbD_extractLsb', BitVec.getLsbD_append]
  interval_cases i <;> simp

/-! ## encJ -/

@[simp] theorem opcodeOf_encJ (imm : BitVec 21) (rd : Reg) (op : BitVec 7) : opcodeOf (encJ imm rd op) = op := by
  refine field_ext fun i hi => ?_
  simp only [opcodeOf, encJ, BitVec.getLsbD_extractLsb', BitVec.getLsbD_append]
  interval_cases i <;> simp

@[simp] theorem rdOf_encJ (imm : BitVec 21) (rd : Reg) (op : BitVec 7) : rdOf (encJ imm rd op) = rd := by
  refine field_ext fun i hi => ?_
  simp only [rdOf, encJ, BitVec.getLsbD_extractLsb', BitVec.getLsbD_append]
  interval_cases i <;> simp

/-- R75: every even offset is assembled back. -/
theorem immBOf_encB {imm : BitVec 13} (h : imm.getLsbD 0 = false) (r2 r1 : Reg) (f3 : BitVec 3) (op : BitVec 7) :
    immBOf (encB imm r2 r1 f3 op) = imm := by
  refine field_ext fun i hi => ?_
  simp only [immBOf, encB, BitVec.getLsbD_extractLsb', BitVec.getLsbD_append]
  interval_cases i <;> first | (simp; done) | simpa using h

/-- R77: every even offset is assembled back. -/
theorem immJOf_encJ {imm : BitVec 21} (h : imm.getLsbD 0 = false) (rd : Reg) (op : BitVec 7) :
    immJOf (encJ imm rd op) = imm := by
  refine field_ext fun i hi => ?_
  simp only [immJOf, encJ, BitVec.getLsbD_extractLsb', BitVec.getLsbD_append]
  interval_cases i <;> first | (simp; done) | simpa using h

/-! ## Masked words (R80) -/

theorem mask_opcode (w : Word) (o : BitVec 7) : w &&& 0x7F#32 = 0#25 ++ o ↔ opcodeOf w = o := by
  constructor
  · intro h
    have h2 : opcodeOf (w &&& 0x7F#32) = opcodeOf (0#25 ++ o) := by rw [h]
    have e1 : opcodeOf (w &&& 0x7F#32) = opcodeOf w := by
      refine field_ext fun i hi => ?_
      simp only [opcodeOf, BitVec.getLsbD_extractLsb', BitVec.getLsbD_and]
      interval_cases i <;> simp
    have e2 : opcodeOf (0#25 ++ o) = o := by
      refine field_ext fun i hi => ?_
      simp only [opcodeOf, BitVec.getLsbD_extractLsb', BitVec.getLsbD_append]
      interval_cases i <;> simp
    rw [← e1, h2, e2]
  · rintro rfl
    refine field_ext fun i hi => ?_
    simp only [opcodeOf, BitVec.getLsbD_extractLsb', BitVec.getLsbD_append, BitVec.getLsbD_and]
    interval_cases i <;> simp

theorem mask_funct3 (w : Word) (f : BitVec 3) (o : BitVec 7) :
    w &&& 0x707F#32 = 0#17 ++ f ++ 0#5 ++ o ↔ opcodeOf w = o ∧ funct3Of w = f := by
  constructor
  · intro h
    have e1 : opcodeOf (w &&& 0x707F#32) = opcodeOf w := by
      refine field_ext fun i hi => ?_
      simp only [opcodeOf, BitVec.getLsbD_extractLsb', BitVec.getLsbD_and]
      interval_cases i <;> simp
    have e2 : opcodeOf (0#17 ++ f ++ 0#5 ++ o) = o := by
      refine field_ext fun i hi => ?_
      simp only [opcodeOf, BitVec.getLsbD_extractLsb', BitVec.getLsbD_append]
      interval_cases i <;> simp
    have e3 : funct3Of (w &&& 0x707F#32) = funct3Of w := by
      refine field_ext fun i hi => ?_
      simp only [funct3Of, BitVec.getLsbD_extractLsb', BitVec.getLsbD_and]
      interval_cases i <;> simp
    have e4 : funct3Of (0#17 ++ f ++ 0#5 ++ o) = f := by
      refine field_ext fun i hi => ?_
      simp only [funct3Of, BitVec.getLsbD_extractLsb', BitVec.getLsbD_append]
      interval_cases i <;> simp
    exact ⟨by rw [← e1, h, e2], by rw [← e3, h, e4]⟩
  · rintro ⟨rfl, rfl⟩
    refine field_ext fun i hi => ?_
    simp only [opcodeOf, funct3Of, BitVec.getLsbD_extractLsb', BitVec.getLsbD_append, BitVec.getLsbD_and]
    interval_cases i <;> simp

theorem mask_funct7 (w : Word) (g : BitVec 7) (f : BitVec 3) (o : BitVec 7) :
    w &&& 0xFE00707F#32 = g ++ 0#10 ++ f ++ 0#5 ++ o ↔ opcodeOf w = o ∧ funct3Of w = f ∧ funct7Of w = g := by
  constructor
  · intro h
    have e1 : opcodeOf (w &&& 0xFE00707F#32) = opcodeOf w := by
      refine field_ext fun i hi => ?_
      simp only [opcodeOf, BitVec.getLsbD_extractLsb', BitVec.getLsbD_and]
      interval_cases i <;> simp
    have e2 : opcodeOf (g ++ 0#10 ++ f ++ 0#5 ++ o) = o := by
      refine field_ext fun i hi => ?_
      simp only [opcodeOf, BitVec.getLsbD_extractLsb', BitVec.getLsbD_append]
      interval_cases i <;> simp
    have e3 : funct3Of (w &&& 0xFE00707F#32) = funct3Of w := by
      refine field_ext fun i hi => ?_
      simp only [funct3Of, BitVec.getLsbD_extractLsb', BitVec.getLsbD_and]
      interval_cases i <;> simp
    have e4 : funct3Of (g ++ 0#10 ++ f ++ 0#5 ++ o) = f := by
      refine field_ext fun i hi => ?_
      simp only [funct3Of, BitVec.getLsbD_extractLsb', BitVec.getLsbD_append]
      interval_cases i <;> simp
    have e5 : funct7Of (w &&& 0xFE00707F#32) = funct7Of w := by
      refine field_ext fun i hi => ?_
      simp only [funct7Of, BitVec.getLsbD_extractLsb', BitVec.getLsbD_and]
      interval_cases i <;> simp
    have e6 : funct7Of (g ++ 0#10 ++ f ++ 0#5 ++ o) = g := by
      refine field_ext fun i hi => ?_
      simp only [funct7Of, BitVec.getLsbD_extractLsb', BitVec.getLsbD_append]
      interval_cases i <;> simp
    exact ⟨by rw [← e1, h, e2], by rw [← e3, h, e4], by rw [← e5, h, e6]⟩
  · rintro ⟨rfl, rfl, rfl⟩
    refine field_ext fun i hi => ?_
    simp only [opcodeOf, funct3Of, funct7Of, BitVec.getLsbD_extractLsb', BitVec.getLsbD_append, BitVec.getLsbD_and]
    interval_cases i <;> simp

/-! ## A word is rebuilt from its fields -/

theorem encR_fields (w : Word) : encR (funct7Of w) (rs2Of w) (rs1Of w) (funct3Of w) (rdOf w) (opcodeOf w) = w := by
  refine field_ext fun i hi => ?_
  simp only [encR, funct7Of, rs2Of, rs1Of, funct3Of, rdOf, opcodeOf, BitVec.getLsbD_extractLsb', BitVec.getLsbD_append]
  interval_cases i <;> simp

theorem encI_fields (w : Word) : encI (immIOf w) (rs1Of w) (funct3Of w) (rdOf w) (opcodeOf w) = w := by
  refine field_ext fun i hi => ?_
  simp only [encI, rs1Of, funct3Of, rdOf, opcodeOf, immIOf, BitVec.getLsbD_extractLsb', BitVec.getLsbD_append]
  interval_cases i <;> simp

theorem encS_fields (w : Word) : encS (immSOf w) (rs2Of w) (rs1Of w) (funct3Of w) (opcodeOf w) = w := by
  refine field_ext fun i hi => ?_
  simp only [encS, rs2Of, rs1Of, funct3Of, opcodeOf, immSOf, BitVec.getLsbD_extractLsb', BitVec.getLsbD_append]
  interval_cases i <;> simp

theorem encB_fields (w : Word) : encB (immBOf w) (rs2Of w) (rs1Of w) (funct3Of w) (opcodeOf w) = w := by
  refine field_ext fun i hi => ?_
  simp only [encB, rs2Of, rs1Of, funct3Of, opcodeOf, immBOf, BitVec.getLsbD_extractLsb', BitVec.getLsbD_append]
  interval_cases i <;> simp

theorem encU_fields (w : Word) : encU (immUOf w) (rdOf w) (opcodeOf w) = w := by
  refine field_ext fun i hi => ?_
  simp only [encU, rdOf, opcodeOf, immUOf, BitVec.getLsbD_extractLsb', BitVec.getLsbD_append]
  interval_cases i <;> simp

theorem encJ_fields (w : Word) : encJ (immJOf w) (rdOf w) (opcodeOf w) = w := by
  refine field_ext fun i hi => ?_
  simp only [encJ, rdOf, opcodeOf, immJOf, BitVec.getLsbD_extractLsb', BitVec.getLsbD_append]
  interval_cases i <;> simp

end Sys2Proof
end

