-- ==== Sys2Proof/Laws/Decode.lean ====
section
/-! SUPPORT. What each part of the decoder answers: a decoded instruction is well-formed and encodes to the word it came from
(spec/30_encoding.md R80, R92), one lemma per major opcode. -/

namespace Sys2Proof

/-- The instruction is well-formed and stands for exactly this word. -/
def Stands (c : Config) (w : Word) (i : Instr) : Prop := i.wf c = true ∧ encode c i = w

theorem evenB_immBOf (w : Word) : evenB (immBOf w) = true := by
  simp only [evenB, immBOf, BitVec.getLsbD_append]; simp

theorem evenJ_immJOf (w : Word) : evenJ (immJOf w) = true := by
  simp only [evenJ, immJOf, BitVec.getLsbD_append]; simp

variable {c : Config} {w : Word} {i : Instr}

theorem decodeBranch_stands (ho : opcodeOf w = 0x63#7) (h : decodeBranch w = .ok i) : Stands c w i := by
  have e := encB_fields w
  rw [ho] at e
  unfold decodeBranch at h
  split at h <;> first
    | (rename_i hf; rw [hf] at e; cases h; exact ⟨evenB_immBOf w, e⟩)
    | cases h

theorem decodeLoad_stands (ho : opcodeOf w = 0x03#7) (h : decodeLoad w = .ok i) : Stands c w i := by
  have e := encI_fields w
  rw [ho] at e
  unfold decodeLoad at h
  split at h <;> first
    | (rename_i hf; rw [hf] at e; cases h; exact ⟨rfl, e⟩)
    | cases h

theorem decodeStore_stands (ho : opcodeOf w = 0x23#7) (h : decodeStore w = .ok i) : Stands c w i := by
  have e := encS_fields w
  rw [ho] at e
  unfold decodeStore at h
  split at h <;> first
    | (rename_i hf; rw [hf] at e; cases h; exact ⟨rfl, e⟩)
    | cases h

/-- A `funct3` that is none of seven values is the eighth. -/
theorem funct3_five (f : BitVec 3) (h0 : f ≠ 0#3) (h1 : f ≠ 1#3) (h2 : f ≠ 2#3) (h3 : f ≠ 3#3) (h4 : f ≠ 4#3)
    (h6 : f ≠ 6#3) (h7 : f ≠ 7#3) : f = 5#3 := by
  have := f.isLt
  simp only [ne_eq, ← BitVec.toNat_inj, BitVec.toNat_ofNat] at *
  omega

theorem funct3_seven (f : BitVec 3) (h0 : f ≠ 0#3) (h1 : f ≠ 1#3) (h2 : f ≠ 2#3) (h3 : f ≠ 3#3) (h4 : f ≠ 4#3)
    (h5 : f ≠ 5#3) (h6 : f ≠ 6#3) : f = 7#3 := by
  have := f.isLt
  simp only [ne_eq, ← BitVec.toNat_inj, BitVec.toNat_ofNat] at *
  omega

theorem decodeOpImm_stands (ho : opcodeOf w = 0x13#7) (h : decodeOpImm w = .ok i) : Stands c w i := by
  have e := encI_fields w
  have r := encR_fields w
  rw [ho] at e r
  unfold decodeOpImm at h
  split at h
  case h_8 h0 h2 h3 h4 h6 h7 h1 =>
    have hf := funct3_five _ h0 h1 h2 h3 h4 h6 h7
    rw [hf] at r
    split at h
    · rename_i h7; rw [h7] at r; cases h; exact ⟨rfl, r⟩
    · split at h
      · rename_i h7; rw [h7] at r; cases h; exact ⟨rfl, r⟩
      · cases h
  case h_7 hf =>
    rw [hf] at r
    split at h
    · rename_i h7; rw [h7] at r; cases h; exact ⟨rfl, r⟩
    · cases h
  all_goals (rename_i hf; rw [hf] at e; cases h; exact ⟨rfl, e⟩)

theorem decodeOpBase_stands (ho : opcodeOf w = 0x33#7) (hg : funct7Of w = 0b0000000#7)
    (h : decodeOpBase w = .ok i) : Stands c w i := by
  have e := encR_fields w
  rw [ho, hg] at e
  unfold decodeOpBase at h
  split at h
  case h_8 h0 h1 h2 h3 h4 h5 h6 =>
    rw [funct3_seven _ h0 h1 h2 h3 h4 h5 h6] at e; cases h; exact ⟨rfl, e⟩
  all_goals (rename_i hf; rw [hf] at e; cases h; exact ⟨rfl, e⟩)

theorem decodeOpAlt_stands (ho : opcodeOf w = 0x33#7) (hg : funct7Of w = 0b0100000#7)
    (h : decodeOpAlt w = .ok i) : Stands c w i := by
  have e := encR_fields w
  rw [ho, hg] at e
  unfold decodeOpAlt at h
  split at h <;> first
    | (rename_i hf; rw [hf] at e; cases h; exact ⟨rfl, e⟩)
    | cases h

theorem decodeOpM_stands (ho : opcodeOf w = 0x33#7) (hg : funct7Of w = 0b0000001#7)
    (h : decodeOpM w = .ok i) : Stands c w i := by
  have e := encR_fields w
  rw [ho, hg] at e
  unfold decodeOpM at h
  split at h
  case h_8 h0 h1 h2 h3 h4 h5 h6 =>
    rw [funct3_seven _ h0 h1 h2 h3 h4 h5 h6] at e; cases h; exact ⟨rfl, e⟩
  all_goals (rename_i hf; rw [hf] at e; cases h; exact ⟨rfl, e⟩)

theorem decodeOp_stands (ho : opcodeOf w = 0x33#7) (h : decodeOp w = .ok i) : Stands c w i := by
  unfold decodeOp at h
  split at h
  · exact decodeOpBase_stands ho ‹_› h
  · split at h
    · exact decodeOpAlt_stands ho ‹_› h
    · split at h
      · exact decodeOpM_stands ho ‹_› h
      · cases h

theorem decodeSystem_stands (ho : opcodeOf w = 0x73#7) (h : decodeSystem w = .ok i) : Stands c w i := by
  have e := encI_fields w
  rw [ho] at e
  unfold decodeSystem at h
  split at h
  case h_1 =>
    split at h
    · rename_i hw; cases h; exact ⟨rfl, hw.symm⟩
    · split at h
      · rename_i hw; cases h; exact ⟨rfl, hw.symm⟩
      · split at h
        · rename_i hw; cases h; exact ⟨rfl, hw.symm⟩
        · cases h
  case h_8 => cases h
  all_goals (rename_i hf; rw [hf] at e; cases h; exact ⟨rfl, e⟩)

/-- The MISC-MEM opcode: which instruction, under which policy (R161). -/
theorem decodeMiscMem_ok (h : decodeMiscMem c w = .ok i) :
    (i = .fence ∧ funct3Of w = 0#3 ∧ c.miscMem ≠ .illegal) ∨ (i = .fenceI ∧ funct3Of w = 1#3 ∧ c.miscMem = .nopBoth) := by
  unfold decodeMiscMem at h
  split at h
  · rename_i hf; cases h; left; simpa using hf
  · split at h
    · rename_i hf; cases h; right; simpa using hf
    · cases h

/-- The custom-0 opcode: which instruction, by the configured function codes (R85). -/
theorem decodeCustom0_ok (h : decodeCustom0 c w = .ok i) :
    (i = .exiti (immIOf w) ∧ funct3Of w = c.f3Exiti) ∨ (i = .exit (rs1Of w) ∧ funct3Of w = c.f3Exit) ∨
      (i = .iocall (immIOf w) ∧ funct3Of w = c.f3Iocall) := by
  unfold decodeCustom0 at h
  split at h
  · cases h; exact .inl ⟨rfl, ‹_›⟩
  · split at h
    · cases h; exact .inr (.inl ⟨rfl, ‹_›⟩)
    · split at h
      · cases h; exact .inr (.inr ⟨rfl, ‹_›⟩)
      · cases h

theorem jalr_stands (ho : opcodeOf w = 0x67#7) (hf : funct3Of w = 0#3) :
    Stands c w (.jalr (rdOf w) (rs1Of w) (immIOf w)) := by
  have e := encI_fields w
  rw [ho, hf] at e
  exact ⟨rfl, e⟩

/-- Every decoded word is an instruction that stands for it, or one of MISC-MEM or custom-0, which ignore fields. -/
theorem decode_stands (h : decode c w = .ok i) :
    Stands c w i ∨ (opcodeOf w = 0x0F#7 ∧ decodeMiscMem c w = .ok i) ∨ (opcodeOf w = 0x0B#7 ∧ decodeCustom0 c w = .ok i) := by
  unfold decode at h
  by_cases h1 : opcodeOf w = 0x37#7
  · rw [if_pos h1] at h; cases h
    have e := encU_fields w; rw [h1] at e; exact .inl ⟨rfl, e⟩
  by_cases h2 : opcodeOf w = 0x17#7
  · rw [if_neg h1, if_pos h2] at h; cases h
    have e := encU_fields w; rw [h2] at e; exact .inl ⟨rfl, e⟩
  by_cases h3 : opcodeOf w = 0x6F#7
  · rw [if_neg h1, if_neg h2, if_pos h3] at h; cases h
    have e := encJ_fields w; rw [h3] at e; exact .inl ⟨evenJ_immJOf w, e⟩
  rw [if_neg h1, if_neg h2, if_neg h3] at h
  by_cases h4 : opcodeOf w = 0x67#7
  · rw [if_pos h4] at h; split at h
    · rename_i hf; cases h; exact .inl (jalr_stands h4 hf)
    · cases h
  rw [if_neg h4] at h
  by_cases h5 : opcodeOf w = 0x63#7
  · rw [if_pos h5] at h; exact .inl (decodeBranch_stands h5 h)
  rw [if_neg h5] at h
  by_cases h6 : opcodeOf w = 0x03#7
  · rw [if_pos h6] at h; exact .inl (decodeLoad_stands h6 h)
  rw [if_neg h6] at h
  by_cases h7 : opcodeOf w = 0x23#7
  · rw [if_pos h7] at h; exact .inl (decodeStore_stands h7 h)
  rw [if_neg h7] at h
  by_cases h8 : opcodeOf w = 0x13#7
  · rw [if_pos h8] at h; exact .inl (decodeOpImm_stands h8 h)
  rw [if_neg h8] at h
  by_cases h9 : opcodeOf w = 0x33#7
  · rw [if_pos h9] at h; exact .inl (decodeOp_stands h9 h)
  rw [if_neg h9] at h
  by_cases h10 : opcodeOf w = 0x0F#7
  · rw [if_pos h10] at h; exact .inr (.inl ⟨h10, h⟩)
  rw [if_neg h10] at h
  by_cases h11 : opcodeOf w = 0x73#7
  · rw [if_pos h11] at h; exact .inl (decodeSystem_stands h11 h)
  rw [if_neg h11] at h
  by_cases h12 : opcodeOf w = 0x0B#7
  · rw [if_pos h12] at h; exact .inr (.inr ⟨h12, h⟩)
  rw [if_neg h12] at h
  cases h

end Sys2Proof
end

