-- ==== Sys2Proof/Laws/Exec.lean ====
section
/-! SUPPORT. What each shared operation can do, said once: the fields it never changes, its cases, its result. -/

namespace Sys2Proof.Machine

variable (s : State)

/-! ## Fields an operation never changes -/

@[simp] theorem jumpLink_cfg (rd : Reg) (target : Word) : (s.jumpLink rd target).cfg = s.cfg := by
  unfold State.jumpLink; (repeat' split) <;> rfl

@[simp] theorem jumpLink_mscratch (rd : Reg) (target : Word) : (s.jumpLink rd target).mscratch = s.mscratch := by
  unfold State.jumpLink; (repeat' split) <;> rfl

@[simp] theorem jumpLink_mtvec (rd : Reg) (target : Word) : (s.jumpLink rd target).mtvec = s.mtvec := by
  unfold State.jumpLink; (repeat' split) <;> rfl

@[simp] theorem jumpLink_run (rd : Reg) (target : Word) : (s.jumpLink rd target).run = s.run := by
  unfold State.jumpLink; (repeat' split) <;> rfl

@[simp] theorem jumpLink_mem (rd : Reg) (target : Word) : (s.jumpLink rd target).mem = s.mem := by
  unfold State.jumpLink; (repeat' split) <;> rfl

@[simp] theorem jumpLink_mmioLog (rd : Reg) (target : Word) : (s.jumpLink rd target).mmioLog = s.mmioLog := by
  unfold State.jumpLink; (repeat' split) <;> rfl

@[simp] theorem jumpLink_bridgeLog (rd : Reg) (target : Word) : (s.jumpLink rd target).bridgeLog = s.bridgeLog := by
  unfold State.jumpLink; (repeat' split) <;> rfl

@[simp] theorem branch_cfg (taken : Bool) (offset : BitVec 13) : (s.branch taken offset).cfg = s.cfg := by
  unfold State.branch; (repeat' split) <;> rfl

@[simp] theorem branch_regs (taken : Bool) (offset : BitVec 13) : (s.branch taken offset).regs = s.regs := by
  unfold State.branch; (repeat' split) <;> rfl

@[simp] theorem branch_mscratch (taken : Bool) (offset : BitVec 13) : (s.branch taken offset).mscratch = s.mscratch := by
  unfold State.branch; (repeat' split) <;> rfl

@[simp] theorem branch_mtvec (taken : Bool) (offset : BitVec 13) : (s.branch taken offset).mtvec = s.mtvec := by
  unfold State.branch; (repeat' split) <;> rfl

@[simp] theorem branch_run (taken : Bool) (offset : BitVec 13) : (s.branch taken offset).run = s.run := by
  unfold State.branch; (repeat' split) <;> rfl

@[simp] theorem branch_mem (taken : Bool) (offset : BitVec 13) : (s.branch taken offset).mem = s.mem := by
  unfold State.branch; (repeat' split) <;> rfl

@[simp] theorem branch_mmioLog (taken : Bool) (offset : BitVec 13) : (s.branch taken offset).mmioLog = s.mmioLog := by
  unfold State.branch; (repeat' split) <;> rfl

@[simp] theorem branch_bridgeLog (taken : Bool) (offset : BitVec 13) : (s.branch taken offset).bridgeLog = s.bridgeLog := by
  unfold State.branch; (repeat' split) <;> rfl

@[simp] theorem load_cfg (rd : Reg) (ea : Word) (n : Width) (ext : Word → Word) : (s.load rd ea n ext).cfg = s.cfg := by
  unfold State.load; (repeat' split) <;> rfl

@[simp] theorem load_mscratch (rd : Reg) (ea : Word) (n : Width) (ext : Word → Word) : (s.load rd ea n ext).mscratch = s.mscratch := by
  unfold State.load; (repeat' split) <;> rfl

@[simp] theorem load_mtvec (rd : Reg) (ea : Word) (n : Width) (ext : Word → Word) : (s.load rd ea n ext).mtvec = s.mtvec := by
  unfold State.load; (repeat' split) <;> rfl

@[simp] theorem load_run (rd : Reg) (ea : Word) (n : Width) (ext : Word → Word) : (s.load rd ea n ext).run = s.run := by
  unfold State.load; (repeat' split) <;> rfl

@[simp] theorem load_mem (rd : Reg) (ea : Word) (n : Width) (ext : Word → Word) : (s.load rd ea n ext).mem = s.mem := by
  unfold State.load; (repeat' split) <;> rfl

@[simp] theorem load_bridgeLog (rd : Reg) (ea : Word) (n : Width) (ext : Word → Word) : (s.load rd ea n ext).bridgeLog = s.bridgeLog := by
  unfold State.load; (repeat' split) <;> rfl

@[simp] theorem store_cfg (ea : Word) (n : Width) (v : Word) : (s.store ea n v).cfg = s.cfg := by
  unfold State.store; (repeat' split) <;> rfl

@[simp] theorem store_regs (ea : Word) (n : Width) (v : Word) : (s.store ea n v).regs = s.regs := by
  unfold State.store; (repeat' split) <;> rfl

@[simp] theorem store_mscratch (ea : Word) (n : Width) (v : Word) : (s.store ea n v).mscratch = s.mscratch := by
  unfold State.store; (repeat' split) <;> rfl

@[simp] theorem store_mtvec (ea : Word) (n : Width) (v : Word) : (s.store ea n v).mtvec = s.mtvec := by
  unfold State.store; (repeat' split) <;> rfl

@[simp] theorem store_run (ea : Word) (n : Width) (v : Word) : (s.store ea n v).run = s.run := by
  unfold State.store; (repeat' split) <;> rfl

@[simp] theorem store_bridgeLog (ea : Word) (n : Width) (v : Word) : (s.store ea n v).bridgeLog = s.bridgeLog := by
  unfold State.store; (repeat' split) <;> rfl

@[simp] theorem csrSwap_cfg (rd : Reg) (a : CsrAddr) (src : Word) : (s.csrSwap rd a src).cfg = s.cfg := by
  rfl

@[simp] theorem csrSwap_run (rd : Reg) (a : CsrAddr) (src : Word) : (s.csrSwap rd a src).run = s.run := by
  rfl

@[simp] theorem csrSwap_mem (rd : Reg) (a : CsrAddr) (src : Word) : (s.csrSwap rd a src).mem = s.mem := by
  rfl

@[simp] theorem csrSwap_mmioLog (rd : Reg) (a : CsrAddr) (src : Word) : (s.csrSwap rd a src).mmioLog = s.mmioLog := by
  rfl

@[simp] theorem csrSwap_bridgeLog (rd : Reg) (a : CsrAddr) (src : Word) : (s.csrSwap rd a src).bridgeLog = s.bridgeLog := by
  rfl

@[simp] theorem csrModify_cfg (rd : Reg) (a : CsrAddr) (src new : Word) : (s.csrModify rd a src new).cfg = s.cfg := by
  unfold State.csrModify; (repeat' split) <;> rfl

@[simp] theorem csrModify_run (rd : Reg) (a : CsrAddr) (src new : Word) : (s.csrModify rd a src new).run = s.run := by
  unfold State.csrModify; (repeat' split) <;> rfl

@[simp] theorem csrModify_mem (rd : Reg) (a : CsrAddr) (src new : Word) : (s.csrModify rd a src new).mem = s.mem := by
  unfold State.csrModify; (repeat' split) <;> rfl

@[simp] theorem csrModify_mmioLog (rd : Reg) (a : CsrAddr) (src new : Word) : (s.csrModify rd a src new).mmioLog = s.mmioLog := by
  unfold State.csrModify; (repeat' split) <;> rfl

@[simp] theorem csrModify_bridgeLog (rd : Reg) (a : CsrAddr) (src new : Word) : (s.csrModify rd a src new).bridgeLog = s.bridgeLog := by
  unfold State.csrModify; (repeat' split) <;> rfl

@[simp] theorem illegal_cfg (ins : Word) : (s.illegal ins).cfg = s.cfg := by
  unfold State.illegal; (repeat' split) <;> rfl

@[simp] theorem illegal_regs (ins : Word) : (s.illegal ins).regs = s.regs := by
  unfold State.illegal; (repeat' split) <;> rfl

@[simp] theorem illegal_mscratch (ins : Word) : (s.illegal ins).mscratch = s.mscratch := by
  unfold State.illegal; (repeat' split) <;> rfl

@[simp] theorem illegal_mtvec (ins : Word) : (s.illegal ins).mtvec = s.mtvec := by
  unfold State.illegal; (repeat' split) <;> rfl

@[simp] theorem illegal_mem (ins : Word) : (s.illegal ins).mem = s.mem := by
  unfold State.illegal; (repeat' split) <;> rfl

@[simp] theorem illegal_mmioLog (ins : Word) : (s.illegal ins).mmioLog = s.mmioLog := by
  unfold State.illegal; (repeat' split) <;> rfl

@[simp] theorem illegal_bridgeLog (ins : Word) : (s.illegal ins).bridgeLog = s.bridgeLog := by
  unfold State.illegal; (repeat' split) <;> rfl

/-! ## Registers -/

theorem setX_x (r q : Reg) (v : Word) : (s.setX r v).x q = if q = r ∧ q ≠ 0#5 then v else s.x q :=
  readReg_writeReg s.regs r q v

theorem retireWith_x (r q : Reg) (v : Word) :
    (s.retireWith r v).x q = if q = r ∧ q ≠ 0#5 then v else s.x q :=
  readReg_writeReg s.regs r q v

theorem retireWith_sets (r : Reg) (v : Word) : SetsReg s (s.retireWith r v) r v where
  result := readReg_writeReg_self s.regs r v
  others _ h := readReg_writeReg_ne s.regs v h

theorem keepsMemory_of_eq {s t : State} (hc : t.cfg = s.cfg) (hm : t.mem = s.mem) (hl : t.mmioLog = s.mmioLog) :
    KeepsMemory s t where
  bytes a := by simp [State.ramByte, hc, hm]
  mmioLog := hl

/-- Writing a register and retiring is exactly that. -/
theorem retireWith_writes (r : Reg) (v : Word) : WritesReg s (s.retireWith r v) r v (s.pc + 4#32) where
  regs := retireWith_sets s r v
  pc := rfl
  csrs := ⟨rfl, rfl, rfl, rfl, rfl⟩
  run := ⟨rfl, rfl, rfl⟩
  memory := keepsMemory_of_eq rfl rfl rfl

/-- Setting `pc` is exactly that. -/
theorem setPc_goesTo (a : Word) : GoesTo s (s.setPc a) a where
  pc := rfl
  regs _ := rfl
  csrs := ⟨rfl, rfl, rfl, rfl, rfl⟩
  run := ⟨rfl, rfl, rfl⟩
  memory := keepsMemory_of_eq rfl rfl rfl

theorem openMtval_decided (h : s.cfg.mtvalRule = .decided) (e : Exception) : openMtval s e = valueOf e := by
  simp [openMtval, h]

theorem mtvalOf_decided (h : s.cfg.mtvalRule = .decided) (e : Exception) : mtvalOf s e = valueOf e := by
  cases e <;> first | exact openMtval_decided s h _ | rfl

/-- Trap entry is R197 and nothing else. -/
theorem trap_takes (e : Exception) : TakesTrap s (s.trap e) (causeOf s.cfg e) (valueOf e) where
  mepc := rfl
  mcause := rfl
  mtval h := mtvalOf_decided s h e
  pc := rfl
  mtvec := rfl
  mscratch := rfl
  regs _ := rfl
  run := ⟨rfl, rfl, rfl⟩
  memory := keepsMemory_of_eq rfl rfl rfl

/-! ## Alignment of targets -/

theorem aligned_word_iff (a : Word) : aligned .word a = true ↔ a &&& 3#32 = 0#32 := by
  rw [aligned_iff, ← BitVec.toNat_inj]
  simp only [widthBytes, BitVec.toNat_and, BitVec.toNat_ofNat]
  rw [show 3 % 2 ^ 32 = 2 ^ 2 - 1 from rfl, Nat.and_two_pow_sub_one_eq_mod]

theorem aligned_half_iff (a : Word) : aligned .half a = true ↔ a &&& 1#32 = 0#32 := by
  rw [aligned_iff, ← BitVec.toNat_inj]
  simp only [widthBytes, BitVec.toNat_and, BitVec.toNat_ofNat]
  rw [show 1 % 2 ^ 32 = 2 ^ 1 - 1 from rfl, Nat.and_two_pow_sub_one_eq_mod]

theorem aligned_clearLow2 (v : Word) : aligned .word (clearLow2 v) = true := by
  rw [aligned_word_iff, clearLow2, BitVec.and_assoc]
  simp

theorem aligned_add_four {a : Word} (h : aligned .word a = true) : aligned .word (a + 4#32) = true := by
  rw [aligned_iff] at h ⊢
  simp only [widthBytes, BitVec.toNat_add, BitVec.toNat_ofNat] at h ⊢
  omega

/-- An aligned target is adopted and the link written (R148). -/
theorem jumpLink_aligned {target : Word} (rd : Reg) (h : aligned .word target = true) :
    WritesReg s (s.jumpLink rd target) rd (s.pc + 4#32) target := by
  have e : s.jumpLink rd target = (s.setX rd (s.pc + 4#32)).setPc target := by simp [State.jumpLink, h]
  rw [e]
  exact ⟨⟨readReg_writeReg_self s.regs rd _, fun _ hr => readReg_writeReg_ne s.regs _ hr⟩, rfl,
    ⟨rfl, rfl, rfl, rfl, rfl⟩, ⟨rfl, rfl, rfl⟩, keepsMemory_of_eq rfl rfl rfl⟩

theorem jumpLink_misaligned {target : Word} (rd : Reg) (h : aligned .word target = false) :
    s.jumpLink rd target = s.trap (.instrAddrMisaligned target) := by simp [State.jumpLink, h]

theorem branch_taken {offset : BitVec 13} (h : aligned .word (s.pc + offsetB offset) = true) :
    s.branch true offset = s.setPc (s.pc + offsetB offset) := by simp [State.branch, h]

theorem branch_misaligned {offset : BitVec 13} (h : aligned .word (s.pc + offsetB offset) = false) :
    s.branch true offset = s.trap (.instrAddrMisaligned (s.pc + offsetB offset)) := by simp [State.branch, h]

theorem branch_not_taken (offset : BitVec 13) : s.branch false offset = s.setPc (s.pc + 4#32) := rfl

/-- Every control transfer leaves `pc` aligned (R13). -/
theorem jumpLink_pc_aligned (rd : Reg) (target : Word) : aligned .word (s.jumpLink rd target).pc = true := by
  cases h : aligned .word target
  · rw [jumpLink_misaligned s rd h]; exact aligned_clearLow2 _
  · rw [(jumpLink_aligned s rd h).pc]; exact h

theorem branch_pc_aligned (taken : Bool) (offset : BitVec 13) (hp : aligned .word s.pc = true) :
    aligned .word (s.branch taken offset).pc = true := by
  cases taken
  · exact aligned_add_four hp
  · cases h : aligned .word (s.pc + offsetB offset)
    · rw [branch_misaligned s h]; exact aligned_clearLow2 _
    · rw [branch_taken s h]; exact h

/-- A return is to an aligned `mepc`, or refused (R167, D17). -/
theorem trapReturn_next {t : State} (h : s.trapReturn = .next t) :
    aligned .word s.mepc = true ∧ t = s.setPc s.mepc := by
  unfold State.trapReturn at h
  split at h
  · rename_i ha; exact ⟨ha, by simpa using h.symm⟩
  · cases h

/-! ## Loads and stores (R158) -/

theorem load_aligned {ea : Word} {n : Width} (rd : Reg) (ext : Word → Word) (h : aligned n ea = true) :
    Loads s (s.load rd ea n ext) rd ea n (ext (s.busRead ea n)) := by
  have e : s.load rd ea n ext = (s.afterRead ea n).retireWith rd (ext (s.busRead ea n)) := by simp [State.load, h]
  rw [e]
  exact ⟨⟨readReg_writeReg_self s.regs rd _, fun _ hr => readReg_writeReg_ne s.regs _ hr⟩, rfl,
    ⟨rfl, rfl, rfl, rfl, rfl⟩, ⟨rfl, rfl, rfl⟩, fun _ => rfl, rfl⟩

theorem load_misaligned {ea : Word} {n : Width} (rd : Reg) (ext : Word → Word) (h : aligned n ea = false) :
    s.load rd ea n ext = s.trap (.loadAddrMisaligned ea) := by simp [State.load, h]

theorem store_aligned {ea : Word} {n : Width} (v : Word) (hc : s.cfg.wf = true) (h : aligned n ea = true) :
    Stores s (s.store ea n v) ea n v := by
  have e : s.store ea n v = (s.busWrite ea n v).retired := by simp [State.store, h]
  rw [e]
  exact ⟨rfl, fun _ => rfl, ⟨rfl, rfl, rfl, rfl, rfl⟩, ⟨rfl, rfl, rfl⟩,
    fun hr _ hi => busWrite_ramByte_in hc v hr h hi, fun a ha => busWrite_ramByte_out s ea n v a ha, rfl⟩

theorem store_misaligned {ea : Word} {n : Width} (v : Word) (h : aligned n ea = false) :
    s.store ea n v = s.trap (.storeAddrMisaligned ea) := by simp [State.store, h]

/-! ## CSRs (R174, R175) -/

/-- A write never changes what a read-only constant or an unknown address reads. -/
theorem csrRead_csrWrite_ne {a b : CsrAddr} (v : Word) (h : a ≠ b) : (s.csrWrite b v).csrRead a = s.csrRead a := by
  simp only [State.csrRead, csrWrite_cfg, csrWrite_mtvec, csrWrite_mscratch, csrWrite_mepc, csrWrite_mcause,
    csrWrite_mtval]
  repeat' split
  all_goals simp_all

theorem csrModify_zero (rd : Reg) (a : CsrAddr) (new : Word) :
    s.csrModify rd a 0#32 new = s.retireWith rd (s.csrRead a) := by simp [State.csrModify]

theorem csrModify_nonzero (rd : Reg) (a : CsrAddr) {src : Word} (new : Word) (h : src ≠ 0#32) :
    s.csrModify rd a src new = (s.csrWrite a new).retireWith rd (s.csrRead a) := by simp [State.csrModify, h]

/-! ## The bridge (R183, R185) -/

/-- The accessor admits only bytes of the array (R53). -/
theorem dmaAdmits_range {addr len : Word} (h : s.dmaAdmits addr len = true) :
    s.cfg.ramBase.toNat ≤ addr.toNat ∧ addr.toNat + len.toNat ≤ s.cfg.ramBase.toNat + ramSize s.cfg := by
  simp [State.dmaAdmits] at h; omega

/-- What reaches the host comes from an admitted buffer. -/
theorem dmaRead_some {addr len : Word} {bytes : List Byte} (h : s.dmaRead addr len = some bytes) :
    s.dmaAdmits addr len = true := by
  unfold State.dmaRead at h
  split at h
  · assumption
  · cases h

/-- Everything a call can do to RAM: nothing, or a `read` call's bytes at the start of its admitted buffer. -/
theorem bridgeRam_cases (call : BridgeCall) (k : BridgeKind) (host : BridgeEvent → BridgeAnswer) :
    bridgeRam s call k host = s.mem ∨
    ∃ (a l : Fin 8) (data : List Byte), k = .read a l ∧ s.dmaAdmits (call.args[a]) (call.args[l]) = true ∧
      data.length ≤ (call.args[l]).toNat ∧ bridgeRam s call k host = memSetList s.mem (call.args[a]).toNat data := by
  unfold bridgeRam
  split
  · rename_i a l bytes h
    exact .inr ⟨a, l, _, rfl, dmaRead_some s h, List.length_take_le _ _, rfl⟩
  · exact .inl rfl

theorem bridgeRam_wf (call : BridgeCall) (k : BridgeKind) (host : BridgeEvent → BridgeAnswer) (h : s.mem.wf = true) :
    Memory.wf (bridgeRam s call k host) = true := by
  obtain e | ⟨_, _, _, _, _, _, e⟩ := bridgeRam_cases s call k host <;> rw [e]
  · exact h
  · exact memSetList_wf _ _ h

theorem bridgeRam_within (call : BridgeCall) (k : BridgeKind) (host : BridgeEvent → BridgeAnswer)
    (h : memWithin s.cfg.ramBase.toNat (s.cfg.ramBase.toNat + ramSize s.cfg) s.mem = true) :
    memWithin s.cfg.ramBase.toNat (s.cfg.ramBase.toNat + ramSize s.cfg) (bridgeRam s call k host) = true := by
  obtain e | ⟨a, l, data, _, hd, hl, e⟩ := bridgeRam_cases s call k host <;> rw [e]
  · exact h
  · have := dmaAdmits_range s hd
    exact memSetList_within _ this.1 (by omega) h

/-- The accessor's answer rests on the configuration and on the buffer's bytes alone. -/
theorem dmaRead_congr {s s' : State} {addr len : Word} (hc : s'.cfg = s.cfg)
    (hm : s.dmaAdmits addr len = true → ∀ j, addr.toNat ≤ j → j < addr.toNat + len.toNat →
      memGet s'.mem j = memGet s.mem j) :
    s'.dmaRead addr len = s.dmaRead addr len := by
  have hd : s'.dmaAdmits addr len = s.dmaAdmits addr len := by simp only [State.dmaAdmits, hc]
  unfold State.dmaRead
  rw [hd]
  split
  · rename_i h
    refine congrArg some (List.map_congr_left fun i hi => hm h _ (by omega) ?_)
    have := List.mem_range.1 hi
    omega
  · rfl

/-- What reaches the host rests on the call, the configuration and the bytes of the call's own admitted buffer. -/
theorem bridgeBytes_congr {s s' : State} (call : BridgeCall) (k : BridgeKind) (hc : s'.cfg = s.cfg)
    (hm : ∀ addr len, bridgeBuffer call k = some (addr, len) → s.dmaAdmits addr len = true →
      ∀ j, addr.toNat ≤ j → j < addr.toNat + len.toNat → memGet s'.mem j = memGet s.mem j) :
    s'.bridgeBytes call k = s.bridgeBytes call k := by
  cases k
  case unknown => rfl
  case values => rfl
  all_goals simp only [State.bridgeBytes]; rw [dmaRead_congr hc (hm _ _ rfl)]

/-- The calls that fail before they reach the host (R183 point 4). -/
theorem bridgeBytes_none {call : BridgeCall} {k : BridgeKind}
    (h : k = .unknown ∨ (∃ addr len, bridgeBuffer call k = some (addr, len) ∧
      (s.dmaAdmits addr len = false ∨
        (∃ a, k = .path a) ∧ ∀ i, i < len.toNat → memGet s.mem (addr.toNat + i) ≠ 0#8))) :
    s.bridgeBytes call k = none := by
  obtain rfl | ⟨addr, len, hb, hd | ⟨⟨a, rfl⟩, hz⟩⟩ := h
  · rfl
  · have e : s.dmaRead addr len = none := by simp [State.dmaRead, hd]
    cases k <;> cases hb <;> simp only [State.bridgeBytes, e, Option.filter_none]
  · cases hb
    simp only [State.bridgeBytes, State.dmaRead]
    split
    · rw [Option.filter_eq_none_iff]
      rintro l ⟨⟩
      simpa using hz
    · rfl

/-- A call that fails writes the sentinel and changes nothing else (R183 point 4). -/
theorem afterBridge_failed {call : BridgeCall} {k : BridgeKind} (host : BridgeEvent → BridgeAnswer)
    (h : s.bridgeBytes call k = none) : s.afterBridge call k host = s.setX 10#5 0xFFFFFFFF#32 := by
  have hm : bridgeRam s call k host = s.mem := by
    unfold bridgeRam
    split
    · simp_all
    · rfl
  simp only [State.afterBridge, hm, bridgeResult, bridgeLogAfter, h]
  rfl

/-- A call that returns leaves `afterBridge`; one that does not leaves no state (R185). -/
theorem bridge_next {n : Word} {t : State} (h : s.bridge n = .next t) :
    t = (s.afterBridge (s.bridgeCallOf n) (Config.bridgeKind n) (Config.bridge s.bridgeLog)).retired := by
  unfold State.bridge at h
  split at h
  · simpa using h.symm
  · cases h

/-- Under a host that always returns, every call returns. -/
theorem hostReturns_returns (call : BridgeCall) (k : BridgeKind) (h : s.cfg.host = .returns) :
    s.hostReturns call k = true := by simp [State.hostReturns, h]

end Sys2Proof.Machine
end

