-- ==== Sys2Proof/Laws/Step.lean ====
section
/-! SUPPORT. The cases of a step (spec/00_scope.md R3), and what every instruction does, said once. -/

namespace Sys2Proof.Machine

variable (s : State)

/-! ## One step -/

theorem step_decoded {i : Instr} (hr : s.run = .running) (hd : decode s.cfg s.fetchWord = .ok i) :
    step s = exec i s.afterFetch := by simp [step, hr, hd]

theorem step_illegal {e : Illegal} (hr : s.run = .running) (hd : decode s.cfg s.fetchWord = .error e) :
    step s = .next (s.afterFetch.illegal s.fetchWord) := by simp [step, hr, hd]

theorem step_ended (hr : s.run ≠ .running) : step s = .fault .runEnded := by
  unfold step; split
  · exact absurd ‹_› hr
  · rfl
  · rfl

/-- Everything a step that answers a next state can have done. -/
theorem step_cases {t : State} (h : step s = .next t) :
    s.run = .running ∧
      ((∃ i, decode s.cfg s.fetchWord = .ok i ∧ exec i s.afterFetch = .next t) ∨
        (∃ e, decode s.cfg s.fetchWord = .error e ∧ t = s.afterFetch.illegal s.fetchWord)) := by
  unfold step at h
  split at h
  · refine ⟨‹_›, ?_⟩
    split at h
    · exact .inl ⟨_, ‹_›, h⟩
    · exact .inr ⟨_, ‹_›, by simpa using h.symm⟩
  · cases h
  · cases h

/-! ## The shapes of an instruction's effect

Every meaning is one of these shared operations; a proof over all instructions has a case for each shape. -/

/-- What one instruction can do. -/
inductive Effect (s : State) : State → Prop where
  | retire (rd : Reg) (v : Word) : Effect s (s.retireWith rd v)
  | skip : Effect s s.retired
  | jump (rd : Reg) (target : Word) : Effect s (s.jumpLink rd target)
  | branch (taken : Bool) (offset : BitVec 13) : Effect s (s.branch taken offset)
  | load (rd : Reg) (ea : Word) (n : Width) (ext : Word → Word) : Effect s (s.load rd ea n ext)
  | store (ea : Word) (n : Width) (v : Word) : Effect s (s.store ea n v)
  | trap (e : Exception) : Effect s (s.trap e)
  | mret (h : aligned .word s.mepc = true) : Effect s (s.setPc s.mepc)
  | csrSwap (rd : Reg) (a : CsrAddr) (src : Word) : Effect s (s.csrSwap rd a src)
  | csrModify (rd : Reg) (a : CsrAddr) (src new : Word) : Effect s (s.csrModify rd a src new)
  | halt (code : Word) : Effect s (s.halt code)
  | bridge (call : BridgeCall) (k : BridgeKind) (host : BridgeEvent → BridgeAnswer) :
      Effect s (s.afterBridge call k host).retired

/-- Every instruction that answers a next state has one of these effects. -/
theorem exec_effect {i : Instr} {t : State} (h : exec i s = .next t) : Effect s t := by
  cases i
  case mret => obtain ⟨ha, rfl⟩ := trapReturn_next s h; exact .mret ha
  case iocall => rw [bridge_next s h]; exact .bridge _ _ _
  all_goals
    cases h
    first
      | exact .retire _ _
      | exact .skip
      | exact .jump _ _
      | exact .branch _ _
      | exact .load _ _ _ _
      | exact .store _ _ _
      | exact .trap _
      | exact .csrSwap _ _ _
      | exact .csrModify _ _ _ _
      | exact .halt _

/-- Every instruction but `MRET` and `IOCALL` answers a next state. -/
theorem exec_next {i : Instr} (h : i ≠ .mret) (h' : ∀ imm, i ≠ .iocall imm) : ∃ t, exec i s = .next t := by
  cases i <;> first | exact ⟨_, rfl⟩ | exact absurd rfl h | exact absurd rfl (h' _)

/-- `IOCALL` answers a next state, or under a host that may block the fault of R185. -/
theorem exec_iocall (imm : BitVec 12) :
    (∃ t, exec (.iocall imm) s = .next t) ∨
      (s.cfg.host = .mayBlock ∧ exec (.iocall imm) s = .fault .hostNeverReturns) := by
  cases hr : s.hostReturns (s.bridgeCallOf (immVal imm)) (Config.bridgeKind (immVal imm))
  · refine .inr ⟨?_, by simp [exec, execIocall, State.bridge, hr]⟩
    cases hh : s.cfg.host
    · rw [hostReturns_returns s _ _ hh] at hr; cases hr
    · rfl
  · exact .inl ⟨_, if_pos hr⟩

/-- `MRET` returns to an aligned `mepc` and is refused otherwise (R167, D17). -/
theorem exec_mret : exec .mret s =
    if aligned .word s.mepc then .next (s.setPc s.mepc) else .refused .mretMisaligned := rfl

end Sys2Proof.Machine
end

