-- ==== Sys2Proof/Tests/Slice0.lean ====
section
/-! SUPPORT. The model's own tests: what WellFormed refuses; each constructor's word written out field by field from the
layouts of spec/30_encoding.md R72 and the table of R80; one step on a small state, with the result that
spec/95_test_vectors.md states (the section is named); and for each obligation with hypotheses a state that meets them. -/

namespace Sys2Proof.Tests

open Sys2Proof.Machine

/-! ## Helpers -/

/-- A register file: the listed registers, the others zero. -/
def regsOf (l : List (Reg × Word)) : Vector Word 32 :=
  l.foldl (fun g p => writeReg g p.1 p.2) (Vector.replicate 32 0#32)

/-- The start state of the vectors: the word at `pc`, `mtvec = 0x80000100`, the listed registers. -/
def start (pc : Word) (w : Nat) (l : List (Reg × Word)) : State :=
  { State.reset with pc := pc, mtvec := 0x80000100#32, regs := regsOf l }.withFetchWord 32 w

/-- RAM of section 2.5: the word 0x8899AABB at 0x80000200 and 0x11223344 after it. -/
def withData (s : State) : State := (s.busWrite 0x80000200#32 .word 0x8899AABB#32).busWrite 0x80000204#32 .word 0x11223344#32

/-- What one step leaves, if it answers a next state. -/
def after {α : Type} (s : State) (f : State → α) : Option α :=
  match step s with
  | .next t => some (f t)
  | .fault _ => none
  | .refused _ => none

/-- What a trap wrote. -/
def trapOf (t : State) : Word × Word × Word × Word := (t.mepc, t.mcause, t.mtval, t.pc)

def platformCfg : Config := { Config.cfg0 with mmio := .platform }
def abortCfg : Config := { Config.cfg0 with abortOnIllegal := true }

/-! ## WellFormed: an ill-formed term for each check -/

theorem test_wf_odd_branch_offset : (Instr.beq 1#5 2#5 3#13).wf Config.cfg0 = false := by decide
theorem test_wf_odd_jump_offset : (Instr.jal 1#5 5#21).wf Config.cfg0 = false := by decide
theorem test_wf_fence_illegal : Instr.fence.wf { Config.cfg0 with miscMem := .illegal } = false := by decide
theorem test_wf_fenceI_illegal : Instr.fenceI.wf { Config.cfg0 with miscMem := .nopFenceOnly } = false := by decide
theorem test_wf_config : Config.cfg0.wf = true ∧ { Config.cfg0 with ramBase := 2#32 }.wf = false ∧
    { Config.cfg0 with ramSizeLog2 := 1 }.wf = false ∧ { Config.cfg0 with f3Exit := 0#3 }.wf = false ∧
    { Config.cfg0 with ecBreak := 2#32 }.wf = false ∧ { Config.cfg0 with ecBreak := 0x80000003#32 }.wf = false := by decide

/-! ## Decoding: every constructor's word, field by field -/

theorem test_decode_upper_and_jumps :
    decodeTableWord 32 0b10110011100011110001_10101_0110111 = some (.lui 21#5 0b10110011100011110001#20) ∧
    decodeTableWord 32 0b10110011100011110001_10101_0010111 = some (.auipc 21#5 0b10110011100011110001#20) ∧
    decodeTableWord 32 0b1_1100010110_0_01101001_10101_1101111 = some (.jal 21#5 0b1_01101001_0_1100010110_0#21) ∧
    decodeTableWord 32 0b101100111000_01110_000_10101_1100111 = some (.jalr 21#5 14#5 0b101100111000#12) := by decide

theorem test_decode_branches :
    decodeTableWord 32 0b1_110100_11001_01110_000_0110_0_1100011 = some (.beq 14#5 25#5 0b1_0_110100_0110_0#13) ∧
    decodeTableWord 32 0b1_110100_11001_01110_001_0110_0_1100011 = some (.bne 14#5 25#5 0b1_0_110100_0110_0#13) ∧
    decodeTableWord 32 0b1_110100_11001_01110_100_0110_0_1100011 = some (.blt 14#5 25#5 0b1_0_110100_0110_0#13) ∧
    decodeTableWord 32 0b1_110100_11001_01110_101_0110_0_1100011 = some (.bge 14#5 25#5 0b1_0_110100_0110_0#13) ∧
    decodeTableWord 32 0b1_110100_11001_01110_110_0110_0_1100011 = some (.bltu 14#5 25#5 0b1_0_110100_0110_0#13) ∧
    decodeTableWord 32 0b1_110100_11001_01110_111_0110_0_1100011 = some (.bgeu 14#5 25#5 0b1_0_110100_0110_0#13) := by decide

theorem test_decode_loads :
    decodeTableWord 32 0b101100111000_01110_000_10101_0000011 = some (.lb 21#5 14#5 0b101100111000#12) ∧
    decodeTableWord 32 0b101100111000_01110_001_10101_0000011 = some (.lh 21#5 14#5 0b101100111000#12) ∧
    decodeTableWord 32 0b101100111000_01110_010_10101_0000011 = some (.lw 21#5 14#5 0b101100111000#12) ∧
    decodeTableWord 32 0b101100111000_01110_100_10101_0000011 = some (.lbu 21#5 14#5 0b101100111000#12) ∧
    decodeTableWord 32 0b101100111000_01110_101_10101_0000011 = some (.lhu 21#5 14#5 0b101100111000#12) := by decide

theorem test_decode_stores :
    decodeTableWord 32 0b1011000_11001_01110_000_01101_0100011 = some (.sb 25#5 14#5 0b1011000_01101#12) ∧
    decodeTableWord 32 0b1011000_11001_01110_001_01101_0100011 = some (.sh 25#5 14#5 0b1011000_01101#12) ∧
    decodeTableWord 32 0b1011000_11001_01110_010_01101_0100011 = some (.sw 25#5 14#5 0b1011000_01101#12) := by decide

theorem test_decode_op_imm :
    decodeTableWord 32 0b101100111000_01110_000_10101_0010011 = some (.addi 21#5 14#5 0b101100111000#12) ∧
    decodeTableWord 32 0b101100111000_01110_010_10101_0010011 = some (.slti 21#5 14#5 0b101100111000#12) ∧
    decodeTableWord 32 0b101100111000_01110_011_10101_0010011 = some (.sltiu 21#5 14#5 0b101100111000#12) ∧
    decodeTableWord 32 0b101100111000_01110_100_10101_0010011 = some (.xori 21#5 14#5 0b101100111000#12) ∧
    decodeTableWord 32 0b101100111000_01110_110_10101_0010011 = some (.ori 21#5 14#5 0b101100111000#12) ∧
    decodeTableWord 32 0b101100111000_01110_111_10101_0010011 = some (.andi 21#5 14#5 0b101100111000#12) := by decide

theorem test_decode_shift_imm :
    decodeTableWord 32 0b0000000_11001_01110_001_10101_0010011 = some (.slli 21#5 14#5 25#5) ∧
    decodeTableWord 32 0b0000000_11001_01110_101_10101_0010011 = some (.srli 21#5 14#5 25#5) ∧
    decodeTableWord 32 0b0100000_11001_01110_101_10101_0010011 = some (.srai 21#5 14#5 25#5) := by decide

theorem test_decode_op :
    decodeTableWord 32 0b0000000_11001_01110_000_10101_0110011 = some (.add 21#5 14#5 25#5) ∧
    decodeTableWord 32 0b0100000_11001_01110_000_10101_0110011 = some (.sub 21#5 14#5 25#5) ∧
    decodeTableWord 32 0b0000000_11001_01110_001_10101_0110011 = some (.sll 21#5 14#5 25#5) ∧
    decodeTableWord 32 0b0000000_11001_01110_010_10101_0110011 = some (.slt 21#5 14#5 25#5) ∧
    decodeTableWord 32 0b0000000_11001_01110_011_10101_0110011 = some (.sltu 21#5 14#5 25#5) ∧
    decodeTableWord 32 0b0000000_11001_01110_100_10101_0110011 = some (.xor 21#5 14#5 25#5) ∧
    decodeTableWord 32 0b0000000_11001_01110_101_10101_0110011 = some (.srl 21#5 14#5 25#5) ∧
    decodeTableWord 32 0b0100000_11001_01110_101_10101_0110011 = some (.sra 21#5 14#5 25#5) ∧
    decodeTableWord 32 0b0000000_11001_01110_110_10101_0110011 = some (.or 21#5 14#5 25#5) ∧
    decodeTableWord 32 0b0000000_11001_01110_111_10101_0110011 = some (.and 21#5 14#5 25#5) := by decide

theorem test_decode_mul_div :
    decodeTableWord 32 0b0000001_11001_01110_000_10101_0110011 = some (.mul 21#5 14#5 25#5) ∧
    decodeTableWord 32 0b0000001_11001_01110_001_10101_0110011 = some (.mulh 21#5 14#5 25#5) ∧
    decodeTableWord 32 0b0000001_11001_01110_010_10101_0110011 = some (.mulhsu 21#5 14#5 25#5) ∧
    decodeTableWord 32 0b0000001_11001_01110_011_10101_0110011 = some (.mulhu 21#5 14#5 25#5) ∧
    decodeTableWord 32 0b0000001_11001_01110_100_10101_0110011 = some (.div 21#5 14#5 25#5) ∧
    decodeTableWord 32 0b0000001_11001_01110_101_10101_0110011 = some (.divu 21#5 14#5 25#5) ∧
    decodeTableWord 32 0b0000001_11001_01110_110_10101_0110011 = some (.rem 21#5 14#5 25#5) ∧
    decodeTableWord 32 0b0000001_11001_01110_111_10101_0110011 = some (.remu 21#5 14#5 25#5) := by decide

theorem test_decode_misc_mem :
    decodeTableWord 32 0b101100111000_01110_000_10101_0001111 = some (.fence) ∧
    decodeTableWord 32 0b101100111000_01110_001_10101_0001111 = some (.fenceI) := by decide

theorem test_decode_system :
    decodeTableWord 32 0b000000000000_00000_000_00000_1110011 = some (.ecall) ∧
    decodeTableWord 32 0b000000000001_00000_000_00000_1110011 = some (.ebreak) ∧
    decodeTableWord 32 0b001100000010_00000_000_00000_1110011 = some (.mret) := by decide

theorem test_decode_csr :
    decodeTableWord 32 0b001101000000_01110_001_10101_1110011 = some (.csrrw 21#5 0x340#12 14#5) ∧
    decodeTableWord 32 0b001101000000_01110_010_10101_1110011 = some (.csrrs 21#5 0x340#12 14#5) ∧
    decodeTableWord 32 0b001101000000_01110_011_10101_1110011 = some (.csrrc 21#5 0x340#12 14#5) ∧
    decodeTableWord 32 0b001101000000_01110_101_10101_1110011 = some (.csrrwi 21#5 0x340#12 14#5) ∧
    decodeTableWord 32 0b001101000000_01110_110_10101_1110011 = some (.csrrsi 21#5 0x340#12 14#5) ∧
    decodeTableWord 32 0b001101000000_01110_111_10101_1110011 = some (.csrrci 21#5 0x340#12 14#5) := by decide

theorem test_decode_custom0 :
    decodeTableWord 32 0b101100111000_01110_000_10101_0001011 = some (.exiti 0b101100111000#12) ∧
    decodeTableWord 32 0b101100111000_01110_001_10101_0001011 = some (.exit 14#5) ∧
    decodeTableWord 32 0b101100111000_01110_010_10101_0001011 = some (.iocall 0b101100111000#12) := by decide

/-! ## OP-IMM, LUI, AUIPC (section 2.1) -/

theorem test_addi_wraps :
    after (start 0x80000000#32 0x00110193 [(2#5, 0x7FFFFFFF#32)]) (fun t => (t.x 3#5, t.pc)) = some (0x80000000#32, 0x80000004#32) := by decide

theorem test_addi_x0 :
    after (start 0x80000000#32 0x00508013 [(1#5, 0x00000009#32)]) (fun t => (t.x 0#5, t.pc)) = some (0x00000000#32, 0x80000004#32) := by decide

theorem test_slti :
    after (start 0x80000000#32 0x8000A113 [(1#5, 0x80000000#32)]) (fun t => (t.x 2#5, t.pc)) = some (0x00000001#32, 0x80000004#32) := by decide

theorem test_sltiu :
    after (start 0x80000000#32 0xFFF0B113 [(1#5, 0x00000005#32)]) (fun t => (t.x 2#5, t.pc)) = some (0x00000001#32, 0x80000004#32) := by decide

theorem test_xori :
    after (start 0x80000000#32 0xFFF0C113 [(1#5, 0x0000FF00#32)]) (fun t => (t.x 2#5, t.pc)) = some (0xFFFF00FF#32, 0x80000004#32) := by decide

theorem test_ori :
    after (start 0x80000000#32 0x80006113 []) (fun t => (t.x 2#5, t.pc)) = some (0xFFFFF800#32, 0x80000004#32) := by decide

theorem test_andi :
    after (start 0x80000000#32 0x0FF0F113 [(1#5, 0x12345678#32)]) (fun t => (t.x 2#5, t.pc)) = some (0x00000078#32, 0x80000004#32) := by decide

theorem test_slli :
    after (start 0x80000000#32 0x01F09113 [(1#5, 0x00000001#32)]) (fun t => (t.x 2#5, t.pc)) = some (0x80000000#32, 0x80000004#32) := by decide

theorem test_srli :
    after (start 0x80000000#32 0x01F0D113 [(1#5, 0x80000000#32)]) (fun t => (t.x 2#5, t.pc)) = some (0x00000001#32, 0x80000004#32) := by decide

theorem test_srai :
    after (start 0x80000000#32 0x40435293 [(6#5, 0xF0000000#32)]) (fun t => (t.x 5#5, t.pc)) = some (0xFF000000#32, 0x80000004#32) := by decide

theorem test_slli_bit30 :
    after (start 0x80000000#32 0x40109113 [(1#5, 0x00000001#32)]) trapOf = some (0x80000000#32, 2#32, 0x40109113#32, 0x80000100#32) := by decide

theorem test_lui :
    after (start 0x80000000#32 0xFFFFF0B7 []) (fun t => (t.x 1#5, t.pc)) = some (0xFFFFF000#32, 0x80000004#32) := by decide

theorem test_auipc_wraps :
    after (start 0x80000010#32 0x80000097 []) (fun t => (t.x 1#5, t.pc)) = some (0x00000010#32, 0x80000014#32) := by decide

/-! ## OP (section 2.2) -/

theorem test_add_wraps :
    after (start 0x80000000#32 0x002081B3 [(1#5, 0xFFFFFFFF#32), (2#5, 0x00000001#32), (3#5, 0x00000009#32)]) (fun t => (t.x 3#5, t.pc)) = some (0x00000000#32, 0x80000004#32) := by decide

theorem test_sub :
    after (start 0x80000000#32 0x402081B3 [(1#5, 0x80000000#32), (2#5, 0x00000001#32)]) (fun t => (t.x 3#5, t.pc)) = some (0x7FFFFFFF#32, 0x80000004#32) := by decide

theorem test_sll_amount_32 :
    after (start 0x80000000#32 0x002091B3 [(1#5, 0x00000001#32), (2#5, 0x00000020#32)]) (fun t => (t.x 3#5, t.pc)) = some (0x00000001#32, 0x80000004#32) := by decide

theorem test_srl :
    after (start 0x80000000#32 0x0020D1B3 [(1#5, 0x80000000#32), (2#5, 0xFFFFFFFF#32)]) (fun t => (t.x 3#5, t.pc)) = some (0x00000001#32, 0x80000004#32) := by decide

theorem test_sra :
    after (start 0x80000000#32 0x4020D1B3 [(1#5, 0x80000000#32), (2#5, 0x00000024#32)]) (fun t => (t.x 3#5, t.pc)) = some (0xF8000000#32, 0x80000004#32) := by decide

theorem test_slt :
    after (start 0x80000000#32 0x0020A1B3 [(1#5, 0x7FFFFFFF#32), (2#5, 0x80000000#32), (3#5, 0x00000005#32)]) (fun t => (t.x 3#5, t.pc)) = some (0x00000000#32, 0x80000004#32) := by decide

theorem test_sltu :
    after (start 0x80000000#32 0x0020B1B3 [(1#5, 0xFFFFFFFF#32), (2#5, 0x00000001#32), (3#5, 0x00000005#32)]) (fun t => (t.x 3#5, t.pc)) = some (0x00000000#32, 0x80000004#32) := by decide

theorem test_xor :
    after (start 0x80000000#32 0x0020C1B3 [(1#5, 0xFF00FF00#32), (2#5, 0x0FF00FF0#32)]) (fun t => (t.x 3#5, t.pc)) = some (0xF0F0F0F0#32, 0x80000004#32) := by decide

theorem test_or :
    after (start 0x80000000#32 0x0020E1B3 [(1#5, 0xFF00FF00#32), (2#5, 0x0FF00FF0#32)]) (fun t => (t.x 3#5, t.pc)) = some (0xFFF0FFF0#32, 0x80000004#32) := by decide

theorem test_and :
    after (start 0x80000000#32 0x0020F1B3 [(1#5, 0xFF00FF00#32), (2#5, 0x0FF00FF0#32)]) (fun t => (t.x 3#5, t.pc)) = some (0x0F000F00#32, 0x80000004#32) := by decide

theorem test_op_bad_funct7 :
    after (start 0x80000000#32 0x402091B3 []) trapOf = some (0x80000000#32, 2#32, 0x402091B3#32, 0x80000100#32) := by decide

/-! ## M extension (section 2.3) -/

theorem test_mul :
    after (start 0x80000000#32 0x022081B3 [(1#5, 0x12345678#32), (2#5, 0x9ABCDEF0#32)]) (fun t => (t.x 3#5, t.pc)) = some (0x242D2080#32, 0x80000004#32) := by decide

theorem test_mulh :
    after (start 0x80000000#32 0x022091B3 [(1#5, 0x12345678#32), (2#5, 0x9ABCDEF0#32)]) (fun t => (t.x 3#5, t.pc)) = some (0xF8CC93D6#32, 0x80000004#32) := by decide

theorem test_mulhsu :
    after (start 0x80000000#32 0x0220A1B3 [(1#5, 0x80000000#32), (2#5, 0xFFFFFFFF#32)]) (fun t => (t.x 3#5, t.pc)) = some (0x80000000#32, 0x80000004#32) := by decide

theorem test_mulhu :
    after (start 0x80000000#32 0x0220B1B3 [(1#5, 0x12345678#32), (2#5, 0x9ABCDEF0#32)]) (fun t => (t.x 3#5, t.pc)) = some (0x0B00EA4E#32, 0x80000004#32) := by decide

theorem test_div_toward_zero :
    after (start 0x80000000#32 0x0220C1B3 [(1#5, 0xFFFFFFF9#32), (2#5, 0x00000002#32)]) (fun t => (t.x 3#5, t.pc)) = some (0xFFFFFFFD#32, 0x80000004#32) := by decide

theorem test_div_overflow :
    after (start 0x80000000#32 0x0220C1B3 [(1#5, 0x80000000#32), (2#5, 0xFFFFFFFF#32)]) (fun t => (t.x 3#5, t.pc)) = some (0x80000000#32, 0x80000004#32) := by decide

theorem test_divu :
    after (start 0x80000000#32 0x0220D1B3 [(1#5, 0xFFFFFFF9#32), (2#5, 0x00000002#32)]) (fun t => (t.x 3#5, t.pc)) = some (0x7FFFFFFC#32, 0x80000004#32) := by decide

theorem test_divu_by_zero :
    after (start 0x80000000#32 0x0220D1B3 [(1#5, 0x00000007#32), (2#5, 0x00000000#32)]) (fun t => (t.x 3#5, t.pc)) = some (0xFFFFFFFF#32, 0x80000004#32) := by decide

theorem test_rem_sign :
    after (start 0x80000000#32 0x0220E1B3 [(1#5, 0xFFFFFFF9#32), (2#5, 0x00000002#32)]) (fun t => (t.x 3#5, t.pc)) = some (0xFFFFFFFF#32, 0x80000004#32) := by decide

theorem test_rem_overflow :
    after (start 0x80000000#32 0x0220E1B3 [(1#5, 0x80000000#32), (2#5, 0xFFFFFFFF#32)]) (fun t => (t.x 3#5, t.pc)) = some (0x00000000#32, 0x80000004#32) := by decide

theorem test_remu :
    after (start 0x80000000#32 0x0220F1B3 [(1#5, 0xFFFFFFF9#32), (2#5, 0x00000002#32)]) (fun t => (t.x 3#5, t.pc)) = some (0x00000001#32, 0x80000004#32) := by decide

theorem test_remu_by_zero :
    after (start 0x80000000#32 0x0220F1B3 [(1#5, 0xFFFFFFFF#32), (2#5, 0x00000000#32)]) (fun t => (t.x 3#5, t.pc)) = some (0xFFFFFFFF#32, 0x80000004#32) := by decide

/-! ## Jumps and branches (section 2.4) -/

theorem test_jal_back :
    after (start 0x80000008#32 0xFFDFF0EF []) (fun t => (t.x 1#5, t.pc)) = some (0x8000000C#32, 0x80000004#32) := by decide

theorem test_jal_misaligned :
    after (start 0x80000008#32 0x002000EF [(1#5, 0x00000077#32)]) trapOf = some (0x80000008#32, 0#32, 0x8000000A#32, 0x80000100#32) := by decide

theorem test_jalr_same_register :
    after (start 0x80000008#32 0x000080E7 [(1#5, 0x80000040#32)]) (fun t => (t.x 1#5, t.pc)) = some (0x8000000C#32, 0x80000040#32) := by decide

theorem test_jalr_clears_bit0 :
    after (start 0x80000008#32 0x000280E7 [(5#5, 0x80000021#32)]) (fun t => (t.x 1#5, t.pc)) = some (0x8000000C#32, 0x80000020#32) := by decide

theorem test_beq_taken :
    after (start 0x80000008#32 0x00208863 [(1#5, 0x00000005#32), (2#5, 0x00000005#32)]) (fun t => t.pc) = some 0x80000018#32 := by decide

theorem test_beq_not_taken :
    after (start 0x80000008#32 0x00208863 [(1#5, 0x00000005#32), (2#5, 0x00000006#32)]) (fun t => t.pc) = some 0x8000000C#32 := by decide

theorem test_bne_taken :
    after (start 0x80000008#32 0x00209863 [(1#5, 0x00000005#32), (2#5, 0x00000006#32)]) (fun t => t.pc) = some 0x80000018#32 := by decide

theorem test_bne_not_taken :
    after (start 0x80000008#32 0x00209863 [(1#5, 0x00000005#32), (2#5, 0x00000005#32)]) (fun t => t.pc) = some 0x8000000C#32 := by decide

theorem test_blt_taken :
    after (start 0x80000008#32 0x0020C863 [(1#5, 0xFFFFFFFF#32), (2#5, 0x00000001#32)]) (fun t => t.pc) = some 0x80000018#32 := by decide

theorem test_blt_not_taken :
    after (start 0x80000008#32 0x0020C863 [(1#5, 0x00000001#32), (2#5, 0xFFFFFFFF#32)]) (fun t => t.pc) = some 0x8000000C#32 := by decide

theorem test_bge_taken :
    after (start 0x80000008#32 0x0020D863 [(1#5, 0x00000001#32), (2#5, 0xFFFFFFFF#32)]) (fun t => t.pc) = some 0x80000018#32 := by decide

theorem test_bge_not_taken :
    after (start 0x80000008#32 0x0020D863 [(1#5, 0xFFFFFFFF#32), (2#5, 0x00000001#32)]) (fun t => t.pc) = some 0x8000000C#32 := by decide

theorem test_bltu_taken :
    after (start 0x80000008#32 0x0020E863 [(1#5, 0x00000001#32), (2#5, 0xFFFFFFFF#32)]) (fun t => t.pc) = some 0x80000018#32 := by decide

theorem test_bltu_not_taken :
    after (start 0x80000008#32 0x0020E863 [(1#5, 0xFFFFFFFF#32), (2#5, 0x00000001#32)]) (fun t => t.pc) = some 0x8000000C#32 := by decide

theorem test_bgeu_taken :
    after (start 0x80000008#32 0x0020F863 [(1#5, 0xFFFFFFFF#32), (2#5, 0x00000001#32)]) (fun t => t.pc) = some 0x80000018#32 := by decide

theorem test_bgeu_not_taken :
    after (start 0x80000008#32 0x0020F863 [(1#5, 0x00000001#32), (2#5, 0xFFFFFFFF#32)]) (fun t => t.pc) = some 0x8000000C#32 := by decide

theorem test_branch_misaligned_taken :
    after (start 0x80000008#32 0x00000163 []) trapOf = some (0x80000008#32, 0#32, 0x8000000A#32, 0x80000100#32) := by decide

theorem test_branch_misaligned_not_taken :
    after (start 0x80000008#32 0x00001163 []) (fun t => t.pc) = some 0x8000000C#32 := by decide

/-! ## Loads, stores, MISC-MEM (section 2.5) -/

theorem test_lb :
    after (withData (start 0x80000000#32 0x00310283 [(2#5, 0x80000200#32), (5#5, 0x55555555#32)])) (fun t => (t.x 5#5, t.pc)) = some (0xFFFFFF88#32, 0x80000004#32) := by decide

theorem test_lbu :
    after (withData (start 0x80000000#32 0x00314283 [(2#5, 0x80000200#32), (5#5, 0x55555555#32)])) (fun t => (t.x 5#5, t.pc)) = some (0x00000088#32, 0x80000004#32) := by decide

theorem test_lh :
    after (withData (start 0x80000000#32 0x00211283 [(2#5, 0x80000200#32), (5#5, 0x55555555#32)])) (fun t => (t.x 5#5, t.pc)) = some (0xFFFF8899#32, 0x80000004#32) := by decide

theorem test_lhu :
    after (withData (start 0x80000000#32 0x00215283 [(2#5, 0x80000200#32), (5#5, 0x55555555#32)])) (fun t => (t.x 5#5, t.pc)) = some (0x00008899#32, 0x80000004#32) := by decide

theorem test_lw :
    after (withData (start 0x80000000#32 0x7FF12283 [(2#5, 0x7FFFFA05#32)])) (fun t => (t.x 5#5, t.pc)) = some (0x11223344#32, 0x80000004#32) := by decide

theorem test_lw_wrapped :
    after (withData (start 0x80000000#32 0x00012283 [(2#5, 0x80010200#32)])) (fun t => (t.x 5#5, t.pc)) = some (0x8899AABB#32, 0x80000004#32) := by decide

theorem test_lbu_mmio :
    after (withData (start 0x80000000#32 0x00014283 [(2#5, 0x00001000#32)])) (fun t => (t.x 5#5, t.pc)) = some (0x000000FF#32, 0x80000004#32) := by decide

theorem test_lh_mmio :
    after (withData (start 0x80000000#32 0x00011283 [(2#5, 0x00001000#32)])) (fun t => (t.x 5#5, t.pc)) = some (0xFFFFFFFF#32, 0x80000004#32) := by decide

theorem test_lw_misaligned :
    after (withData (start 0x80000000#32 0x00212283 [(2#5, 0x80000200#32), (5#5, 0x55555555#32)])) trapOf = some (0x80000000#32, 4#32, 0x80000202#32, 0x80000100#32) := by decide

theorem test_lhu_misaligned :
    after (withData (start 0x80000000#32 0x00315283 [(2#5, 0x80000200#32), (5#5, 0x55555555#32)])) trapOf = some (0x80000000#32, 4#32, 0x80000203#32, 0x80000100#32) := by decide

theorem test_sb :
    after (withData (start 0x80000000#32 0x001100A3 [(1#5, 0xA1B2C3D4#32), (2#5, 0x80000200#32)])) (fun t => (t.busRead 0x80000200#32 .word, t.pc)) = some (0x8899D4BB#32, 0x80000004#32) := by decide

theorem test_sh :
    after (withData (start 0x80000000#32 0x00111123 [(1#5, 0xA1B2C3D4#32), (2#5, 0x80000200#32)])) (fun t => (t.busRead 0x80000200#32 .word, t.pc)) = some (0xC3D4AABB#32, 0x80000004#32) := by decide

theorem test_sw :
    after (withData (start 0x80000000#32 0xFE112E23 [(1#5, 0xA1B2C3D4#32), (2#5, 0x80000204#32)])) (fun t => (t.busRead 0x80000200#32 .word, t.pc)) = some (0xA1B2C3D4#32, 0x80000004#32) := by decide

theorem test_sw_wrapped :
    after (withData (start 0x80000040#32 0x00112023 [(1#5, 0xA1B2C3D4#32), (2#5, 0x80010000#32)])) (fun t => (t.busRead 0x80000000#32 .word, t.pc)) = some (0xA1B2C3D4#32, 0x80000044#32) := by decide

theorem test_sh_misaligned :
    after (withData (start 0x80000000#32 0x001110A3 [(1#5, 0xA1B2C3D4#32), (2#5, 0x80000200#32)])) trapOf = some (0x80000000#32, 6#32, 0x80000201#32, 0x80000100#32) := by decide

theorem test_sw_misaligned :
    after (withData (start 0x80000000#32 0x00112123 [(1#5, 0xA1B2C3D4#32), (2#5, 0x80000200#32)]))
      (fun t => (trapOf t, t.busRead 0x80000200#32 .word))
    = some ((0x80000000#32, 6#32, 0x80000202#32, 0x80000100#32), 0x8899AABB#32) := by decide

theorem test_fence : after (start 0x80000000#32 0x0FF7878F []) (fun t => t.pc) = some 0x80000004#32 := by decide

theorem test_fenceI : after (start 0x80000000#32 0x0000100F []) (fun t => t.pc) = some 0x80000004#32 := by decide

theorem test_misc_mem_funct3_2 :
    after (start 0x80000000#32 0x0000200F []) trapOf = some (0x80000000#32, 2#32, 0x0000200F#32, 0x80000100#32) := by decide

/-! ## SYSTEM and CSRs (section 2.6) -/

theorem test_ecall :
    after (start 0x80000010#32 0x00000073 []) trapOf = some (0x80000010#32, 11#32, 0x00000000#32, 0x80000100#32) := by decide

theorem test_ebreak :
    after (start 0x80000010#32 0x00100073 []) trapOf = some (0x80000010#32, 3#32, 0x00000000#32, 0x80000100#32) := by decide

theorem test_ecall_low_bits_of_mtvec :
    after { start 0x80000010#32 0x00000073 [] with mtvec := 0x80000103#32 } (fun t => t.pc) = some 0x80000100#32 := by decide

theorem test_mret :
    after { start 0x80000100#32 0x30200073 [] with mepc := 0x80000020#32, mcause := 11#32 }
      (fun t => (t.pc, t.mepc, t.mcause)) = some (0x80000020#32, 0x80000020#32, 11#32) := by decide

theorem test_wfi_word :
    after (start 0x80000000#32 0x10500073 []) trapOf = some (0x80000000#32, 2#32, 0x10500073#32, 0x80000100#32) := by decide

theorem test_csrrw_mtvec :
    after { start 0x80000000#32 0x30529373 [(5#5, 0x00001237#32)] with mtvec := 0x80000100#32 } (fun t => (t.x 6#5, t.mtvec)) = some (0x80000100#32, 0x00001234#32) := by decide

theorem test_csrrw_swap :
    after { start 0x80000000#32 0x340292F3 [(5#5, 0x00001111#32)] with mscratch := 0x2222#32 } (fun t => (t.x 5#5, t.mscratch)) = some (0x00002222#32, 0x00001111#32) := by decide

theorem test_csrrs :
    after { start 0x80000000#32 0x3402A373 [(5#5, 0x000000F0#32)] with mscratch := 0xABCD#32 } (fun t => (t.x 6#5, t.mscratch)) = some (0x0000ABCD#32, 0x0000ABFD#32) := by decide

theorem test_csrrs_zero_source :
    after { start 0x80000000#32 0x3402A373 [(5#5, 0x00000000#32), (6#5, 0x00000009#32)] with mscratch := 0xABCD#32 } (fun t => (t.x 6#5, t.mscratch)) = some (0x0000ABCD#32, 0x0000ABCD#32) := by decide

theorem test_csrrc :
    after { start 0x80000000#32 0x3402B373 [(5#5, 0x000000F0#32)] with mscratch := 0xABCD#32 } (fun t => (t.x 6#5, t.mscratch)) = some (0x0000ABCD#32, 0x0000AB0D#32) := by decide

theorem test_csrrwi :
    after { start 0x80000000#32 0x340FD373 [] with mscratch := 0xABCD#32 } (fun t => (t.x 6#5, t.mscratch)) = some (0x0000ABCD#32, 0x0000001F#32) := by decide

theorem test_csrrwi_zero :
    after { start 0x80000000#32 0x34005073 [] with mscratch := 0xABCD#32 } (fun t => (t.x 0#5, t.mscratch)) = some (0x00000000#32, 0x00000000#32) := by decide

theorem test_csrrsi :
    after { start 0x80000000#32 0x3401E373 [] with mscratch := 0xABC0#32 } (fun t => (t.x 6#5, t.mscratch)) = some (0x0000ABC0#32, 0x0000ABC3#32) := by decide

theorem test_csrrci :
    after { start 0x80000000#32 0x340FF373 [] with mscratch := 0xABCD#32 } (fun t => (t.x 6#5, t.mscratch)) = some (0x0000ABCD#32, 0x0000ABC0#32) := by decide

theorem test_csrrw_misa :
    after (start 0x80000000#32 0x30129373 [(5#5, 0x1234#32), (6#5, 9#32)]) (fun t => (t.x 6#5, t.csrRead 0x301#12))
    = some (0x40001100#32, 0x40001100#32) := by decide

theorem test_csr_unknown :
    after (start 0x80000000#32 0x30029373 [(5#5, 8#32), (6#5, 9#32)]) (fun t => (t.x 6#5, t.csrRead 0x300#12))
    = some (0#32, 0#32) := by decide

/-! ## custom-0 (section 2.7) -/

theorem test_exiti :
    after (start 0x80000000#32 0xFFF0000B []) (fun t => (t.run, t.pc)) = some (.halted 0xFFFFFFFF#32, 0x80000000#32) := by decide

theorem test_exit_ignored_fields :
    after (start 0x80000000#32 0xFFF09F8B [(1#5, 0x12345678#32)]) (fun t => t.run) = some (.halted 0x12345678#32) := by decide

/-- The host's result in `x10` is a free value; what the vector fixes is the call it gets and the rest. -/
theorem test_iocall :
    (start 0x80000000#32 0x0000200B [(10#5, 0x41#32), (11#5, 7#32)]).bridgeCallOf 0#32
      = ⟨0#32, #v[0x41#32, 7#32, 0#32, 0#32, 0#32, 0#32, 0#32, 0#32]⟩ ∧
    after (start 0x80000000#32 0x0000200B [(10#5, 0x41#32), (11#5, 7#32)]) (fun t => (t.x 11#5, t.pc))
      = some (7#32, 0x80000004#32) := by decide

theorem test_custom0_funct3_3 :
    after (start 0x80000000#32 0x0000300B []) trapOf = some (0x80000000#32, 2#32, 0x0000300B#32, 0x80000100#32) := by decide

/-! ## Illegal words, fetch, boot (sections 2.8, 2.9; P1 and P6) -/

theorem test_illegal_zero_word :
    after (start 0x80000000#32 0x00000000 []) trapOf = some (0x80000000#32, 2#32, 0x00000000#32, 0x80000100#32) := by decide

theorem test_illegal_amo :
    after (start 0x80000000#32 0x0000202F []) trapOf = some (0x80000000#32, 2#32, 0x0000202F#32, 0x80000100#32) := by decide

theorem test_abort_on_illegal :
    after { start 0x80000000#32 0 [] with cfg := abortCfg, mcause := 0x55#32 } (fun t => (t.run, t.pc, t.mcause))
    = some (.aborted, 0x80000000#32, 0x55#32) := by decide

theorem test_fetch_from_mmio :
    after { start 0x80000000#32 0 [] with pc := 0x00001000#32 } trapOf
    = some (0x00001000#32, 2#32, 0xFFFFFFFF#32, 0x80000100#32) := by decide

/-- With nothing loaded, boot under CFG0 is the state after reset. -/
theorem test_boot_empty : bootState Config.cfg0 ResetValues.named [] = some State.reset := by decide

/-- Image of P1: the first byte of the image is the lowest byte of the first word. -/
theorem test_boot_image :
    ((bootState Config.cfg0 ResetValues.named [0x93#8, 0x00#8, 0x50#8, 0x00#8]).map fun s => (s.pc, s.fetchWord))
    = some (0x80000000#32, 0x00500093#32) := by decide

/-- The dump of P2's end: the stored word, then a word nothing wrote. -/
theorem test_dump :
    (State.reset.busWrite 0x80001000#32 .word 0x37#32).dumpLines 0x80001000 0x80001008 = ["00000037", "00000000"] := by
  decide

/-- S6: the DMA accessor at the end of RAM. -/
theorem test_dma_bounds :
    State.reset.dmaAdmits 0x80010000#32 1#32 = false ∧ State.reset.dmaAdmits 0x8000FFFF#32 1#32 = true ∧
    State.reset.dmaAdmits 0x8000FFFF#32 2#32 = false ∧ State.reset.dmaAdmits 0x7FFFFFFF#32 1#32 = false := by decide

/-- S1: the five immediates of the word 0xAAAAAAAA. -/
theorem test_immediates :
    (immVal (immIOf 0xAAAAAAAA#32), immVal (immSOf 0xAAAAAAAA#32), offsetB (immBOf 0xAAAAAAAA#32),
      immUVal (immUOf 0xAAAAAAAA#32), offsetJ (immJOf 0xAAAAAAAA#32))
    = (0xFFFFFAAA#32, 0xFFFFFAB5#32, 0xFFFFFAB4#32, 0xAAAAA000#32, 0xFFFAA2AA#32) := by decide

/-- The instruction after reset with a word placed is that word (log 17). -/
theorem test_with_fetch_word :
    (State.reset.withFetchWord 32 0x0050000B).fetchWord = 0x0050000B#32 ∧
    (State.reset.withFetchWord 32 0x0050000B).pc = State.reset.pc := by decide

/-- R89, S7: the text of `SW x1, -4(x2)`. -/
theorem test_text : instrText false (.sw 1#5 2#5 0xFFC#12) = "SW x1, -4(x2)" := by decide

/-- R91: `LI` with a low part whose sign bit is set. -/
theorem test_li : expand (.li 5#5 0x12345FFF#32) = [.lui 5#5 0x12346#20, .addi 5#5 5#5 0xFFF#12] := by decide

/-! ## Witnesses: for each obligation with hypotheses, a state and operands that meet them all -/

/-- Every `Selects` premise: each row's match word is selected by the row. -/
theorem witness_Selects : ∀ r ∈ opcodeTable, r.value &&& r.mask = r.value := by decide

theorem witness_ShiftImmediate :
    (0x40109113#32 &&& 0x0000707F#32 = 0x00001013#32 ∧ 0x40109113#32 &&& 0xFE000000#32 ≠ 0#32) ∧
    (0xC010D113#32 &&& 0x0000707F#32 = 0x00005013#32 ∧ 0xC010D113#32 &&& 0xBE000000#32 ≠ 0#32) := by decide

/-- The state of the special cases: the most negative dividend, divisor -1. -/
def divState : State := start 0x80000000#32 0x0220C1B3 [(1#5, 0x80000000#32), (2#5, 0xFFFFFFFF#32)]

theorem witness_DivisionIdentity :
    ∃ q r qu ru : State, (3#5 : Reg) ≠ 0#5 ∧ exec (.div 3#5 1#5 2#5) divState = .next q ∧
      exec (.rem 3#5 1#5 2#5) divState = .next r ∧ exec (.divu 3#5 1#5 2#5) divState = .next qu ∧
      exec (.remu 3#5 1#5 2#5) divState = .next ru ∧ divState.x 2#5 ≠ 0#32 :=
  ⟨_, _, _, _, by decide, rfl, rfl, rfl, rfl, by decide⟩

/-- A state at 0x80000008 with 5 in x1 and -1 in x2. -/
def branchState : State := start 0x80000008#32 0 [(1#5, 5#32), (2#5, 0xFFFFFFFF#32)]

theorem witness_JalLinksAndJumps :
    (branchState.pc + (0x1FFFFC#21).signExtend 32) &&& 3#32 = 0#32 ∧
    (branchState.pc + (2#21).signExtend 32) &&& 3#32 ≠ 0#32 := by decide

theorem witness_JalrLinksAndJumps :
    (0x000290E7#32 &&& 0x0000007F#32 = 0x00000067#32 ∧ 0x000290E7#32 &&& 0x00007000#32 ≠ 0#32) ∧
    ((branchState.x 1#5 + (0xFFC#12).signExtend 32) &&& 0xFFFFFFFE#32) &&& 3#32 = 0#32 ∧
    ((branchState.x 1#5 + (1#12).signExtend 32) &&& 0xFFFFFFFE#32) &&& 3#32 ≠ 0#32 := by decide

/-- The two targets a taken branch tests. -/
theorem witness_branch_targets :
    (branchState.pc + (0x1FFC#13).signExtend 32) &&& 3#32 = 0#32 ∧
    (branchState.pc + (2#13).signExtend 32) &&& 3#32 ≠ 0#32 := by decide

/-- Taken and not taken, for each of the six conditions. -/
theorem witness_branch_conditions :
    (branchState.x 1#5 = branchState.x 1#5 ∧ ¬ branchState.x 1#5 = branchState.x 2#5) ∧
    (branchState.x 1#5 ≠ branchState.x 2#5 ∧ ¬ branchState.x 1#5 ≠ branchState.x 1#5) ∧
    ((branchState.x 2#5).toInt < (branchState.x 1#5).toInt ∧ ¬ (branchState.x 1#5).toInt < (branchState.x 2#5).toInt) ∧
    ((branchState.x 2#5).toInt ≤ (branchState.x 1#5).toInt ∧ ¬ (branchState.x 1#5).toInt ≤ (branchState.x 2#5).toInt) ∧
    ((branchState.x 1#5).toNat < (branchState.x 2#5).toNat ∧ ¬ (branchState.x 2#5).toNat < (branchState.x 1#5).toNat) ∧
    ((branchState.x 1#5).toNat ≤ (branchState.x 2#5).toNat ∧ ¬ (branchState.x 2#5).toNat ≤ (branchState.x 1#5).toNat) := by
  decide

/-- At an aligned `pc`: decoded jumps and branches with bit 1 of the offset set and clear, and both sums of a `JALR`.
(`witness_branch_conditions` has the states where each branch is taken.) -/
theorem witness_TargetFailsOnlyInBitOne :
    branchState.pc &&& 3#32 = 0#32 ∧
    (decode Config.cfg0 0x002000EF#32 = .ok (.jal 1#5 2#21) ∧ (2#21).getLsbD 1 = true) ∧
    (decode Config.cfg0 0x010000EF#32 = .ok (.jal 1#5 16#21) ∧ (16#21).getLsbD 1 = false) ∧
    (decode Config.cfg0 0x00108163#32 = .ok (.beq 1#5 1#5 2#13) ∧ (2#13).getLsbD 1 = true) ∧
    (decode Config.cfg0 0x00209863#32 = .ok (.bne 1#5 2#5 16#13) ∧ (16#13).getLsbD 1 = false) ∧
    decode Config.cfg0 0x00114163#32 = .ok (.blt 2#5 1#5 2#13) ∧ decode Config.cfg0 0x0020D863#32 = .ok (.bge 1#5 2#5 16#13) ∧
    decode Config.cfg0 0x0020E163#32 = .ok (.bltu 1#5 2#5 2#13) ∧ decode Config.cfg0 0x00117863#32 = .ok (.bgeu 2#5 1#5 16#13) ∧
    (branchState.x 1#5 + (1#12).signExtend 32).getLsbD 1 = true ∧
    (branchState.x 1#5 + (0xFFC#12).signExtend 32).getLsbD 1 = false :=
  ⟨by decide, ⟨rfl, rfl⟩, ⟨rfl, rfl⟩, ⟨rfl, rfl⟩, ⟨rfl, rfl⟩, rfl, rfl, rfl, rfl, by decide, by decide⟩

/-- A state for loads and stores: x2 names RAM, x4 the last byte below it, x6 the address `RAM_BASE + RAM_SIZE`. -/
def memState : State :=
  withData (start 0x80000000#32 0x00112223
    [(1#5, 0xA1B2C3D4#32), (2#5, 0x80000000#32), (4#5, 0x7FFFFFFF#32), (6#5, 0x80010000#32)])

/-- `done` and `trapped`, in RAM, at its first byte, and below it, for halves and words. -/
theorem witness_HalfAndWordLoads :
    (memState.x 2#5 + (0#12).signExtend 32) &&& 3#32 = 0#32 ∧ (memState.x 2#5 + (2#12).signExtend 32) &&& 3#32 ≠ 0#32 ∧
    (memState.x 2#5 + (2#12).signExtend 32) &&& 1#32 = 0#32 ∧ (memState.x 2#5 + (1#12).signExtend 32) &&& 1#32 ≠ 0#32 ∧
    (memState.x 4#5 + (0xFFD#12).signExtend 32) &&& 3#32 = 0#32 := by decide

/-- A permitted configuration, an aligned and a misaligned address, RAM's first byte and the device's last, and an
address whose byte is outside the stored ones. -/
theorem witness_StoresWriteMemory :
    memState.cfg.wf = true ∧ (memState.x 2#5 + (0#12).signExtend 32) &&& 3#32 = 0#32 ∧
    (memState.x 2#5 + (1#12).signExtend 32) &&& 1#32 ≠ 0#32 ∧ (memState.x 2#5 + (2#12).signExtend 32) &&& 3#32 ≠ 0#32 ∧
    isRam memState.cfg (memState.x 2#5) = true ∧ isRam memState.cfg (memState.x 4#5) = false ∧
    (memState.x 4#5 + (0#12).signExtend 32) &&& 0#32 = 0#32 ∧
    ¬ (unitKey memState.cfg 0x80000000#32 .word ≤ ramKey memState.cfg 0x80000004#32 ∧
      ramKey memState.cfg 0x80000004#32 < unitKey memState.cfg 0x80000000#32 .word + widthBytes .word) := by decide

theorem witness_LoadToZeroStillReads :
    platformCfg.wf = true ∧ ({ memState with cfg := platformCfg }).cfg.mmio = .platform ∧
    isRam platformCfg (({ memState with cfg := platformCfg }).x 4#5 + (0xFFD#12).signExtend 32) = false ∧
    (({ memState with cfg := platformCfg }).x 4#5 + (0xFFD#12).signExtend 32) &&& 3#32 = 0#32 := by decide

theorem witness_FencesDoNothing :
    0x0FF0000F#32 &&& 0x0000707F#32 = 0x0000000F#32 ∧ 0x0000100F#32 &&& 0x0000707F#32 = 0x0000100F#32 ∧
    0x0000200F#32 &&& 0x0000007F#32 = 0x0000000F#32 ∧ 0x0000200F#32 &&& 0x00006000#32 ≠ 0#32 := by decide

/-- RAM's first word and its last one in the address space. -/
theorem witness_LittleEndian :
    memState.cfg.wf = true ∧ isRam memState.cfg 0x80000000#32 = true ∧ 0x80000000#32 &&& 3#32 = 0#32 ∧
    isRam memState.cfg 0xFFFFFFFC#32 = true ∧ 0xFFFFFFFC#32 &&& 3#32 = 0#32 := by decide

theorem witness_RamWrapsAround :
    (isRam memState.cfg 0x80000200#32 = true ∧ isRam memState.cfg 0xFFFF0200#32 = true ∧
      (0x80000200#32).toNat % ramSize memState.cfg = (0xFFFF0200#32).toNat % ramSize memState.cfg) ∧
    memState.cfg.wf = true ∧ memState.cfg.ramBase.toNat + ramSize memState.cfg ≤ 0xFFFFFFFF := by decide

theorem witness_MmioHook :
    isRam memState.cfg 0x7FFFFFFF#32 = false ∧ memState.cfg.mmio = .default ∧ isRam platformCfg 0#32 = false := by decide

theorem witness_StoreThenLoad :
    ∃ t : State, memState.cfg.wf = true ∧ isRam memState.cfg (memState.x 6#5 + (0xFFC#12).signExtend 32) = true ∧
      (memState.x 6#5 + (0xFFC#12).signExtend 32) &&& 3#32 = 0#32 ∧ exec (.sw 1#5 6#5 0xFFC#12) memState = .next t :=
  ⟨_, by decide, by decide, by decide, rfl⟩

/-- The word at `pc` is `SW x1, 4(x2)` with x2 = `pc`. -/
theorem witness_StoreSeenByNextFetch :
    memState.cfg.wf = true ∧ memState.run = .running ∧ decode memState.cfg memState.fetchWord = .ok (.sw 1#5 2#5 4#12) ∧
    memState.x 2#5 + (4#12).signExtend 32 = memState.pc + 4#32 ∧ isRam memState.cfg (memState.pc + 4#32) = true ∧
    memState.pc &&& 3#32 = 0#32 :=
  ⟨by decide, rfl, rfl, by decide, by decide, by decide⟩

theorem witness_MretReturns :
    ({ memState with mepc := 0x80000020#32 }).mepc &&& 3#32 = 0#32 ∧
    ({ memState with mepc := 0x80000003#32 }).mepc &&& 3#32 ≠ 0#32 := by decide

/-- Both clauses of a conditional CSR write, and an address that neither map names. -/
theorem witness_CsrForms :
    memState.x 1#5 ≠ 0#32 ∧ memState.x 3#5 = 0#32 ∧
    (0x300#12) ∉ [0x301#12, 0x305#12, 0x340#12, 0x341#12, 0x342#12, 0x343#12, 0xF11#12, 0xF12#12, 0xF13#12, 0xF14#12] ∧
    (0xF14#12) ∉ [0x305#12, 0x340#12, 0x341#12, 0x342#12, 0x343#12] := by decide

theorem witness_ExitInstructions :
    Config.cfg0.wf = true ∧ 0xFFF09F8B#32 &&& 0x0000007F#32 = 0x0000000B#32 ∧
    funct3Of 0xFFF00F8B#32 = Config.cfg0.f3Exiti ∧ funct3Of 0xFFF09F8B#32 = Config.cfg0.f3Exit := by decide

/-- A host that always returns, and one that may block. -/
def blockCfg : Config := { Config.cfg0 with host := .mayBlock }

theorem witness_IocallCallsTheHost :
    Config.cfg0.wf = true ∧ 0x0000200B#32 &&& 0x0000007F#32 = 0x0000000B#32 ∧
    funct3Of 0x0000200B#32 = Config.cfg0.f3Iocall ∧ memState.cfg.host = .returns ∧
    ({ memState with cfg := blockCfg }).cfg.host = .mayBlock := by decide

/-- Arguments that name four bytes at the start of RAM, the last byte below it, and the bytes of `withData`. -/
def bridgeCall : BridgeCall := ⟨1#32, #v[0x80000000#32, 4#32, 0x7FFFFFFF#32, 0x80000200#32, 0#32, 0#32, 0#32, 0#32]⟩

/-- A `read` call that changes a byte, and each way to fail; four bytes at 0x80000200 hold no terminator. -/
theorem witness_BridgeStaysInWindow :
    memGet (memState.afterBridge bridgeCall (.read 0 1) fun _ => ⟨0#32, [0xAA#8]⟩).mem 0x80000000
      ≠ memGet memState.mem 0x80000000 ∧
    (bridgeBuffer bridgeCall (.write 2 1) = some (0x7FFFFFFF#32, 4#32) ∧ memState.dmaAdmits 0x7FFFFFFF#32 4#32 = false) ∧
    (bridgeBuffer bridgeCall (.path 2) = some (0x7FFFFFFF#32, Config.pathLength 0x7FFFFFFF#32) ∧
      memState.dmaAdmits 0x7FFFFFFF#32 (Config.pathLength 0x7FFFFFFF#32) = false) ∧
    ∀ i, i < (4#32).toNat → memGet memState.mem ((0x80000200#32).toNat + i) ≠ 0#8 :=
  ⟨by decide, ⟨rfl, rfl⟩, ⟨rfl, rfl⟩, by decide⟩

/-- No argument of `memState` is an address of RAM. -/
theorem memState_no_buffer (number : Word) (k : BridgeKind) (j : Nat) :
    ¬ InBridgeBuffer memState (memState.bridgeCallOf number) k j := by
  have z (a : Fin 8) : (memState.bridgeCallOf number).args[a] = 0#32 := by revert a; exact (by decide : ∀ a : Fin 8,
    (#v[memState.x 10#5, memState.x 11#5, memState.x 12#5, memState.x 13#5, memState.x 14#5, memState.x 15#5,
      memState.x 16#5, memState.x 17#5] : Vector Word 8)[a] = 0#32)
  rintro ⟨addr, len, hb, hd, -⟩
  have h0 : addr = 0#32 := by cases k <;> cases hb <;> exact z _
  subst h0
  simp only [State.dmaAdmits, Bool.and_eq_true, decide_eq_true_eq] at hd
  exact absurd hd.1.1 (by decide)

/-- Two states that differ in a register the host does not see, in `pc`, in a CSR and in a byte of RAM. -/
theorem witness_BridgeLearnsNothingElse :
    SameToBridge memState (({ memState with mscratch := 7#32, pc := 0x80000040#32 }.setX 5#5 9#32).setMem
      (memSet memState.mem 0x80000300 1#8)) 3#32 ∧
    memState.x 5#5 ≠ 9#32 ∧ memGet memState.mem 0x80000300 ≠ 1#8 :=
  ⟨⟨rfl, rfl, by decide, fun j h => absurd h (memState_no_buffer _ _ j)⟩, by decide, by decide⟩

/-- The last byte of RAM, its end, and a nonempty buffer there. -/
theorem witness_DmaAccessorBounds :
    1#32 ≠ 0#32 ∧ memState.dmaAdmits 0x8000FFFF#32 1#32 = true ∧
    (0x80010000#32).toNat = memState.cfg.ramBase.toNat + ramSize memState.cfg := by decide

theorem witness_CauseCodesUnderCfg0 : memState.cfg = Config.cfg0 := by decide

/-- An illegal word of section 2.8 at `pc`. -/
theorem witness_IllegalInstructionTraps :
    (start 0x80000000#32 0x0000202F []).run = .running ∧
    decode Config.cfg0 (start 0x80000000#32 0x0000202F []).fetchWord = .error .unrecognizedOpcode ∧
    (start 0x80000000#32 0x0000202F []).cfg.abortOnIllegal = false :=
  ⟨rfl, rfl, rfl⟩

theorem witness_AbortOnIllegal :
    ({ start 0x80000000#32 0 [] with cfg := abortCfg }).run = .running ∧
    decode abortCfg ({ start 0x80000000#32 0 [] with cfg := abortCfg }).fetchWord = .error .unrecognizedOpcode ∧
    abortCfg.abortOnIllegal = true :=
  ⟨rfl, rfl, rfl⟩

theorem witness_EcallThenMret :
    (start 0x80000010#32 0x00000073 [(30#5, 0x80000014#32)]).pc &&& 3#32 = 0#32 ∧
    (start 0x80000010#32 0x00000073 [(30#5, 0x80000014#32)]).x 30#5
      = (start 0x80000010#32 0x00000073 [(30#5, 0x80000014#32)]).pc + 4#32 := by decide

/-- A machine at its own handler, where nothing is stored. -/
def loopState : State := { start 0x80000000#32 0 [] with pc := 0x80000100#32 }

theorem witness_TrapLoopForever :
    loopState.run = .running ∧ loopState.cfg.abortOnIllegal = false ∧ isRam loopState.cfg loopState.pc = true ∧
    loopState.pc = loopState.mtvec &&& 0xFFFFFFFC#32 ∧
    decode loopState.cfg loopState.fetchWord = .error .unrecognizedOpcode :=
  ⟨rfl, rfl, by decide, by decide, rfl⟩

theorem witness_StepRunsDecoded :
    memState.run = .running ∧ decode memState.cfg memState.fetchWord = .ok (.sw 1#5 2#5 4#12) ∧
    isRam memState.cfg memState.pc = true ∧ memState.cfg.wf = true ∧ memState.pc &&& 3#32 = 0#32 :=
  ⟨rfl, rfl, by decide, by decide, by decide⟩

theorem witness_FetchFromDefaultMmioTraps :
    ({ memState with pc := 0x7FFFFFFC#32 }).run = .running ∧
    isRam memState.cfg ({ memState with pc := 0x7FFFFFFC#32 }).pc = false ∧ memState.cfg.mmio = .default ∧
    memState.cfg.abortOnIllegal = false := by decide

/-- An ended run, one that halts and one that aborts. -/
theorem witness_RunStateMachine :
    (memState.setRun .aborted).run ≠ .running ∧
    (∃ t : State, step (start 0x80000000#32 0x0050000B []) = .next t ∧ t.run = .halted 5#32) ∧
    ∃ t : State, step { start 0x80000000#32 0 [] with cfg := abortCfg } = .next t ∧ t.run = .aborted :=
  ⟨by decide, ⟨_, rfl, rfl⟩, ⟨_, rfl, rfl⟩⟩

/-- A running machine that steps, one that is refused. -/
theorem witness_RunningMachineSteps :
    memState.run = .running ∧
    step { start 0x80000100#32 0x30200073 [] with mepc := 0x80000003#32 } = .refused .mretMisaligned :=
  ⟨rfl, rfl⟩

/-- A step that answers a next state, a step that ends the run, an illegal word. -/
theorem witness_OneRegisterPerStep :
    (∃ t : State, step memState = .next t) ∧
    (∃ t : State, step (start 0x80000000#32 0x0050000B []) = .next t ∧ t.run ≠ .running) ∧
    ∃ t : State, step loopState = .next t ∧ decode loopState.cfg loopState.fetchWord = .error .unrecognizedOpcode :=
  ⟨⟨_, rfl⟩, ⟨_, rfl, by decide⟩, ⟨_, rfl, rfl⟩⟩

theorem witness_ScratchAndVectorOnlyByCsr :
    (∃ t : State, step (start 0x80000000#32 0x340292F3 [(5#5, 1#32)]) = .next t ∧
      t.mscratch ≠ (start 0x80000000#32 0x340292F3 [(5#5, 1#32)]).mscratch) ∧
    ∃ t : State, step (start 0x80000000#32 0x30529073 [(5#5, 7#32)]) = .next t ∧
      t.mtvec ≠ (start 0x80000000#32 0x30529073 [(5#5, 7#32)]).mtvec :=
  ⟨⟨_, rfl, by decide⟩, ⟨_, rfl, by decide⟩⟩

theorem witness_RamOnlyByStoresAndIocall :
    ∃ t : State, step memState = .next t ∧ ∃ a, t.ramByte a ≠ memState.ramByte a :=
  ⟨_, rfl, 0x80000004#32, by decide⟩

theorem witness_InvariantKept : Inv memState ∧ ∃ t : State, step memState = .next t :=
  ⟨⟨by decide, by decide, by decide, by decide, by decide⟩, _, rfl⟩

/-- An image that fits, one byte of it, a byte after it, and reset values with a nonzero register and RAM byte. -/
theorem witness_BootState :
    ([0x13#8].length ≤ ramSize Config.cfg0) ∧ Config.cfg0.wf = true ∧
    Config.cfg0.ramBase.toNat + 0 < 2 ^ 32 ∧ [0x13#8].length ≤ (ramOff Config.cfg0 0x80000001#32).toNat ∧
    (∃ s : State, bootState Config.cfg0
      { ResetValues.named with regs := regsOf [(1#5, 9#32)], ram := [(0x80000010, 1#8)] } [0x13#8] = some s) ∧
    Memory.wf [(0x80000010, 1#8)] = true ∧ (regsOf [(1#5, 9#32)])[0] = 0#32 ∧
    memWithin 0x80000000 0x80010000 [(0x80000010, 1#8)] = true :=
  ⟨by decide, by decide, by decide, by decide, ⟨_, rfl⟩, by decide, by decide, by decide⟩

/-- An image longer than RAM: five bytes into a RAM of four. -/
theorem witness_BootState_too_long :
    ramSize { Config.cfg0 with ramSizeLog2 := 2 } < [0#8, 0#8, 0#8, 0#8, 0#8].length := by decide

theorem witness_RegisterFile : (1#5 : Reg) ≠ 0#5 ∧ (2#5 : Reg) ≠ 1#5 ∧ (0#5 : Reg) ≠ 31#5 := by decide

/-- Two canonical memories, built in two orders, that read alike. -/
theorem witness_MemoryIsCanonical :
    Memory.wf (memSet (memSet [] 5 1#8) 3 2#8) = true ∧ Memory.wf (memSet (memSet [] 3 2#8) 5 1#8) = true ∧
    ∀ a, memGet (memSet (memSet [] 5 1#8) 3 2#8) a = memGet (memSet (memSet [] 3 2#8) 5 1#8) a :=
  ⟨by decide, by decide, fun _ => rfl⟩

theorem witness_DecodeEncode :
    Config.cfg0.wf = true ∧ (Instr.beq 1#5 2#5 0x1FFC#13).wf Config.cfg0 = true ∧ Instr.fenceI.wf Config.cfg0 = true := by
  decide

theorem witness_EncodeDecode :
    decode Config.cfg0 0x0050000B#32 = .ok (.exiti 5#12) ∧ 0x0050000B#32 &&& ignoredBits (.exiti 5#12) = 0#32 :=
  ⟨rfl, by decide⟩

/-- A word one row selects, and one that no row does. -/
theorem witness_OpcodeTableDecidesLegality :
    TableRow.selects ⟨0x0000707F#32, 0x00000013#32⟩ 0x00500093#32 = true ∧
    opcodeTable.all (fun r => !r.selects 0x0000202F#32) = true := by decide

/-- `LI` in two instructions and in one, and a `CALL` across the carry of its lower part. -/
theorem witness_LoadImmediateAndCall :
    (∃ t u : State, (5#5 : Reg) ≠ 0#5 ∧ expand (.li 5#5 0x12345FFF#32) = [.lui 5#5 0x12346#20, .addi 5#5 5#5 0xFFF#12] ∧
      exec (.lui 5#5 0x12346#20) memState = .next t ∧ exec (.addi 5#5 5#5 0xFFF#12) t = .next u) ∧
    (∃ t : State, expand (.li 5#5 0xFFFFF800#32) = [.addi 5#5 0#5 0x800#12] ∧
      exec (.addi 5#5 0#5 0x800#12) memState = .next t) ∧
    ∃ t u : State, expand (.call 0x00000FFC#32) = [.auipc 1#5 1#20, .jalr 1#5 1#5 0xFFC#12] ∧
      (memState.pc + 0x00000FFC#32) &&& 3#32 = 0#32 ∧ exec (.auipc 1#5 1#20) memState = .next t ∧
      exec (.jalr 1#5 1#5 0xFFC#12) t = .next u :=
  ⟨⟨_, _, by decide, by decide, rfl, rfl⟩, ⟨_, by decide, rfl⟩, ⟨_, _, by decide, by decide, rfl, rfl⟩⟩

end Sys2Proof.Tests
end

section
/-! Steps of a running machine (spec/00_scope.md R3, spec/20_memory.md R50). -/

namespace Sys2Proof.Machine

/-- Only a platform device can notice a fetch (R46, R50). -/
theorem afterFetch_eq_self {s : State} (h : isRam s.cfg s.pc = true ∨ s.cfg.mmio = .default) : s.afterFetch = s := by
  obtain hr | hd := h
  · exact afterRead_ram .word hr
  · exact afterRead_default s.pc .word hd

/-- The word fetched from RAM is the little-endian word of the four bytes at `pc` (R43, R50). -/
theorem fetchWord_eq_wordOfBytes {s : State} (hc : s.cfg.wf = true) (hr : isRam s.cfg s.pc = true)
    (ha : s.pc &&& 3#32 = 0#32) :
    s.fetchWord = wordOfBytes (s.ramByte s.pc) (s.ramByte (s.pc + 1#32)) (s.ramByte (s.pc + 2#32))
      (s.ramByte (s.pc + 3#32)) :=
  busRead_word_eq hc hr ((aligned_word_iff s.pc).2 ha)

/-- Settles O43: the decoded case of a step, and what a fetch reads and leaves behind. -/
theorem stepRunsDecoded : Obligations.StepRunsDecoded := by
  intro s hrun
  exact ⟨fun _ hd => step_decoded s hrun hd, afterFetch_eq_self, fetchWord_eq_wordOfBytes⟩

end Sys2Proof.Machine
end

section
/-! The invariant of a run (spec/10_state.md R10, R13; spec/20_memory.md R42): one rule per primitive operation, composed
for the shared operations, and from them for every step. -/

namespace Sys2Proof.Machine

variable {s t : State}

/-! ## Primitive operations -/

/-- An operation that leaves configuration, RAM and the cell of `x0` alone has only its `pc` to answer for. -/
theorem Inv.of_same_ram (hi : Inv s) (hc : t.cfg = s.cfg) (hm : t.mem = s.mem) (hz : t.regs[0] = s.regs[0])
    (hp : aligned .word t.pc = true) : Inv t where
  cfg := hc ▸ hi.cfg
  pc := hp
  canonical := hm ▸ hi.canonical
  inRam := by rw [hc, hm]; exact hi.inRam
  zeroCell := hz.trans hi.zeroCell

theorem Inv.setX (hi : Inv s) (rd : Reg) (v : Word) : Inv (s.setX rd v) :=
  hi.of_same_ram rfl rfl (writeReg_zero_cell s.regs rd v) hi.pc

theorem Inv.setPc (hi : Inv s) {a : Word} (ha : aligned .word a = true) : Inv (s.setPc a) :=
  hi.of_same_ram rfl rfl rfl ha

theorem Inv.setRun (hi : Inv s) (r : RunState) : Inv (s.setRun r) := hi.of_same_ram rfl rfl rfl hi.pc

theorem Inv.afterRead (hi : Inv s) (a : Word) (n : Width) : Inv (s.afterRead a n) := hi.of_same_ram rfl rfl rfl hi.pc

theorem Inv.csrWrite (hi : Inv s) (a : CsrAddr) (v : Word) : Inv (s.csrWrite a v) := hi.of_same_ram rfl rfl rfl hi.pc

theorem Inv.trap (hi : Inv s) (e : Exception) : Inv (s.trap e) :=
  hi.of_same_ram rfl rfl rfl (aligned_clearLow2 s.mtvec)

theorem Inv.busWrite (hi : Inv s) (a : Word) (n : Width) (v : Word) : Inv (s.busWrite a n v) where
  cfg := hi.cfg
  pc := hi.pc
  canonical := busWrite_wf a n v hi.canonical
  inRam := busWrite_within hi.cfg a n v hi.inRam
  zeroCell := hi.zeroCell

theorem Inv.afterBridge (hi : Inv s) (call : BridgeCall) (k : BridgeKind) (host : BridgeEvent → BridgeAnswer) :
    Inv (s.afterBridge call k host) where
  cfg := hi.cfg
  pc := hi.pc
  canonical := bridgeRam_wf s call k host hi.canonical
  inRam := bridgeRam_within s call k host hi.inRam
  zeroCell := (writeReg_zero_cell s.regs 10#5 _).trans hi.zeroCell

/-! ## Shared operations -/

theorem Inv.retired (hi : Inv s) : Inv s.retired := hi.setPc (aligned_add_four hi.pc)

theorem Inv.retireWith (hi : Inv s) (rd : Reg) (v : Word) : Inv (s.retireWith rd v) := (hi.setX rd v).retired

theorem Inv.jumpLink (hi : Inv s) (rd : Reg) (target : Word) : Inv (s.jumpLink rd target) := by
  unfold State.jumpLink
  split
  next ha => exact (hi.setX rd _).setPc ha
  next => exact hi.trap _

theorem Inv.branch (hi : Inv s) (taken : Bool) (offset : BitVec 13) : Inv (s.branch taken offset) :=
  hi.of_same_ram (branch_cfg s taken offset) (branch_mem s taken offset) (by rw [branch_regs])
    (branch_pc_aligned s taken offset hi.pc)

theorem Inv.load (hi : Inv s) (rd : Reg) (ea : Word) (n : Width) (ext : Word → Word) : Inv (s.load rd ea n ext) := by
  unfold State.load
  split
  · exact (hi.afterRead ea n).retireWith rd _
  · exact hi.trap _

theorem Inv.store (hi : Inv s) (ea : Word) (n : Width) (v : Word) : Inv (s.store ea n v) := by
  unfold State.store
  split
  · exact (hi.busWrite ea n v).retired
  · exact hi.trap _

theorem Inv.csrSwap (hi : Inv s) (rd : Reg) (a : CsrAddr) (src : Word) : Inv (s.csrSwap rd a src) :=
  (hi.csrWrite a src).retireWith rd _

theorem Inv.csrModify (hi : Inv s) (rd : Reg) (a : CsrAddr) (src new : Word) : Inv (s.csrModify rd a src new) := by
  unfold State.csrModify
  split
  · exact (hi.csrWrite a new).retireWith rd _
  · exact hi.retireWith rd _

theorem Inv.illegal (hi : Inv s) (ins : Word) : Inv (s.illegal ins) := by
  unfold State.illegal
  split
  · exact hi.setRun .aborted
  · exact hi.trap _

/-! ## Every step -/

/-- No effect changes the configuration (log 1). -/
theorem Effect.cfg_eq (h : Effect s t) : t.cfg = s.cfg := by cases h <;> simp

/-- Every effect keeps the invariant. -/
theorem Effect.inv (h : Effect s t) (hi : Inv s) : Inv t := by
  cases h with
  | retire rd v => exact hi.retireWith rd v
  | skip => exact hi.retired
  | jump rd target => exact hi.jumpLink rd target
  | branch taken offset => exact hi.branch taken offset
  | load rd ea n ext => exact hi.load rd ea n ext
  | store ea n v => exact hi.store ea n v
  | trap e => exact hi.trap e
  | mret ha => exact hi.setPc ha
  | csrSwap rd a src => exact hi.csrSwap rd a src
  | csrModify rd a src new => exact hi.csrModify rd a src new
  | halt code => exact hi.setRun (.halted code)
  | bridge call k host => exact (hi.afterBridge call k host).retired

/-- Settles O50: a step is a fetch and then an effect of its instruction or an illegal word, and each keeps the
invariant. -/
theorem invariantKept : Obligations.InvariantKept := by
  intro s t hi hstep
  have hf : Inv s.afterFetch := hi.afterRead s.pc .word
  obtain ⟨-, ⟨i, -, hexec⟩ | ⟨e, -, rfl⟩⟩ := step_cases s hstep
  · have heff := exec_effect s.afterFetch hexec
    exact ⟨heff.inv hf, heff.cfg_eq⟩
  · exact ⟨hf.illegal s.fetchWord, illegal_cfg s.afterFetch s.fetchWord⟩

/-- The reset state has the invariant (R33, R34, log 2). -/
theorem inv_reset : Inv State.reset where
  cfg := by decide
  pc := by decide
  canonical := rfl
  inRam := rfl
  zeroCell := rfl

/-- Settles O51: the invariant at reset, and the fields R33, R34 and R36 name. -/
theorem invariantAtReset : Obligations.InvariantAtReset :=
  ⟨inv_reset, rfl, rfl, rfl, readReg_zero State.reset.regs⟩

end Sys2Proof.Machine
end

section
/-! What a step does to the general registers and how it ends a run (spec/10_state.md R10, R11, R29). -/

namespace Sys2Proof.Machine

variable {s t : State}

/-- Settles O53: the register file reads and writes by `readReg` and `writeReg`. -/
theorem registerFile : Obligations.RegisterFile := by
  intro s r q v
  refine ⟨readReg_zero s.regs, ?_, fun hr => ?_, fun hq => readReg_writeReg_ne s.regs v hq⟩
  · rw [setX_x, if_neg fun h => h.2 h.1]
  · rw [setX_x, if_pos ⟨rfl, hr⟩]

/-! ## The run state (R29) -/

/-- An instruction leaves the run state as it was, or it is `EXITI` or `EXIT` and halts with its code (R180, R181). -/
theorem exec_run_or_halt {i : Instr} (h : exec i s = .next t) :
    t.run = s.run ∨ (∃ imm, i = .exiti imm ∧ t = s.halt (immVal imm)) ∨ ∃ rs1, i = .exit rs1 ∧ t = s.halt (s.x rs1) := by
  cases i
  case exiti imm => cases h; exact .inr (.inl ⟨imm, rfl, rfl⟩)
  case exit rs1 => cases h; exact .inr (.inr ⟨rs1, rfl, rfl⟩)
  case mret => obtain ⟨-, rfl⟩ := trapReturn_next s h; exact .inl rfl
  case iocall => rw [bridge_next s h]; exact .inl rfl
  all_goals
    cases h
    exact .inl (by simp)

theorem illegal_run (s : State) (ins : Word) :
    (s.illegal ins).run = if s.cfg.abortOnIllegal then .aborted else s.run := by
  unfold State.illegal; split <;> rfl

/-- The run state after a step: still running, halted by `EXITI` or `EXIT`, or aborted by an illegal word under
ABORT_ON_ILLEGAL (R29, R205). Only the first may have changed a register. -/
theorem step_run_cases (h : step s = .next t) :
    t.run = .running ∨
    (∃ imm, decode s.cfg s.fetchWord = .ok (.exiti imm) ∧ t = s.afterFetch.halt (immVal imm)) ∨
    (∃ rs1, decode s.cfg s.fetchWord = .ok (.exit rs1) ∧ t = s.afterFetch.halt (s.x rs1)) ∨
    (s.cfg.abortOnIllegal = true ∧ (∃ e, decode s.cfg s.fetchWord = .error e) ∧ t = s.afterFetch.setRun .aborted) := by
  obtain ⟨hrun, ⟨i, hd, hexec⟩ | ⟨e, hd, rfl⟩⟩ := step_cases s h
  · obtain hr | ⟨imm, rfl, rfl⟩ | ⟨rs1, rfl, rfl⟩ := exec_run_or_halt hexec
    · exact .inl (hr.trans hrun)
    · exact .inr (.inl ⟨imm, hd, rfl⟩)
    · exact .inr (.inr (.inl ⟨rs1, hd, rfl⟩))
  · cases ha : s.cfg.abortOnIllegal
    · exact .inl (by simp [illegal_run, ha, hrun])
    · exact .inr (.inr (.inr ⟨rfl, ⟨e, hd⟩, by simp [State.illegal, ha]⟩))

/-- Settles O45: an ended machine faults, and each ending traces back to its instruction or word. -/
theorem runStateMachine : Obligations.RunStateMachine := by
  refine ⟨fun s hr => step_ended s hr, fun s t h => ?_⟩
  obtain hr | ⟨imm, hd, rfl⟩ | ⟨rs1, hd, rfl⟩ | ⟨ha, he, rfl⟩ := step_run_cases h
  · simp [hr]
  · refine ⟨.inr (.inr ⟨_, rfl⟩), nofun, ?_⟩
    rintro _ ⟨⟩
    exact .inl ⟨imm, hd, rfl⟩
  · refine ⟨.inr (.inr ⟨_, rfl⟩), nofun, ?_⟩
    rintro _ ⟨⟩
    exact .inr ⟨rs1, hd, rfl⟩
  · exact ⟨.inr (.inl rfl), fun _ => ⟨ha, he⟩, nofun⟩

/-! ## One register (R11) -/

/-- At most one general register differs. -/
def KeepsAllButOne (s t : State) : Prop := ∃ r : Reg, ∀ q, q ≠ r → t.x q = s.x q

theorem keepsRegs_of_eq (h : t.regs = s.regs) : KeepsRegs s t := fun q => congrArg (readReg · q) h

theorem KeepsRegs.allButOne (h : KeepsRegs s t) : KeepsAllButOne s t := ⟨0#5, fun q _ => h q⟩

theorem SetsReg.allButOne {rd : Reg} {v : Word} (h : SetsReg s t rd v) : KeepsAllButOne s t := ⟨rd, h.others⟩

theorem jumpLink_allButOne (s : State) (rd : Reg) (target : Word) : KeepsAllButOne s (s.jumpLink rd target) := by
  cases ha : aligned .word target
  · rw [jumpLink_misaligned s rd ha]; exact (trap_takes s _).regs.allButOne
  · exact (jumpLink_aligned s rd ha).regs.allButOne

theorem load_allButOne (s : State) (rd : Reg) (ea : Word) (n : Width) (ext : Word → Word) :
    KeepsAllButOne s (s.load rd ea n ext) := by
  cases ha : aligned n ea
  · rw [load_misaligned s rd ext ha]; exact (trap_takes s _).regs.allButOne
  · exact (load_aligned s rd ext ha).regs.allButOne

theorem csrSwap_allButOne (s : State) (rd : Reg) (a : CsrAddr) (src : Word) : KeepsAllButOne s (s.csrSwap rd a src) :=
  ⟨rd, (retireWith_sets (s.csrWrite a src) rd _).others⟩

theorem csrModify_allButOne (s : State) (rd : Reg) (a : CsrAddr) (src new : Word) :
    KeepsAllButOne s (s.csrModify rd a src new) := by
  by_cases h : src = 0#32
  · subst h; rw [csrModify_zero]; exact (retireWith_sets s rd _).allButOne
  · rw [csrModify_nonzero s rd a new h]; exact ⟨rd, (retireWith_sets (s.csrWrite a new) rd _).others⟩

/-- No effect changes two general registers. -/
theorem Effect.allButOne (h : Effect s t) : KeepsAllButOne s t := by
  cases h with
  | retire rd v => exact (retireWith_sets s rd v).allButOne
  | skip => exact (setPc_goesTo s _).regs.allButOne
  | jump rd target => exact jumpLink_allButOne s rd target
  | branch taken offset => exact (keepsRegs_of_eq (branch_regs s taken offset)).allButOne
  | load rd ea n ext => exact load_allButOne s rd ea n ext
  | store ea n v => exact (keepsRegs_of_eq (store_regs s ea n v)).allButOne
  | trap e => exact (trap_takes s e).regs.allButOne
  | mret _ => exact (setPc_goesTo s _).regs.allButOne
  | csrSwap rd a src => exact csrSwap_allButOne s rd a src
  | csrModify rd a src new => exact csrModify_allButOne s rd a src new
  | halt code => exact (keepsRegs_of_eq (halt_regs s code)).allButOne
  | bridge call k host => exact ⟨10#5, fun _ hq => readReg_writeReg_ne s.regs _ hq⟩

theorem step_illegal_keepsRegs {e : Illegal} (h : step s = .next t) (hd : decode s.cfg s.fetchWord = .error e) :
    KeepsRegs s t := by
  obtain ⟨-, ⟨i, hd', -⟩ | ⟨_, -, rfl⟩⟩ := step_cases s h
  · rw [hd] at hd'; cases hd'
  · exact keepsRegs_of_eq (illegal_regs s.afterFetch s.fetchWord)

/-- A step that ends the run changes no general register (R29). -/
theorem step_ending_keepsRegs (h : step s = .next t) (hr : t.run ≠ .running) : KeepsRegs s t := by
  obtain hr' | ⟨_, _, rfl⟩ | ⟨_, _, rfl⟩ | ⟨_, _, rfl⟩ := step_run_cases h
  · exact absurd hr' hr
  all_goals exact fun _ => rfl

theorem step_allButOne (h : step s = .next t) : KeepsAllButOne s t := by
  obtain ⟨-, ⟨i, -, hexec⟩ | ⟨e, hd, -⟩⟩ := step_cases s h
  · exact (exec_effect s.afterFetch hexec).allButOne
  · exact (step_illegal_keepsRegs h hd).allButOne

/-- Settles O47: one register at most in any step, none in one that ends the run or meets an illegal word. -/
theorem oneRegisterPerStep : Obligations.OneRegisterPerStep :=
  fun _ _ h => ⟨step_allButOne h, step_ending_keepsRegs h, fun _ hd => step_illegal_keepsRegs h hd⟩

end Sys2Proof.Machine
end

section
/-! Which steps change `mscratch` and `mtvec` (spec/10_state.md R17, R18): those whose instruction names them. -/

namespace Sys2Proof.Machine

variable {s t : State}

/-- `mscratch` and `mtvec` are as before: the two CSRs no trap writes. -/
structure KeepsScratchAndVector (s t : State) : Prop where
  mscratch : t.mscratch = s.mscratch
  mtvec : t.mtvec = s.mtvec

theorem csrModify_scratchAndVector (s : State) (rd : Reg) (a : CsrAddr) (src new : Word) :
    KeepsScratchAndVector s (s.csrModify rd a src new) ∨
      KeepsScratchAndVector (s.csrWrite a new) (s.csrModify rd a src new) := by
  unfold State.csrModify
  split
  · exact .inr ⟨rfl, rfl⟩
  · exact .inl ⟨rfl, rfl⟩

/-- An instruction leaves `mscratch` and `mtvec` as they were, or as a CSR write to an address it names does. -/
theorem exec_scratchAndVector {i : Instr} (h : exec i s = .next t) :
    KeepsScratchAndVector s t ∨ ∃ a v, namesCsr a i = true ∧ KeepsScratchAndVector (s.csrWrite a v) t := by
  cases i
  case mret => obtain ⟨-, rfl⟩ := trapReturn_next s h; exact .inl ⟨rfl, rfl⟩
  case iocall => rw [bridge_next s h]; exact .inl ⟨rfl, rfl⟩
  case csrrw rd a _ => cases h; exact .inr ⟨a, _, beq_self_eq_true a, rfl, rfl⟩
  case csrrwi rd a _ => cases h; exact .inr ⟨a, _, beq_self_eq_true a, rfl, rfl⟩
  case csrrs rd a _ | csrrc rd a _ | csrrsi rd a _ | csrrci rd a _ =>
    cases h
    exact (csrModify_scratchAndVector s rd a _ _).imp_right fun hw => ⟨a, _, beq_self_eq_true a, hw⟩
  all_goals
    cases h
    exact .inl ⟨by simp, by simp⟩

/-- A step leaves `mscratch` and `mtvec` as they were, or as a CSR write to an address its instruction names does. -/
theorem step_scratchAndVector (h : step s = .next t) :
    KeepsScratchAndVector s t ∨ ∃ i a v, decode s.cfg s.fetchWord = .ok i ∧ namesCsr a i = true ∧
      KeepsScratchAndVector (s.csrWrite a v) t := by
  obtain ⟨-, ⟨i, hd, hexec⟩ | ⟨e, -, rfl⟩⟩ := step_cases s h
  · obtain ⟨hs, hv⟩ | ⟨a, v, hn, hs, hv⟩ := exec_scratchAndVector hexec
    · exact .inl ⟨hs, hv⟩
    · exact .inr ⟨i, a, v, hd, hn, hs, hv⟩
  · exact .inl ⟨illegal_mscratch s.afterFetch s.fetchWord, illegal_mtvec s.afterFetch s.fetchWord⟩

theorem csrWrite_mscratch_changed {a : CsrAddr} {v : Word} (h : (s.csrWrite a v).mscratch ≠ s.mscratch) :
    a = 0x340#12 := by
  by_contra ha
  exact h (if_neg ha)

theorem csrWrite_mtvec_changed {a : CsrAddr} {v : Word} (h : (s.csrWrite a v).mtvec ≠ s.mtvec) :
    a = 0x305#12 ∧ (s.csrWrite a v).mtvec = clearLow2 v := by
  have ha : a = 0x305#12 := by
    by_contra ha
    exact h (if_neg ha)
  exact ⟨ha, if_pos ha⟩

theorem clearLow2_and_three (v : Word) : clearLow2 v &&& 3#32 = 0#32 := (aligned_word_iff _).1 (aligned_clearLow2 v)

/-- Settles O48: a change comes from a CSR write to the register's own address, which clears `mtvec`'s low bits. -/
theorem scratchAndVectorOnlyByCsr : Obligations.ScratchAndVectorOnlyByCsr := by
  intro s t h
  obtain ⟨hs, hv⟩ | ⟨i, a, v, hd, hn, hs, hv⟩ := step_scratchAndVector h
  · exact ⟨fun hne => absurd hs hne, fun hne => absurd hv hne⟩
  · rw [hs, hv]
    refine ⟨fun hne => ?_, fun hne => ?_⟩
    · cases csrWrite_mscratch_changed hne
      exact ⟨i, hd, hn⟩
    · obtain ⟨rfl, hvec⟩ := csrWrite_mtvec_changed hne
      exact ⟨⟨i, hd, hn⟩, hvec ▸ clearLow2_and_three v⟩

end Sys2Proof.Machine
end

section
/-! The bus (spec/20_memory.md R41 to R47): byte order, wraparound of RAM, the MMIO hook; and the DMA accessor's
bounds (R53). -/

namespace Sys2Proof.Machine

variable {s : State}

/-! ## Byte order (R43) -/

/-- A half inside an aligned word just written is the bits of the value at its place. -/
theorem busRead_half_busWrite_word (hc : s.cfg.wf = true) {a : Word} (v : Word) (hr : isRam s.cfg a = true)
    (ha : aligned .word a = true) {i : Nat} (hi : i < 4) (heven : i % 2 = 0) :
    (s.busWrite a .word v).busRead (a + BitVec.ofNat 32 i) .half = (v.extractLsb' (8 * i) 16).setWidth 32 := by
  have hhalf : aligned .half (a + BitVec.ofNat 32 i) = true := by
    have hadd := aligned_add_toNat ha hi
    rw [aligned_iff] at ha ⊢
    simp only [widthBytes] at ha ⊢
    omega
  have hnext : a + BitVec.ofNat 32 i + 1#32 = a + BitVec.ofNat 32 (i + 1) := by
    rw [BitVec.add_assoc, BitVec.ofNat_add]
  rw [busRead_half_eq (s := s.busWrite a .word v) hc (isRam_add hr ha hi) hhalf, hnext,
    busWrite_ramByte_in hc v hr ha hi, busWrite_ramByte_in hc v hr ha (show i + 1 < 4 by omega),
    BitVec.extractLsb'_append_extractLsb'_eq_extractLsb' (by omega)]

/-- A byte of an aligned word just written is the bits of the value at its place. -/
theorem busRead_byte_busWrite_word (hc : s.cfg.wf = true) {a : Word} (v : Word) (hr : isRam s.cfg a = true)
    (ha : aligned .word a = true) {i : Nat} (hi : i < 4) :
    (s.busWrite a .word v).busRead (a + BitVec.ofNat 32 i) .byte = (v.extractLsb' (8 * i) 8).setWidth 32 := by
  rw [busRead_byte_eq (s := s.busWrite a .word v) hc (isRam_add hr ha hi), busWrite_ramByte_in hc v hr ha hi]

/-- Settles O22: each narrower read names its bytes of the written word, and a word read is its four bytes. -/
theorem littleEndian : Obligations.LittleEndian := by
  intro s a v hc hr hlow
  have ha := (aligned_word_iff a).2 hlow
  have hlowHalf := busRead_half_busWrite_word hc v hr ha (i := 0) (by decide) rfl
  rw [BitVec.add_zero] at hlowHalf
  exact ⟨busRead_busWrite_word v hr, hlowHalf, busRead_half_busWrite_word hc v hr ha (i := 2) (by decide) rfl,
    fun i hi => busRead_byte_busWrite_word hc v hr ha hi, busRead_word_eq hc hr ha⟩

/-! ## Wraparound (R42, R62) -/

/-- The offset depends on the address modulo `RAM_SIZE` only. -/
theorem ramOff_eq_of_modEq {c : Config} {a b : Word} (ha : isRam c a = true) (hb : isRam c b = true)
    (h : a.toNat % ramSize c = b.toNat % ramSize c) : ramOff c a = ramOff c b := by
  refine BitVec.eq_of_toNat_eq ?_
  rw [ramOff_toNat, ramOff_toNat, sub_toNat_of_isRam ha, sub_toNat_of_isRam hb]
  refine Nat.ModEq.add_right_cancel' c.ramBase.toNat ?_
  rw [Nat.sub_add_cancel ((isRam_iff c a).1 ha), Nat.sub_add_cancel ((isRam_iff c b).1 hb)]
  exact h

theorem unitKey_eq_of_ramOff_eq {c : Config} {a b : Word} (h : ramOff c a = ramOff c b) (n : Width) :
    unitKey c a n = unitKey c b n := by
  unfold unitKey; rw [h]

theorem mmioLogAfter_ram {a : Word} (r : MmioRequest) (h : isRam s.cfg a = true) : mmioLogAfter s a r = s.mmioLog :=
  if_pos h

/-- A write to RAM is its bytes in memory and nothing else. -/
theorem busWrite_ram {a : Word} (n : Width) (v : Word) (h : isRam s.cfg a = true) :
    s.busWrite a n v = s.setMem (memSetList s.mem (unitKey s.cfg a n) (leBytes v n)) := by
  unfold State.busWrite
  rw [if_pos h, mmioLogAfter_ram _ h]
  rfl

theorem ramByte_eq_of_ramOff_eq {a b : Word} (h : ramOff s.cfg a = ramOff s.cfg b) : s.ramByte a = s.ramByte b := by
  unfold State.ramByte ramKey; rw [h]

theorem busRead_eq_of_ramOff_eq {a b : Word} (n : Width) (ha : isRam s.cfg a = true) (hb : isRam s.cfg b = true)
    (h : ramOff s.cfg a = ramOff s.cfg b) : s.busRead a n = s.busRead b n := by
  rw [busRead_ram n ha, busRead_ram n hb, unitKey_eq_of_ramOff_eq h]

theorem busWrite_eq_of_ramOff_eq {a b : Word} (n : Width) (v : Word) (ha : isRam s.cfg a = true)
    (hb : isRam s.cfg b = true) (h : ramOff s.cfg a = ramOff s.cfg b) : s.busWrite a n v = s.busWrite b n v := by
  rw [busWrite_ram n v ha, busWrite_ram n v hb, unitKey_eq_of_ramOff_eq h]

theorem isRam_ramBase (c : Config) : isRam c c.ramBase = true := (isRam_iff c _).2 le_rfl

/-- The end of the array, where it is an address, as a number. -/
theorem ramBase_add_ramSize_toNat {c : Config} (h : c.ramBase.toNat + ramSize c ≤ 0xFFFFFFFF) :
    (c.ramBase + BitVec.ofNat 32 (ramSize c)).toNat = c.ramBase.toNat + ramSize c := by
  rw [BitVec.toNat_add, BitVec.toNat_ofNat]
  omega

/-- Settles O23: such addresses have one offset, and the end of the array has that of its start. -/
theorem ramWrapsAround : Obligations.RamWrapsAround := by
  refine ⟨fun s a b v n ha hb hab => ?_, fun s v n _ hfit => ?_⟩
  · have hoff := ramOff_eq_of_modEq ha hb hab
    exact ⟨ramByte_eq_of_ramOff_eq hoff, busRead_eq_of_ramOff_eq n ha hb hoff, busWrite_eq_of_ramOff_eq n v ha hb hoff⟩
  · have htop := ramBase_add_ramSize_toNat hfit
    have hbase := isRam_ramBase s.cfg
    have hram : isRam s.cfg (s.cfg.ramBase + BitVec.ofNat 32 (ramSize s.cfg)) = true := by
      rw [isRam_iff, htop]; omega
    have hoff := ramOff_eq_of_modEq hram hbase (by rw [htop, Nat.add_mod_right])
    rw [busWrite_eq_of_ramOff_eq n v hram hbase hoff]
    exact busRead_busWrite_self n v hbase

/-! ## The MMIO hook (R46, R47) -/

/-- Whatever the device, its value has the width of the request. -/
theorem mmioValue_width (s : State) (a : Word) (n : Width) : mmioValue s a n &&& ~~~(widthOnes n) = 0#32 := by
  unfold mmioValue
  split
  · exact BitVec.and_not_self _
  · rw [BitVec.and_assoc, BitVec.and_not_self]
    exact BitVec.and_zero

theorem mmioValue_default (a : Word) (n : Width) (h : s.cfg.mmio = .default) : mmioValue s a n = widthOnes n := by
  simp only [mmioValue, h]

theorem mmioLogAfter_default (a : Word) (r : MmioRequest) (h : s.cfg.mmio = .default) :
    mmioLogAfter s a r = s.mmioLog := by
  simp [mmioLogAfter, h]

/-- A write below RAM_BASE stores nothing in RAM. -/
theorem busWrite_mmio_mem {a : Word} (n : Width) (v : Word) (h : isRam s.cfg a = false) :
    (s.busWrite a n v).mem = s.mem := by
  simp [h]

/-- The default device discards a write (R47). -/
theorem busWrite_mmio_default {a : Word} (n : Width) (v : Word) (h : isRam s.cfg a = false)
    (hd : s.cfg.mmio = .default) : s.busWrite a n v = s := by
  simp [State.busWrite, h, mmioLogAfter_default a _ hd]

theorem busRead_mmio_default {a : Word} (n : Width) (h : isRam s.cfg a = false) (hd : s.cfg.mmio = .default) :
    s.busRead a n = widthOnes n := by
  rw [busRead_mmio n h, mmioValue_default a n hd]

/-- Settles O24: what the hook answers to a read and leaves after a write, for the default and for any device. -/
theorem mmioHook : Obligations.MmioHook := by
  intro s a v h
  refine ⟨fun hd => ⟨busRead_mmio_default .byte h hd, busRead_mmio_default .half h hd, busRead_mmio_default .word h hd,
    fun n => afterRead_default a n hd, fun n => busWrite_mmio_default n v h hd⟩, fun n => ⟨?_, busWrite_mmio_mem n v h⟩⟩
  rw [busRead_mmio n h]
  exact mmioValue_width s a n

/-! ## The DMA accessor (R53) -/

/-- For a nonempty buffer the accessor's answer is R53's range, with no free value in it. -/
theorem dmaAdmits_iff_of_nonempty (s : State) (addr : Word) {len : Word} (hlen : len ≠ 0#32) :
    s.dmaAdmits addr len = true ↔
      s.cfg.ramBase.toNat ≤ addr.toNat ∧ addr.toNat + len.toNat ≤ s.cfg.ramBase.toNat + ramSize s.cfg := by
  have hfree : (len != 0#32) = true := bne_iff_ne.2 hlen
  rw [State.dmaAdmits, hfree, Bool.true_or, Bool.and_true, decide_eq_true_iff]
  omega

/-- Settles O36: the accessor admits R53's range; at the end of the array no byte is left. -/
theorem dmaAccessorBounds : Obligations.DmaAccessorBounds := by
  intro s addr len
  refine ⟨dmaAdmits_iff_of_nonempty s addr, dmaAdmits_range s, fun hend hlen => ?_⟩
  have hpos : len.toNat ≠ 0 := fun h => hlen (BitVec.eq_of_toNat_eq h)
  refine Bool.eq_false_iff.2 fun hadmits => ?_
  have hrange := dmaAdmits_range s hadmits
  omega

end Sys2Proof.Machine
end

section
/-! Stores as the next load and the next fetch see them, and a fetch below RAM_BASE (spec/20_memory.md R51, R56, R57). -/

namespace Sys2Proof.Machine

variable {s : State}

@[simp] theorem retired_busRead (s : State) (a : Word) (n : Width) : s.retired.busRead a n = s.busRead a n := rfl

/-- The word an aligned store leaves at its address in RAM. -/
theorem busRead_store_word {ea : Word} (v : Word) (hr : isRam s.cfg ea = true) (ha : aligned .word ea = true) :
    (s.store ea .word v).busRead ea .word = v := by
  rw [State.store, if_pos ha, retired_busRead]
  exact busRead_busWrite_word v hr

/-- Settles O25: the load's address is the store's, whose registers the store keeps. -/
theorem storeThenLoad : Obligations.StoreThenLoad := by
  rintro s _ rd rs1 rs2 imm - (hr : isRam s.cfg (effAddr s rs1 imm) = true) hlow ⟨⟩
  have ha : aligned .word (effAddr s rs1 imm) = true := (aligned_word_iff _).2 hlow
  have hea : effAddr (s.store (effAddr s rs1 imm) .word (s.x rs2)) rs1 imm = effAddr s rs1 imm :=
    congrArg (readReg · rs1 + immVal imm) (store_regs s _ _ _)
  refine ⟨_, rfl, ?_⟩
  rw [hea, (load_aligned _ rd id ha).regs.result, busRead_store_word _ hr ha, id]

/-- Settles O26: the store leaves its word at `pc + 4` and retires there. -/
theorem storeSeenByNextFetch : Obligations.StoreSeenByNextFetch := by
  intro s rs1 rs2 imm hc hrun hd hea hr hlow
  have ha : aligned .word (s.pc + 4#32) = true := aligned_add_four ((aligned_word_iff s.pc).2 hlow)
  have hstores := store_aligned s.afterFetch (s.x rs2) hc ha
  have hstep : step s = .next (s.afterFetch.store (s.pc + 4#32) .word (s.x rs2)) := by
    rw [step_decoded s hrun hd, ← hea]; rfl
  refine ⟨_, hstep, hstores.run.run.trans hrun, hstores.pc, ?_⟩
  rw [State.fetchWord, hstores.pc]
  exact busRead_store_word (s.x rs2) hr ha

/-- All-ones has no opcode of R79. -/
theorem decode_allOnes (c : Config) : decode c 0xFFFFFFFF#32 = .error .unrecognizedOpcode := rfl

/-- Settles O44: the fetch reads all-ones, which is illegal, and the default device does not notice. -/
theorem fetchFromDefaultMmioTraps : Obligations.FetchFromDefaultMmioTraps := by
  intro s hrun hr hd habort
  have hword : s.fetchWord = 0xFFFFFFFF#32 := busRead_mmio_default .word hr hd
  have hstep : step s = .next (s.trap (.illegalInstruction 0xFFFFFFFF#32)) := by
    rw [step_illegal s hrun (hword ▸ decode_allOnes s.cfg), afterFetch_eq_self (.inr hd), hword, State.illegal,
      if_neg (by simp [habort])]
  exact ⟨_, hstep, trap_takes s _⟩

end Sys2Proof.Machine
end

section
/-! Which steps change RAM (spec/20_memory.md R52). -/

namespace Sys2Proof.Machine

variable {s t : State}

theorem ramByte_congr (hc : t.cfg = s.cfg) (hm : t.mem = s.mem) (a : Word) : t.ramByte a = s.ramByte a := by
  unfold State.ramByte; rw [hc, hm]

/-- An instruction that is no store and no `IOCALL` leaves RAM as it was. -/
theorem exec_mem_of_not_mayWriteRam {i : Instr} (h : exec i s = .next t) (hi : mayWriteRam i = false) :
    t.mem = s.mem := by
  cases i
  case sb | sh | sw | iocall => cases hi
  case mret => obtain ⟨-, rfl⟩ := trapReturn_next s h; rfl
  all_goals
    cases h
    simp

/-- Settles O49: every other instruction, and every illegal word, keeps RAM. -/
theorem ramOnlyByStoresAndIocall : Obligations.RamOnlyByStoresAndIocall := by
  rintro s t h ⟨a, ha⟩
  obtain ⟨-, ⟨i, hd, hexec⟩ | ⟨e, -, rfl⟩⟩ := step_cases s h
  · refine ⟨i, hd, ?_⟩
    by_contra hi
    have hmem := exec_mem_of_not_mayWriteRam hexec (Bool.eq_false_iff.2 hi)
    exact ha (ramByte_congr (exec_effect s.afterFetch hexec).cfg_eq hmem a)
  · exact absurd (ramByte_congr (illegal_cfg s.afterFetch s.fetchWord) (illegal_mem s.afterFetch s.fetchWord) a) ha

end Sys2Proof.Machine
end

section
/-! The canonical form of memory (spec/20_memory.md R40, R42; log 14): it is determined by what it reads. -/

namespace Sys2Proof.Machine

variable {lo lo' k : Nat} {b : Byte} {m m' : Memory}

theorem memWfFrom_cons_iff :
    memWfFrom lo ((k, b) :: m) = true ↔ lo ≤ k ∧ b ≠ unwrittenByte ∧ memWfFrom (k + 1) m = true := by
  simp [memWfFrom, and_assoc]

theorem memGet_cons_self (k : Nat) (b : Byte) (m : Memory) : memGet ((k, b) :: m) k = b := if_pos rfl

theorem memGet_cons_ne (b : Byte) (m : Memory) {a : Nat} (h : a ≠ k) : memGet ((k, b) :: m) a = memGet m a := if_neg h

/-- Below its first address a canonical memory is unwritten. -/
theorem memGet_below (hm : memWfFrom lo m = true) {a : Nat} (ha : a < lo) : memGet m a = unwrittenByte := by
  induction m generalizing lo with
  | nil => rfl
  | cons p m ih =>
    obtain ⟨k, b⟩ := p
    obtain ⟨hk, -, hrest⟩ := memWfFrom_cons_iff.1 hm
    rw [memGet_cons_ne b m (by omega)]
    exact ih hrest (by omega)

/-- The first address of a canonical memory is not below another that reads alike. -/
theorem le_first_of_reads_alike (hb : b ≠ unwrittenByte) (hm' : memWfFrom lo' m' = true)
    (h : ∀ a, memGet ((k, b) :: m) a = memGet m' a) : lo' ≤ k := by
  by_contra hlt
  have hk := h k
  rw [memGet_cons_self, memGet_below hm' (by omega)] at hk
  exact hb hk

/-- Canonical memories that read alike are equal. -/
theorem memory_ext (hm : memWfFrom lo m = true) (hm' : memWfFrom lo' m' = true) (h : ∀ a, memGet m a = memGet m' a) :
    m = m' := by
  induction m generalizing lo lo' m' with
  | nil =>
    cases m' with
    | nil => rfl
    | cons p m' =>
      obtain ⟨k, b⟩ := p
      obtain ⟨-, hb, -⟩ := memWfFrom_cons_iff.1 hm'
      exact absurd ((memGet_cons_self k b m').symm.trans (h k).symm) hb
  | cons p m ih =>
    obtain ⟨k, b⟩ := p
    obtain ⟨-, hb, hrest⟩ := memWfFrom_cons_iff.1 hm
    cases m' with
    | nil => exact absurd ((memGet_cons_self k b m).symm.trans (h k)) hb
    | cons p' m' =>
      obtain ⟨k', b'⟩ := p'
      obtain ⟨-, hb', hrest'⟩ := memWfFrom_cons_iff.1 hm'
      have hle : k' ≤ k := le_first_of_reads_alike hb (memWfFrom_cons_iff.2 ⟨le_rfl, hb', hrest'⟩) h
      have hge : k ≤ k' :=
        le_first_of_reads_alike hb' (memWfFrom_cons_iff.2 ⟨le_rfl, hb, hrest⟩) fun a => (h a).symm
      obtain rfl : k = k' := by omega
      have hbyte : b = b' := by simpa only [memGet_cons_self] using h k
      have htail (a : Nat) : memGet m a = memGet m' a := by
        by_cases ha : a = k
        · rw [memGet_below hrest (by omega), memGet_below hrest' (by omega)]
        · simpa only [memGet_cons_ne _ _ ha] using h a
      rw [hbyte, ih hrest hrest' htail]

/-- Writing a byte's own value changes nothing. -/
theorem memSet_memGet_self (hm : m.wf = true) (a : Nat) : memSet m a (memGet m a) = m := by
  refine memory_ext (memSet_wf a _ hm) hm fun k => ?_
  rw [memGet_memSet]
  split
  next hk => rw [hk]
  next => rfl

/-- Settles O54: canonical memories are determined by their bytes, and writing keeps the form. -/
theorem memoryIsCanonical : Obligations.MemoryIsCanonical :=
  ⟨fun _ _ hm hm' h => memory_ext hm hm' h,
    fun m a b hm => ⟨memSet_wf a b hm, memGet_memSet m a b, memSet_memGet_self hm a⟩⟩

end Sys2Proof.Machine
end

section
/-! Decoding an encoded instruction (spec/30_encoding.md R80, R92). An instruction belongs to one row of the opcode
table, and every word the row selects decodes to the instruction with the operands that stand in the word. -/

namespace Sys2Proof.Machine

variable {c : Config} {w v : Word} {i : Instr}

/-! ## Words that agree under a mask of the opcode table agree in the fields it covers, and conversely -/

theorem and_opcode_eq_iff : w &&& 0x0000007F#32 = v &&& 0x0000007F#32 ↔ opcodeOf w = opcodeOf v := by
  rw [(mask_opcode v _).2 rfl, mask_opcode]

theorem and_funct3_eq_iff :
    w &&& 0x0000707F#32 = v &&& 0x0000707F#32 ↔ opcodeOf w = opcodeOf v ∧ funct3Of w = funct3Of v := by
  rw [(mask_funct3 v _ _).2 ⟨rfl, rfl⟩, mask_funct3]

theorem and_funct7_eq_iff : w &&& 0xFE00707F#32 = v &&& 0xFE00707F#32 ↔
    opcodeOf w = opcodeOf v ∧ funct3Of w = funct3Of v ∧ funct7Of w = funct7Of v := by
  rw [(mask_funct7 v _ _ _).2 ⟨rfl, rfl, rfl⟩, mask_funct7]

theorem and_ones_eq_iff : w &&& 0xFFFFFFFF#32 = v &&& 0xFFFFFFFF#32 ↔ w = v := by
  rw [show 0xFFFFFFFF#32 = BitVec.allOnes 32 from rfl, BitVec.and_allOnes, BitVec.and_allOnes]

/-! ## The row of an instruction -/

/-- The mask of the row of the opcode table that an instruction belongs to (R80). -/
def selectMask : Instr → Word
  | .lui _ _ | .auipc _ _ | .jal _ _ => 0x0000007F#32
  | .slli _ _ _ | .srli _ _ _ | .srai _ _ _ | .add _ _ _ | .sub _ _ _ | .sll _ _ _ | .slt _ _ _ | .sltu _ _ _
  | .xor _ _ _ | .srl _ _ _ | .sra _ _ _ | .or _ _ _ | .and _ _ _ | .mul _ _ _ | .mulh _ _ _ | .mulhsu _ _ _
  | .mulhu _ _ _ | .div _ _ _ | .divu _ _ _ | .rem _ _ _ | .remu _ _ _ => 0xFE00707F#32
  | .ecall | .ebreak | .mret => 0xFFFFFFFF#32
  | .jalr _ _ _ | .beq _ _ _ | .bne _ _ _ | .blt _ _ _ | .bge _ _ _ | .bltu _ _ _ | .bgeu _ _ _ | .lb _ _ _ | .lh _ _ _
  | .lw _ _ _ | .lbu _ _ _ | .lhu _ _ _ | .sb _ _ _ | .sh _ _ _ | .sw _ _ _ | .addi _ _ _ | .slti _ _ _
  | .sltiu _ _ _ | .xori _ _ _ | .ori _ _ _ | .andi _ _ _ | .fence | .fenceI | .csrrw _ _ _ | .csrrs _ _ _
  | .csrrc _ _ _ | .csrrwi _ _ _ | .csrrsi _ _ _ | .csrrci _ _ _ | .exiti _ | .exit _ | .iocall _ => 0x0000707F#32

/-- The instruction with the same mnemonic and the operands that stand in a word (R71 to R77). -/
def refill (w : Word) : Instr → Instr
  | .lui _ _ => .lui (rdOf w) (immUOf w)
  | .auipc _ _ => .auipc (rdOf w) (immUOf w)
  | .jal _ _ => .jal (rdOf w) (immJOf w)
  | .jalr _ _ _ => .jalr (rdOf w) (rs1Of w) (immIOf w)
  | .beq _ _ _ => .beq (rs1Of w) (rs2Of w) (immBOf w)
  | .bne _ _ _ => .bne (rs1Of w) (rs2Of w) (immBOf w)
  | .blt _ _ _ => .blt (rs1Of w) (rs2Of w) (immBOf w)
  | .bge _ _ _ => .bge (rs1Of w) (rs2Of w) (immBOf w)
  | .bltu _ _ _ => .bltu (rs1Of w) (rs2Of w) (immBOf w)
  | .bgeu _ _ _ => .bgeu (rs1Of w) (rs2Of w) (immBOf w)
  | .lb _ _ _ => .lb (rdOf w) (rs1Of w) (immIOf w)
  | .lh _ _ _ => .lh (rdOf w) (rs1Of w) (immIOf w)
  | .lw _ _ _ => .lw (rdOf w) (rs1Of w) (immIOf w)
  | .lbu _ _ _ => .lbu (rdOf w) (rs1Of w) (immIOf w)
  | .lhu _ _ _ => .lhu (rdOf w) (rs1Of w) (immIOf w)
  | .sb _ _ _ => .sb (rs2Of w) (rs1Of w) (immSOf w)
  | .sh _ _ _ => .sh (rs2Of w) (rs1Of w) (immSOf w)
  | .sw _ _ _ => .sw (rs2Of w) (rs1Of w) (immSOf w)
  | .addi _ _ _ => .addi (rdOf w) (rs1Of w) (immIOf w)
  | .slti _ _ _ => .slti (rdOf w) (rs1Of w) (immIOf w)
  | .sltiu _ _ _ => .sltiu (rdOf w) (rs1Of w) (immIOf w)
  | .xori _ _ _ => .xori (rdOf w) (rs1Of w) (immIOf w)
  | .ori _ _ _ => .ori (rdOf w) (rs1Of w) (immIOf w)
  | .andi _ _ _ => .andi (rdOf w) (rs1Of w) (immIOf w)
  | .slli _ _ _ => .slli (rdOf w) (rs1Of w) (shamtOf w)
  | .srli _ _ _ => .srli (rdOf w) (rs1Of w) (shamtOf w)
  | .srai _ _ _ => .srai (rdOf w) (rs1Of w) (shamtOf w)
  | .add _ _ _ => .add (rdOf w) (rs1Of w) (rs2Of w)
  | .sub _ _ _ => .sub (rdOf w) (rs1Of w) (rs2Of w)
  | .sll _ _ _ => .sll (rdOf w) (rs1Of w) (rs2Of w)
  | .slt _ _ _ => .slt (rdOf w) (rs1Of w) (rs2Of w)
  | .sltu _ _ _ => .sltu (rdOf w) (rs1Of w) (rs2Of w)
  | .xor _ _ _ => .xor (rdOf w) (rs1Of w) (rs2Of w)
  | .srl _ _ _ => .srl (rdOf w) (rs1Of w) (rs2Of w)
  | .sra _ _ _ => .sra (rdOf w) (rs1Of w) (rs2Of w)
  | .or _ _ _ => .or (rdOf w) (rs1Of w) (rs2Of w)
  | .and _ _ _ => .and (rdOf w) (rs1Of w) (rs2Of w)
  | .mul _ _ _ => .mul (rdOf w) (rs1Of w) (rs2Of w)
  | .mulh _ _ _ => .mulh (rdOf w) (rs1Of w) (rs2Of w)
  | .mulhsu _ _ _ => .mulhsu (rdOf w) (rs1Of w) (rs2Of w)
  | .mulhu _ _ _ => .mulhu (rdOf w) (rs1Of w) (rs2Of w)
  | .div _ _ _ => .div (rdOf w) (rs1Of w) (rs2Of w)
  | .divu _ _ _ => .divu (rdOf w) (rs1Of w) (rs2Of w)
  | .rem _ _ _ => .rem (rdOf w) (rs1Of w) (rs2Of w)
  | .remu _ _ _ => .remu (rdOf w) (rs1Of w) (rs2Of w)
  | .fence => .fence
  | .fenceI => .fenceI
  | .ecall => .ecall
  | .ebreak => .ebreak
  | .mret => .mret
  | .csrrw _ _ _ => .csrrw (rdOf w) (csrOf w) (rs1Of w)
  | .csrrs _ _ _ => .csrrs (rdOf w) (csrOf w) (rs1Of w)
  | .csrrc _ _ _ => .csrrc (rdOf w) (csrOf w) (rs1Of w)
  | .csrrwi _ _ _ => .csrrwi (rdOf w) (csrOf w) (uimmOf w)
  | .csrrsi _ _ _ => .csrrsi (rdOf w) (csrOf w) (uimmOf w)
  | .csrrci _ _ _ => .csrrci (rdOf w) (csrOf w) (uimmOf w)
  | .exiti _ => .exiti (immIOf w)
  | .exit _ => .exit (rs1Of w)
  | .iocall _ => .iocall (immIOf w)

/-- An instruction takes its own operands back out of its encoding. -/
theorem refill_encode (hi : i.wf c = true) : refill (encode c i) i = i := by
  cases i
  case jal =>
    simp only [refill, encode, rdOf_encJ]
    rw [immJOf_encJ (by simpa [Instr.wf, evenJ] using hi)]
  case beq | bne | blt | bge | bltu | bgeu =>
    simp only [refill, encode, rs1Of_encB, rs2Of_encB]
    rw [immBOf_encB (by simpa [Instr.wf, evenB] using hi)]
  all_goals simp [refill, encode]

@[simp] theorem selectMask_refill (w : Word) (i : Instr) : selectMask (refill w i) = selectMask i := by
  cases i <;> rfl

/-- R2: the three function codes of custom-0 are distinct. -/
theorem custom0_codes_distinct (hc : c.wf = true) :
    c.f3Exiti ≠ c.f3Exit ∧ c.f3Exiti ≠ c.f3Iocall ∧ c.f3Exit ≠ c.f3Iocall := by
  simp only [Config.wf, Bool.and_eq_true, bne_iff_ne] at hc
  obtain ⟨⟨⟨-, ⟨h1, h2⟩, h3⟩, -⟩, -⟩ := hc
  exact ⟨h1, h2, h3⟩

/-- Every word that an instruction's row selects decodes to that instruction, with the operands in the word. Only
custom-0 rests on a constraint of the configuration. -/
theorem selects_row (hi : i.wf c = true) (hc : opcodeOf (encode c i) = 0x0B#7 → c.wf = true) :
    Selects c (selectMask i) (encode c i &&& selectMask i) (refill · i) := by
  intro w h
  cases i
  case lui | auipc | jal =>
    have ho := and_opcode_eq_iff.1 h
    simp only [encode, opcodeOf_encU, opcodeOf_encJ] at ho
    simp [decode, ho, refill]
  case ecall | ebreak | mret =>
    simp only [selectMask, encode, and_ones_eq_iff] at h
    rw [h]
    exact rfl
  case slli | srli | srai =>
    obtain ⟨ho, hf, hg⟩ := and_funct7_eq_iff.1 h
    simp only [encode, opcodeOf_encR, funct3Of_encR, funct7Of_encR] at ho hf hg
    simp [decode, decodeOpImm, ho, hf, hg, refill]
  case add | sub | sll | slt | sltu | xor | srl | sra | or | and | mul | mulh | mulhsu | mulhu | div | divu | rem
      | remu =>
    obtain ⟨ho, hf, hg⟩ := and_funct7_eq_iff.1 h
    simp only [encode, opcodeOf_encR, funct3Of_encR, funct7Of_encR] at ho hf hg
    simp [decode, decodeOp, decodeOpBase, decodeOpAlt, decodeOpM, ho, hf, hg, refill]
  all_goals
    obtain ⟨ho, hf⟩ := and_funct3_eq_iff.1 h
    simp only [encode, opcodeOf_encI, opcodeOf_encS, opcodeOf_encB, funct3Of_encI, funct3Of_encS,
      funct3Of_encB] at ho hf
  case beq | bne | blt | bge | bltu | bgeu => simp [decode, decodeBranch, ho, hf, refill]
  case sb | sh | sw => simp [decode, decodeStore, ho, hf, refill]
  case fence | fenceI => simpa [decode, decodeMiscMem, ho, hf, refill, Instr.wf] using hi
  case exiti | exit | iocall =>
    obtain ⟨h1, h2, h3⟩ := custom0_codes_distinct (hc (opcodeOf_encI ..))
    simp [decode, decodeCustom0, ho, hf, h1.symm, h2.symm, h3.symm, refill]
  all_goals simp [decode, decodeLoad, decodeOpImm, decodeSystem, ho, hf, refill]

/-- Settles O55: the row of the instruction selects its encoding, from which it takes its own operands back. -/
theorem decodeEncode : Obligations.DecodeEncode := by
  intro c i hc hi
  have hd : decode c (encode c i) = .ok (refill (encode c i) i) := selects_row hi (fun _ => hc) (encode c i) rfl
  rwa [refill_encode hi] at hd

end Sys2Proof.Machine
end

section
/-! Encoding a decoded word (spec/30_encoding.md R87, R92). -/

namespace Sys2Proof.Machine

variable {c : Config} {w m : Word} {i : Instr}

theorem decode_wf (h : decode c w = .ok i) : i.wf c = true := by
  obtain ⟨hi, -⟩ | ⟨-, hd⟩ | ⟨-, hd⟩ := decode_stands h
  · exact hi
  · obtain ⟨rfl, -, hp⟩ | ⟨rfl, -, hp⟩ := decodeMiscMem_ok hd <;> simp [Instr.wf, hp]
  · obtain ⟨rfl, -⟩ | ⟨rfl, -⟩ | ⟨rfl, -⟩ := decodeCustom0_ok hd <;> rfl

/-! ## Ignored fields (R87) -/

/-- A field under a mask is zero in a word that is zero under the mask. -/
theorem extractLsb'_eq_zero_of_and {k n : Nat} (h : w &&& m = 0#32) (hm : m.extractLsb' k n = BitVec.allOnes n) :
    w.extractLsb' k n = 0#n := by
  have e := congrArg (BitVec.extractLsb' k n) h
  simpa [BitVec.extractLsb'_and, hm] using e

theorem encI_of_rs1_rd_zero (h : w &&& 0x000F8F80#32 = 0#32) :
    encI (immIOf w) 0#5 (funct3Of w) 0#5 (opcodeOf w) = w := by
  have hrs1 : rs1Of w = 0#5 := extractLsb'_eq_zero_of_and h (by decide)
  have hrd : rdOf w = 0#5 := extractLsb'_eq_zero_of_and h (by decide)
  simpa only [hrs1, hrd] using encI_fields w

theorem encI_of_imm_rd_zero (h : w &&& 0xFFF00F80#32 = 0#32) :
    encI 0#12 (rs1Of w) (funct3Of w) 0#5 (opcodeOf w) = w := by
  have himm : immIOf w = 0#12 := extractLsb'_eq_zero_of_and h (by decide)
  have hrd : rdOf w = 0#5 := extractLsb'_eq_zero_of_and h (by decide)
  simpa only [himm, hrd] using encI_fields w

theorem encI_of_imm_rs1_rd_zero (h : w &&& 0xFFFF8F80#32 = 0#32) :
    encI 0#12 0#5 (funct3Of w) 0#5 (opcodeOf w) = w := by
  have himm : immIOf w = 0#12 := extractLsb'_eq_zero_of_and h (by decide)
  have hrs1 : rs1Of w = 0#5 := extractLsb'_eq_zero_of_and h (by decide)
  have hrd : rdOf w = 0#5 := extractLsb'_eq_zero_of_and h (by decide)
  simpa only [himm, hrs1, hrd] using encI_fields w

/-- A word whose ignored fields are zero is the encoding of what it decodes to. -/
theorem encode_eq_of_decode (h : decode c w = .ok i) (hz : w &&& ignoredBits i = 0#32) : encode c i = w := by
  obtain ⟨-, hw⟩ | ⟨ho, hd⟩ | ⟨ho, hd⟩ := decode_stands h
  · exact hw
  · obtain ⟨rfl, hf, -⟩ | ⟨rfl, hf, -⟩ := decodeMiscMem_ok hd
    all_goals
      have e := encI_of_imm_rs1_rd_zero hz
      rwa [ho, hf] at e
  · obtain ⟨rfl, hf⟩ | ⟨rfl, hf⟩ | ⟨rfl, hf⟩ := decodeCustom0_ok hd
    · have e := encI_of_rs1_rd_zero hz
      rwa [ho, hf] at e
    · have e := encI_of_imm_rd_zero hz
      rwa [ho, hf] at e
    · have e := encI_of_rs1_rd_zero hz
      rwa [ho, hf] at e

/-- Settles O56: well-formedness, and the word rebuilt, of whatever a word decodes to. -/
theorem encodeDecode : Obligations.EncodeDecode :=
  fun _ _ _ h => ⟨decode_wf h, encode_eq_of_decode h⟩

end Sys2Proof.Machine
end

section
/-! The opcode table and the decoder (spec/30_encoding.md R80, R81): under CFG0 a row selects exactly the words that
decode to an instruction of that row. -/

namespace Sys2Proof.Machine

variable {c : Config} {w : Word} {i : Instr} {r r' : TableRow}

/-- A decoded word agrees with its instruction's encoding under the mask of the instruction's row. -/
theorem and_selectMask_of_decode (h : decode c w = .ok i) : w &&& selectMask i = encode c i &&& selectMask i := by
  obtain ⟨-, e⟩ | ⟨ho, hd⟩ | ⟨ho, hd⟩ := decode_stands h
  · rw [e]
  · obtain ⟨rfl, hf, -⟩ | ⟨rfl, hf, -⟩ := decodeMiscMem_ok hd <;>
      exact and_funct3_eq_iff.2 ⟨by simp [encode, ho], by simp [encode, hf]⟩
  · obtain ⟨rfl, hf⟩ | ⟨rfl, hf⟩ | ⟨rfl, hf⟩ := decodeCustom0_ok hd <;>
      exact and_funct3_eq_iff.2 ⟨by simp [encode, ho], by simp [encode, hf]⟩

/-- The row of the opcode table that an instruction belongs to. -/
def rowOf (c : Config) (i : Instr) : TableRow := ⟨selectMask i, encode c i &&& selectMask i⟩

theorem rowOf_selects_iff : (rowOf c i).selects w = true ↔ w &&& selectMask i = encode c i &&& selectMask i :=
  beq_iff_eq

/-! ## The match value of a row, by format (R72) -/

theorem encU_and_mask (imm : BitVec 20) (rd : Reg) (op : BitVec 7) : encU imm rd op &&& 0x7F#32 = 0#25 ++ op :=
  (mask_opcode _ _).2 (by simp)

theorem encJ_and_mask (imm : BitVec 21) (rd : Reg) (op : BitVec 7) : encJ imm rd op &&& 0x7F#32 = 0#25 ++ op :=
  (mask_opcode _ _).2 (by simp)

theorem encI_and_mask (imm : BitVec 12) (r1 : Reg) (f3 : BitVec 3) (rd : Reg) (op : BitVec 7) :
    encI imm r1 f3 rd op &&& 0x707F#32 = 0#17 ++ f3 ++ 0#5 ++ op :=
  (mask_funct3 _ _ _).2 (by simp)

theorem encS_and_mask (imm : BitVec 12) (r2 r1 : Reg) (f3 : BitVec 3) (op : BitVec 7) :
    encS imm r2 r1 f3 op &&& 0x707F#32 = 0#17 ++ f3 ++ 0#5 ++ op :=
  (mask_funct3 _ _ _).2 (by simp)

theorem encB_and_mask (imm : BitVec 13) (r2 r1 : Reg) (f3 : BitVec 3) (op : BitVec 7) :
    encB imm r2 r1 f3 op &&& 0x707F#32 = 0#17 ++ f3 ++ 0#5 ++ op :=
  (mask_funct3 _ _ _).2 (by simp)

theorem encR_and_mask (f7 : BitVec 7) (r2 r1 : Reg) (f3 : BitVec 3) (rd : Reg) (op : BitVec 7) :
    encR f7 r2 r1 f3 rd op &&& 0xFE00707F#32 = f7 ++ 0#10 ++ f3 ++ 0#5 ++ op :=
  (mask_funct7 _ _ _ _).2 (by simp)

/-- The row of every instruction stands in the table. -/
theorem rowOf_mem (i : Instr) : rowOf Config.cfg0 i ∈ opcodeTable := by
  cases i
  all_goals
    simp only [rowOf, selectMask, encode, encU_and_mask, encJ_and_mask, encI_and_mask, encS_and_mask, encB_and_mask,
      encR_and_mask]
    decide

/-- Every row of the table is the row of the instruction that its match value decodes to. -/
theorem exists_rowOf (hr : r ∈ opcodeTable) : ∃ i : Instr, i.wf Config.cfg0 = true ∧ rowOf Config.cfg0 i = r := by
  have h : ∀ r ∈ opcodeTable, ∃ i ∈ (decode Config.cfg0 r.value).toOption, rowOf Config.cfg0 i = r := by decide
  obtain ⟨i, hi, e⟩ := h r hr
  cases hd : decode Config.cfg0 r.value with
  | error _ => rw [hd] at hi; cases hi
  | ok j => rw [hd] at hi; cases hi; exact ⟨i, decode_wf hd, e⟩

/-- A row selects exactly the words that decode to an instruction of that row. -/
theorem selects_iff (hr : r ∈ opcodeTable) :
    r.selects w = true ↔ ∃ i, decode Config.cfg0 w = .ok i ∧ rowOf Config.cfg0 i = r := by
  constructor
  · intro h
    obtain ⟨i, hi, rfl⟩ := exists_rowOf hr
    have hw := rowOf_selects_iff.1 h
    have hd : decode Config.cfg0 w = .ok (refill w i) := selects_row hi (fun _ => by decide) w hw
    have hw' := and_selectMask_of_decode hd
    rw [selectMask_refill] at hw'
    exact ⟨_, hd, by rw [rowOf, selectMask_refill, ← hw', hw, rowOf]⟩
  · rintro ⟨i, hd, rfl⟩
    exact rowOf_selects_iff.2 (and_selectMask_of_decode hd)

/-- A word is of one row, because it decodes to one instruction. -/
theorem selects_unique (hr : r ∈ opcodeTable) (hr' : r' ∈ opcodeTable) (h : r.selects w = true)
    (h' : r'.selects w = true) : r = r' := by
  obtain ⟨i, hi, rfl⟩ := (selects_iff hr).1 h
  obtain ⟨j, hj, rfl⟩ := (selects_iff hr').1 h'
  cases hi.symm.trans hj
  rfl

theorem decode_error_iff :
    (∃ e, decode Config.cfg0 w = .error e) ↔ ∀ r ∈ opcodeTable, r.selects w = false := by
  constructor
  · rintro ⟨e, he⟩ r hr
    by_contra h
    obtain ⟨i, hi, -⟩ := (selects_iff hr).1 (Bool.eq_true_of_not_eq_false h)
    cases he.symm.trans hi
  · intro h
    cases hd : decode Config.cfg0 w with
    | error e => exact ⟨e, rfl⟩
    | ok i =>
      have hs := (selects_iff (rowOf_mem i)).2 ⟨i, hd, rfl⟩
      cases (h _ (rowOf_mem i)).symm.trans hs

/-- Settles O57: the rows are those of the instructions, and each selects the words that decode to its own. -/
theorem opcodeTableDecidesLegality : Obligations.OpcodeTableDecidesLegality :=
  ⟨rfl, fun _ _ hr _ hr' => selects_unique hr hr', fun _ => decode_error_iff⟩

end Sys2Proof.Machine
end

section
/-! The immediates as formulas over the whole word (spec/30_encoding.md R73 to R77), bit by bit: above its field an
immediate repeats bit 31, as an arithmetic right shift does. -/

namespace Sys2Proof.Machine

/-- Bits of a sign-extended field: its own below its width, its top bit above. -/
theorem getLsbD_signExtend_word {n : Nat} (x : BitVec n) {k : Nat} (h : k < 32) :
    (x.signExtend 32).getLsbD k = if k < n then x.getLsbD k else x.getLsbD (n - 1) := by
  rw [BitVec.getLsbD_signExtend, BitVec.msb_eq_getLsbD_last, decide_eq_true h, Bool.true_and]

theorem getLsbD_sshiftRight_word (w : Word) (k : Nat) {i : Nat} (h : i < 32) :
    (w.sshiftRight k).getLsbD i = if k + i < 32 then w.getLsbD (k + i) else w.getLsbD 31 := by
  rw [BitVec.getLsbD_sshiftRight, BitVec.msb_eq_getLsbD_last, decide_eq_false (by omega), Bool.not_false, Bool.true_and]

theorem immVal_immIOf (w : Word) : immVal (immIOf w) = w.sshiftRight 20 := by
  refine field_ext fun i hi => ?_
  rw [immVal, getLsbD_signExtend_word _ hi, getLsbD_sshiftRight_word _ _ hi]
  interval_cases i <;> simp [immIOf]

theorem immVal_immSOf (w : Word) :
    immVal (immSOf w) = (w.sshiftRight 20 &&& 0xFFFFFFE0#32) ||| (w >>> 7 &&& 0x0000001F#32) := by
  refine field_ext fun i hi => ?_
  simp only [immVal, immSOf, getLsbD_signExtend_word _ hi, BitVec.getLsbD_or, BitVec.getLsbD_and,
    getLsbD_sshiftRight_word _ _ hi, BitVec.getLsbD_append]
  interval_cases i <;> simp

theorem offsetB_immBOf (w : Word) :
    offsetB (immBOf w) = (w.sshiftRight 19 &&& 0xFFFFF000#32) ||| (w <<< 4 &&& 0x00000800#32)
      ||| (w >>> 20 &&& 0x000007E0#32) ||| (w >>> 7 &&& 0x0000001E#32) := by
  refine field_ext fun i hi => ?_
  simp only [offsetB, immBOf, getLsbD_signExtend_word _ hi, BitVec.getLsbD_or, BitVec.getLsbD_and,
    getLsbD_sshiftRight_word _ _ hi, BitVec.getLsbD_append]
  interval_cases i <;> simp

theorem immUVal_immUOf (w : Word) : immUVal (immUOf w) = w &&& 0xFFFFF000#32 := by
  refine field_ext fun i hi => ?_
  simp only [immUVal, immUOf, BitVec.getLsbD_append, BitVec.getLsbD_and]
  interval_cases i <;> simp

theorem offsetJ_immJOf (w : Word) :
    offsetJ (immJOf w) = (w.sshiftRight 11 &&& 0xFFF00000#32) ||| (w &&& 0x000FF000#32)
      ||| (w >>> 9 &&& 0x00000800#32) ||| (w >>> 20 &&& 0x000007FE#32) := by
  refine field_ext fun i hi => ?_
  simp only [offsetJ, immJOf, getLsbD_signExtend_word _ hi, BitVec.getLsbD_or, BitVec.getLsbD_and,
    getLsbD_sshiftRight_word _ _ hi, BitVec.getLsbD_append]
  interval_cases i <;> simp

/-- Settles O58: the five immediates, one lemma each. -/
theorem immediateFormulas : Obligations.ImmediateFormulas := fun w =>
  ⟨immVal_immIOf w, immVal_immSOf w, offsetB_immBOf w, immUVal_immUOf w, offsetJ_immJOf w⟩

end Sys2Proof.Machine
end

section
/-! `LI` and `CALL` (spec/30_encoding.md R91): the two parts of a value sum to it. -/

namespace Sys2Proof.Machine

/-! ## The split of a value (log 6) -/

theorem immVal_lo12_toNat (v : Word) : (immVal (lo12 v)).toNat =
    if v.toNat % 4096 < 2048 then v.toNat % 4096 else v.toNat % 4096 + (2 ^ 32 - 4096) := by
  simp only [immVal, lo12, BitVec.toNat_signExtend, BitVec.msb_eq_decide, BitVec.toNat_setWidth,
    BitVec.extractLsb'_toNat, Nat.shiftRight_zero, decide_eq_true_eq]
  split <;> split <;> omega

theorem immUVal_hi20_toNat (v : Word) : (immUVal (hi20 v)).toNat = (v.toNat + 2048) % 2 ^ 32 / 4096 * 4096 := by
  have h : (v + 0x800#32).toNat = (v.toNat + 2048) % 2 ^ 32 := BitVec.toNat_add v 0x800#32
  simp only [immUVal, hi20, BitVec.toNat_append, BitVec.extractLsb'_toNat, h, BitVec.toNat_ofNat, Nat.zero_mod,
    Nat.or_zero, Nat.shiftLeft_eq, Nat.shiftRight_eq_div_pow]
  omega

/-- The upper part makes up for the sign of the lower one (R91). -/
theorem immUVal_hi20_add_immVal_lo12 (v : Word) : immUVal (hi20 v) + immVal (lo12 v) = v := by
  apply BitVec.eq_of_toNat_eq
  rw [BitVec.toNat_add, immVal_lo12_toNat, immUVal_hi20_toNat]
  have := v.isLt
  split <;> omega

/-- Where the lower part is zero, the upper part is the whole value. -/
theorem immUVal_hi20_of_lo12_zero {v : Word} (h : lo12 v = 0#12) : immUVal (hi20 v) = v := by
  have e := immUVal_hi20_add_immVal_lo12 v
  rwa [h, show immVal 0#12 = 0#32 from rfl, BitVec.add_zero] at e

/-- Clearing bit 0 changes no multiple of 4 (R141). -/
theorem and_clearBit0_of_aligned {a : Word} (h : a &&& 3#32 = 0#32) : a &&& 0xFFFFFFFE#32 = a := by
  have h0 : a &&& 1#32 = 0#32 := by
    rw [show 1#32 = 3#32 &&& 1#32 from rfl, ← BitVec.and_assoc, h, BitVec.zero_and]
  calc a &&& 0xFFFFFFFE#32 = (a &&& 0xFFFFFFFE#32) ||| (a &&& 1#32) := by rw [h0, BitVec.or_zero]
    _ = a &&& BitVec.allOnes 32 := by rw [← BitVec.and_or_distrib_left]; rfl
    _ = a := BitVec.and_allOnes

/-! ## The expansions -/

variable {s t u : State} {rd : Reg} {imm off : Word} {i j : Instr}

theorem retireWith_x_self (s : State) (v : Word) (h : rd ≠ 0#5) : (s.retireWith rd v).x rd = v := by
  rw [retireWith_x, if_pos ⟨rfl, h⟩]

theorem expandLi_pair (h : expandLi rd imm = [i, j]) : i = .lui rd (hi20 imm) ∧ j = .addi rd rd (lo12 imm) := by
  unfold expandLi at h
  split at h
  · cases h
  · split at h
    · cases h
    · cases h; exact ⟨rfl, rfl⟩

theorem expandLi_single (h : expandLi rd imm = [i]) :
    (i = .addi rd 0#5 (lo12 imm) ∧ immVal (lo12 imm) = imm) ∨ (i = .lui rd (hi20 imm) ∧ lo12 imm = 0#12) := by
  unfold expandLi at h
  split at h
  · cases h; exact .inl ⟨rfl, ‹_›⟩
  · split at h
    · cases h; exact .inr ⟨rfl, ‹_›⟩
    · cases h

/-- `LUI` and `ADDI` leave the two parts' sum. -/
theorem lui_addi_loads (hrd : rd ≠ 0#5) (hi : exec (.lui rd (hi20 imm)) s = .next t)
    (hj : exec (.addi rd rd (lo12 imm)) t = .next u) : u.x rd = imm := by
  cases hi
  cases hj
  rw [retireWith_x_self _ _ hrd, retireWith_x_self _ _ hrd, immUVal_hi20_add_immVal_lo12]

/-- `ADDI` from `x0` leaves the sign-extended immediate. -/
theorem addi_zero_loads (hrd : rd ≠ 0#5) (hi : exec (.addi rd 0#5 (lo12 imm)) s = .next t) :
    t.x rd = immVal (lo12 imm) := by
  cases hi
  rw [retireWith_x_self _ _ hrd]
  exact BitVec.zero_add _

theorem lui_loads (hrd : rd ≠ 0#5) (hi : exec (.lui rd (hi20 imm)) s = .next t) : t.x rd = immUVal (hi20 imm) := by
  cases hi
  exact retireWith_x_self _ _ hrd

/-- `AUIPC` and `JALR` go to the sum of `pc` and the two parts, and link the address after the second (R148). -/
theorem auipc_jalr_calls (ha : (s.pc + off) &&& 3#32 = 0#32) (hi : exec (.auipc 1#5 (hi20 off)) s = .next t)
    (hj : exec (.jalr 1#5 1#5 (lo12 off)) t = .next u) : u.pc = s.pc + off ∧ u.x 1#5 = s.pc + 8#32 := by
  cases hi
  cases hj
  have hbase : (s.retireWith 1#5 (s.pc + immUVal (hi20 off))).x 1#5 = s.pc + immUVal (hi20 off) :=
    retireWith_x_self _ _ (by decide)
  rw [hbase, BitVec.add_assoc, immUVal_hi20_add_immVal_lo12, and_clearBit0_of_aligned ha]
  have hw := jumpLink_aligned (s.retireWith 1#5 (s.pc + immUVal (hi20 off))) 1#5 ((aligned_word_iff _).2 ha)
  exact ⟨hw.pc, hw.regs.result.trans (BitVec.add_assoc ..)⟩

/-- Settles O60: each expansion, by the instructions it consists of. -/
theorem loadImmediateAndCall : Obligations.LoadImmediateAndCall := by
  refine ⟨?_, ?_, ?_⟩
  · intro s t u rd imm i j hrd he hi hj
    obtain ⟨rfl, rfl⟩ := expandLi_pair he
    exact lui_addi_loads hrd hi hj
  · intro s t rd imm i hrd he hi
    obtain ⟨rfl, hv⟩ | ⟨rfl, hz⟩ := expandLi_single he
    · exact (addi_zero_loads hrd hi).trans hv
    · exact (lui_loads hrd hi).trans (immUVal_hi20_of_lo12_zero hz)
  · intro s t u off i j he ha hi hj
    cases he
    exact auipc_jalr_calls ha hi hj

end Sys2Proof.Machine
end

section
/-! The rules for an instruction that writes `x[rd]` and retires, and for the words its row selects
(spec/10_state.md R14, spec/30_encoding.md R80). -/

namespace Sys2Proof.Machine

variable {c : Config} {i : Instr} {rd : Reg}

/-- An instruction whose meaning is `retireWith` completes in every state and changes nothing else. -/
theorem computes_of_retireWith {v : State → Word} (h : ∀ s, exec i s = .next (s.retireWith rd (v s))) :
    Computes i rd v := fun s => ⟨_, h s, retireWith_writes s rd (v s)⟩

/-- Only custom-0 instructions are encoded by the configuration (R85). -/
theorem encode_eq_cfg0 (h : opcodeOf (encode Config.cfg0 i) ≠ 0x0B#7) : encode c i = encode Config.cfg0 i := by
  cases i
  case exiti | exit | iocall => exact absurd (opcodeOf_encI ..) h
  all_goals rfl

/-- Outside custom-0, the row of an instruction selects its words under every configuration that has it. The operands of
`i` do not matter: an instruction with zero operands names the row, and `decide` finds its mask and match value. -/
theorem selects_of_rowOf (i : Instr) {mask value : Word} (hi : i.wf c = true := by rfl)
    (ho : opcodeOf (encode Config.cfg0 i) ≠ 0x0B#7 := by decide)
    (hr : rowOf Config.cfg0 i = ⟨mask, value⟩ := by decide) : Selects c mask value (refill · i) := by
  have he : encode c i = encode Config.cfg0 i := encode_eq_cfg0 ho
  cases hr
  rw [← he] at ho ⊢
  exact selects_row hi fun h => absurd h ho

end Sys2Proof.Machine
end

section
/-! The integer computational instructions (spec/40_integer_computational.md R100 to R123): each writes one register and
retires, so what is left to show of an instruction is its row and its result. -/

namespace Sys2Proof.Machine

variable {c : Config} {w : Word}

/-! ## Results -/

theorem boolWord_ltSigned (a b : Word) : boolWord (ltSigned a b) = if a.toInt < b.toInt then 1#32 else 0#32 := by
  simp only [boolWord, ltSigned, decide_eq_true_eq]

theorem boolWord_ltUnsigned (a b : Word) : boolWord (ltUnsigned a b) = if a.toNat < b.toNat then 1#32 else 0#32 := by
  simp only [boolWord, ltUnsigned, decide_eq_true_eq]

/-- Bits 4:0 of the source are the source modulo 32 (R123). -/
theorem shiftAmount_eq_mod (v : Word) : shiftAmount v = v.toNat % 32 := by
  rw [shiftAmount, BitVec.toNat_and]
  exact Nat.and_two_pow_sub_one_eq_mod v.toNat 5

/-! ## The illegal shift immediates (R81, R83) -/

/-- A mask over the top seven bits is a mask over `funct7`. -/
theorem and_funct7_mask (w : Word) (m : BitVec 7) : w &&& (m ++ 0#25) = (funct7Of w &&& m) ++ 0#25 := by
  refine field_ext fun k hk => ?_
  simp only [funct7Of, BitVec.getLsbD_and, BitVec.getLsbD_append, BitVec.getLsbD_extractLsb', BitVec.getLsbD_zero]
  split
  · rw [Bool.and_false]
  next h => rw [decide_eq_true (by omega), Bool.true_and, Nat.add_sub_cancel' (by omega)]

theorem decode_slli_illegal (ho : opcodeOf w = 0x13#7) (hf : funct3Of w = 1#3) (hg : funct7Of w ≠ 0#7) :
    decode c w = .error .shiftImmediate := by simp [decode, decodeOpImm, ho, hf, hg]

theorem decode_srli_srai_illegal (ho : opcodeOf w = 0x13#7) (hf : funct3Of w = 5#3) (hl : funct7Of w ≠ 0#7)
    (ha : funct7Of w ≠ 0x20#7) : decode c w = .error .shiftImmediate := by simp [decode, decodeOpImm, ho, hf, hl, ha]

/-- A word with bits outside a mask of `funct7` has none of the values that are zero under it. -/
theorem funct7Of_ne_of_and_ne_zero {m g : BitVec 7} (h : w &&& (m ++ 0#25) ≠ 0#32) (hg : g &&& m = 0#7) :
    funct7Of w ≠ g := by
  rintro rfl
  rw [and_funct7_mask, hg] at h
  exact h rfl

/-! ## The obligations -/

/-- Settles O1: four rows of the table, and four meanings that write `x[rd]` and retire. -/
theorem opImmArithmetic : Obligations.OpImmArithmetic := by
  refine ⟨fun _ => selects_of_rowOf (.addi 0#5 0#5 0#12), fun _ => selects_of_rowOf (.xori 0#5 0#5 0#12),
    fun _ => selects_of_rowOf (.ori 0#5 0#5 0#12), fun _ => selects_of_rowOf (.andi 0#5 0#5 0#12),
    ?_, ?_, ?_, ?_⟩
  all_goals exact fun _ _ _ => computes_of_retireWith fun _ => rfl

/-- Settles O2: the results are the words of the signed and the unsigned comparison. -/
theorem opImmCompare : Obligations.OpImmCompare := by
  refine ⟨fun _ => selects_of_rowOf (.slti 0#5 0#5 0#12), fun _ => selects_of_rowOf (.sltiu 0#5 0#5 0#12),
    fun rd rs1 imm => ?_, fun rd rs1 imm => ?_⟩
  · simp only [← boolWord_ltSigned]
    exact computes_of_retireWith fun _ => rfl
  · simp only [← boolWord_ltUnsigned]
    exact computes_of_retireWith fun _ => rfl

/-- Settles O3: the illegal words have a `funct7` that is no row's. -/
theorem shiftImmediate : Obligations.ShiftImmediate := by
  refine ⟨fun _ => selects_of_rowOf (.slli 0#5 0#5 0#5), fun _ => selects_of_rowOf (.srli 0#5 0#5 0#5),
    fun _ => selects_of_rowOf (.srai 0#5 0#5 0#5), fun c w h hg => ?_, fun c w h hg => ?_, ?_, ?_, ?_⟩
  · obtain ⟨ho, hf⟩ := (mask_funct3 w 1#3 0x13#7).1 h
    exact decode_slli_illegal ho hf (funct7Of_ne_of_and_ne_zero (m := 0x7F#7) hg (by decide))
  · obtain ⟨ho, hf⟩ := (mask_funct3 w 5#3 0x13#7).1 h
    exact decode_srli_srai_illegal ho hf (funct7Of_ne_of_and_ne_zero (m := 0x5F#7) hg (by decide))
      (funct7Of_ne_of_and_ne_zero (m := 0x5F#7) hg (by decide))
  all_goals exact fun _ _ _ => computes_of_retireWith fun _ => rfl

/-- Settles O4: the U-immediate of a word is the word with its low 12 bits cleared (R76). -/
theorem upperImmediate : Obligations.UpperImmediate := by
  refine ⟨fun _ => selects_of_rowOf (.lui 0#5 0#20), fun _ => selects_of_rowOf (.auipc 0#5 0#20),
    fun w rd => ?_, fun w rd => ?_⟩
  all_goals
    rw [← immUVal_immUOf]
    exact computes_of_retireWith fun _ => rfl

/-- Settles O5: five rows of the table, and five meanings that write `x[rd]` and retire. -/
theorem opArithmetic : Obligations.OpArithmetic := by
  refine ⟨fun _ => selects_of_rowOf (.add 0#5 0#5 0#5), fun _ => selects_of_rowOf (.sub 0#5 0#5 0#5),
    fun _ => selects_of_rowOf (.xor 0#5 0#5 0#5), fun _ => selects_of_rowOf (.or 0#5 0#5 0#5),
    fun _ => selects_of_rowOf (.and 0#5 0#5 0#5), ?_, ?_, ?_, ?_, ?_⟩
  all_goals exact fun _ _ _ => computes_of_retireWith fun _ => rfl

/-- Settles O6: bits 4:0 of the source are its value modulo 32. -/
theorem opShift : Obligations.OpShift := by
  refine ⟨fun _ => selects_of_rowOf (.sll 0#5 0#5 0#5), fun _ => selects_of_rowOf (.srl 0#5 0#5 0#5),
    fun _ => selects_of_rowOf (.sra 0#5 0#5 0#5), ?_, ?_, ?_⟩
  all_goals
    simp only [← shiftAmount_eq_mod]
    exact fun _ _ _ => computes_of_retireWith fun _ => rfl

/-- Settles O7: the results are the words of the signed and the unsigned comparison. -/
theorem opCompare : Obligations.OpCompare := by
  refine ⟨fun _ => selects_of_rowOf (.slt 0#5 0#5 0#5), fun _ => selects_of_rowOf (.sltu 0#5 0#5 0#5),
    fun rd rs1 rs2 => ?_, fun rd rs1 rs2 => ?_⟩
  · simp only [← boolWord_ltSigned]
    exact computes_of_retireWith fun _ => rfl
  · simp only [← boolWord_ltUnsigned]
    exact computes_of_retireWith fun _ => rfl

end Sys2Proof.Machine
end

section
/-! The multiply and divide instructions (spec/41_muldiv.md R130 to R139). The high halves are read off the exact
product modulo 2^64; the remainders are the library's `srem` and `%` for every divisor, so their bounds and sign are
the library's. -/

namespace Sys2Proof.Machine

variable {a b : Word}

/-! ## High halves -/

theorem highHalf_mul (x y : Int) : highHalf (x * y) = (BitVec.ofInt 64 x * BitVec.ofInt 64 y).extractLsb' 32 32 := by
  rw [highHalf, BitVec.ofInt_mul]

/-- An operand read as unsigned is the operand zero-extended. -/
theorem ofInt_toNat_eq_setWidth (a : Word) : BitVec.ofInt 64 (a.toNat : Int) = a.setWidth 64 := by
  rw [BitVec.ofInt_natCast, BitVec.ofNat_toNat]

theorem highHalf_natCast (n : Nat) : highHalf (n : Int) = BitVec.ofNat 32 (n / 2 ^ 32) := by
  apply BitVec.eq_of_toNat_eq
  rw [highHalf, BitVec.ofInt_natCast, BitVec.extractLsb'_toNat, BitVec.toNat_ofNat, BitVec.toNat_ofNat,
    Nat.shiftRight_eq_div_pow]
  omega

/-! ## Signed division -/

/-- The overflow case too is the quotient narrowed to 32 bits (R139). -/
theorem divSigned_eq_ofInt (a : Word) (hb : b ≠ 0#32) : divSigned a b = BitVec.ofInt 32 (a.toInt.tdiv b.toInt) := by
  rw [divSigned, if_neg hb]
  split
  next h => obtain ⟨rfl, rfl⟩ := h; decide
  next => rfl

theorem remSigned_eq_srem (a b : Word) : remSigned a b = a.srem b := by
  unfold remSigned
  split
  next h => rw [h, BitVec.srem_zero]
  next =>
    split
    next h => obtain ⟨rfl, rfl⟩ := h; decide
    next => rw [← Int.tmod_def, ← BitVec.toInt_srem, BitVec.ofInt_toInt]

theorem mul_divSigned_add_remSigned (a b : Word) : b * divSigned a b + remSigned a b = a := by
  rw [remSigned_eq_srem]
  by_cases hb : b = 0#32
  · rw [hb, BitVec.zero_mul, BitVec.zero_add, BitVec.srem_zero]
  · calc b * divSigned a b + a.srem b
        = BitVec.ofInt 32 b.toInt * BitVec.ofInt 32 (a.toInt.tdiv b.toInt)
            + BitVec.ofInt 32 (a.toInt.tmod b.toInt) := by
          rw [divSigned_eq_ofInt a hb, ← BitVec.toInt_srem, BitVec.ofInt_toInt, BitVec.ofInt_toInt]
      _ = BitVec.ofInt 32 (b.toInt * a.toInt.tdiv b.toInt + a.toInt.tmod b.toInt) := by
          rw [BitVec.ofInt_add, BitVec.ofInt_mul]
      _ = a := by rw [Int.mul_tdiv_add_tmod, BitVec.ofInt_toInt]

theorem natAbs_remSigned_lt (a : Word) (hb : b ≠ 0#32) : (remSigned a b).toInt.natAbs < b.toInt.natAbs := by
  have hpos : 0 < b.toInt.natAbs := Int.natAbs_pos.2 fun h => hb (BitVec.eq_of_toInt_eq h)
  rw [remSigned_eq_srem, BitVec.toInt_srem, Int.natAbs_tmod]
  exact Nat.mod_lt _ hpos

/-- A nonzero remainder has the sign bit of the dividend. -/
theorem remSigned_neg_iff (hr : remSigned a b ≠ 0#32) : (remSigned a b).toInt < 0 ↔ a.toInt < 0 := by
  rw [remSigned_eq_srem] at hr ⊢
  have hne : decide (a.srem b ≠ 0) = true := decide_eq_true hr
  rw [← decide_eq_decide, ← BitVec.msb_eq_toInt, ← BitVec.msb_eq_toInt, BitVec.msb_srem, hne, Bool.and_true]

/-! ## Unsigned division -/

theorem remUnsigned_eq_umod (a b : Word) : remUnsigned a b = a % b := by
  unfold remUnsigned
  split
  next h => rw [h, BitVec.umod_zero]
  next => rw [BitVec.umod_def]

theorem mul_divUnsigned_add_remUnsigned (a b : Word) : b * divUnsigned a b + remUnsigned a b = a := by
  rw [remUnsigned_eq_umod]
  by_cases hb : b = 0#32
  · rw [hb, BitVec.zero_mul, BitVec.zero_add, BitVec.umod_zero]
  · calc b * divUnsigned a b + a % b
        = BitVec.ofNat 32 (b.toNat * (a.toNat / b.toNat) + a.toNat % b.toNat) := by
          rw [divUnsigned, if_neg hb, BitVec.umod_def, BitVec.ofNat_add, BitVec.ofNat_mul, BitVec.ofNat_toNat,
            BitVec.setWidth_eq]
      _ = a := by rw [Nat.div_add_mod, BitVec.ofNat_toNat, BitVec.setWidth_eq]

theorem remUnsigned_lt (a : Word) (hb : b ≠ 0#32) : (remUnsigned a b).toNat < b.toNat := by
  rw [remUnsigned_eq_umod]
  exact BitVec.umod_lt a ((BitVec.pos_iff_ne_zero b).2 hb)

/-! ## The obligations -/

/-- Settles O8: the exact product modulo 2^64 is the product of the operands extended to 64 bits. -/
theorem multiply : Obligations.Multiply := by
  refine ⟨fun _ => selects_of_rowOf (.mul 0#5 0#5 0#5), fun _ => selects_of_rowOf (.mulh 0#5 0#5 0#5),
    fun _ => selects_of_rowOf (.mulhsu 0#5 0#5 0#5), fun _ => selects_of_rowOf (.mulhu 0#5 0#5 0#5),
    fun rd rs1 rs2 => ?mul, fun rd rs1 rs2 => ?mulh, fun rd rs1 rs2 => ?mulhsu, fun rd rs1 rs2 => ?mulhu⟩
  case mul => exact computes_of_retireWith fun _ => rfl
  case mulh =>
    simp only [BitVec.signExtend, ← highHalf_mul]
    exact computes_of_retireWith fun _ => rfl
  case mulhsu =>
    simp only [BitVec.signExtend, ← ofInt_toNat_eq_setWidth, ← highHalf_mul]
    exact computes_of_retireWith fun _ => rfl
  case mulhu =>
    simp only [← highHalf_natCast, Int.natCast_mul]
    exact computes_of_retireWith fun _ => rfl

/-- Settles O9: the model's quotients and remainders are stated with the rules' special cases. -/
theorem divide : Obligations.Divide := by
  refine ⟨fun _ => selects_of_rowOf (.div 0#5 0#5 0#5), fun _ => selects_of_rowOf (.divu 0#5 0#5 0#5),
    fun _ => selects_of_rowOf (.rem 0#5 0#5 0#5), fun _ => selects_of_rowOf (.remu 0#5 0#5 0#5), ?_, ?_, ?_, ?_⟩
  all_goals exact fun _ _ _ => computes_of_retireWith fun _ => rfl

/-- Settles O10: each law is one of the two divisions, read through the register the instruction wrote. -/
theorem divisionIdentity : Obligations.DivisionIdentity := by
  intro s q r qu ru rd rs1 rs2 hrd hq hr hqu hru
  cases hq; cases hr; cases hqu; cases hru
  simp only [retireWith_x_self _ _ hrd]
  exact ⟨(mul_divSigned_add_remSigned _ _).symm, (mul_divUnsigned_add_remUnsigned _ _).symm, fun hb =>
    ⟨natAbs_remSigned_lt _ hb, or_iff_not_imp_left.2 remSigned_neg_iff, remUnsigned_lt _ hb⟩⟩

end Sys2Proof.Machine
end

section
/-! Control transfer (spec/42_control_transfer.md R140 to R148): the jump and the conditional branch, each in the cases
of its alignment test, and which bit of a target can fail that test. -/

namespace Sys2Proof.Machine

variable {c : Config} {w : Word} {s t : State} {i : Instr} {rd : Reg} {target : Word} {offset : BitVec 13}
  {taken : State → Prop}

/-! ## The two shared operations (R148) -/

theorem aligned_word_eq_false_iff (a : Word) : aligned .word a = false ↔ a &&& 3#32 ≠ 0#32 := by
  rw [← Bool.not_eq_true, aligned_word_iff]

theorem jumpLink_links (s : State) (rd : Reg) (target : Word) : Links s (s.jumpLink rd target) rd target where
  adopted h := jumpLink_aligned s rd ((aligned_word_iff target).2 h)
  trapped h := by
    rw [jumpLink_misaligned s rd ((aligned_word_eq_false_iff target).2 h)]
    exact trap_takes s _

/-- The condition as the model decides it and as a rule states it are the same. -/
theorem branch_branches (s : State) (offset : BitVec 13) {cond : Bool} {p : Prop} (hp : cond = true ↔ p) :
    Branches s (s.branch cond offset) p (s.pc + offset.signExtend 32) where
  notTaken h := by
    rw [Bool.eq_false_iff.2 (mt hp.1 h)]
    exact setPc_goesTo s _
  adopted h ha := by
    rw [hp.2 h, branch_taken s ((aligned_word_iff _).2 ha)]
    exact setPc_goesTo s _
  trapped h ha := by
    rw [hp.2 h, branch_misaligned s ((aligned_word_eq_false_iff _).2 ha)]
    exact trap_takes s _

/-! ## The two jumps (R140, R141) -/

theorem jal_links (rd : Reg) (offset : BitVec 21) (s : State) :
    ∃ t, exec (.jal rd offset) s = .next t ∧ Links s t rd (s.pc + offset.signExtend 32) :=
  ⟨_, rfl, jumpLink_links s rd _⟩

theorem jalr_links (rd rs1 : Reg) (imm : BitVec 12) (s : State) :
    ∃ t, exec (.jalr rd rs1 imm) s = .next t ∧ Links s t rd ((s.x rs1 + imm.signExtend 32) &&& 0xFFFFFFFE#32) :=
  ⟨_, rfl, jumpLink_links s rd _⟩

/-! ## The six branches (R142 to R147) -/

theorem branchesOn_of_branch {cond : State → Bool} (hp : ∀ s, cond s = true ↔ taken s)
    (h : ∀ s, exec i s = .next (s.branch (cond s) offset)) : BranchesOn i offset taken :=
  fun s => ⟨_, h s, branch_branches s offset (hp s)⟩

theorem beq_branchesOn (rs1 rs2 : Reg) (offset : BitVec 13) :
    BranchesOn (.beq rs1 rs2 offset) offset fun s => s.x rs1 = s.x rs2 :=
  branchesOn_of_branch (fun _ => beq_iff_eq) fun _ => rfl

theorem bne_branchesOn (rs1 rs2 : Reg) (offset : BitVec 13) :
    BranchesOn (.bne rs1 rs2 offset) offset fun s => s.x rs1 ≠ s.x rs2 :=
  branchesOn_of_branch (fun _ => bne_iff_ne) fun _ => rfl

theorem blt_branchesOn (rs1 rs2 : Reg) (offset : BitVec 13) :
    BranchesOn (.blt rs1 rs2 offset) offset fun s => (s.x rs1).toInt < (s.x rs2).toInt :=
  branchesOn_of_branch (fun _ => decide_eq_true_iff) fun _ => rfl

theorem bge_branchesOn (rs1 rs2 : Reg) (offset : BitVec 13) :
    BranchesOn (.bge rs1 rs2 offset) offset fun s => (s.x rs2).toInt ≤ (s.x rs1).toInt :=
  branchesOn_of_branch (fun s => by simp [ltSigned]) fun _ => rfl

theorem bltu_branchesOn (rs1 rs2 : Reg) (offset : BitVec 13) :
    BranchesOn (.bltu rs1 rs2 offset) offset fun s => (s.x rs1).toNat < (s.x rs2).toNat :=
  branchesOn_of_branch (fun _ => decide_eq_true_iff) fun _ => rfl

theorem bgeu_branchesOn (rs1 rs2 : Reg) (offset : BitVec 13) :
    BranchesOn (.bgeu rs1 rs2 offset) offset fun s => (s.x rs2).toNat ≤ (s.x rs1).toNat :=
  branchesOn_of_branch (fun s => by simp [ltUnsigned]) fun _ => rfl

/-! ## The illegal words of JALR (R81) -/

/-- Under a mask of bits 14:12 a word is its `funct3` in place. -/
theorem and_funct3_mask (w : Word) : w &&& 0x00007000#32 = 0#17 ++ funct3Of w ++ 0#12 := by
  refine field_ext fun k hk => ?_
  simp only [funct3Of, BitVec.getLsbD_and, BitVec.getLsbD_append, BitVec.getLsbD_extractLsb']
  interval_cases k <;> simp

theorem funct3Of_ne_zero_of_and_ne_zero (h : w &&& 0x00007000#32 ≠ 0#32) : funct3Of w ≠ 0#3 := by
  intro hf
  rw [and_funct3_mask, hf] at h
  exact h rfl

theorem decode_jalr_illegal (ho : opcodeOf w = 0x67#7) (hf : funct3Of w ≠ 0#3) :
    decode c w = .error .jalrFunct3 := by simp [decode, ho, hf]

/-! ## The bit in which a target can fail (R148) -/

/-- The two low bits of an even word are its bit 1. -/
theorem and_three_of_even {v : Word} (h : v.getLsbD 0 = false) :
    v &&& 3#32 = if v.getLsbD 1 = true then 2#32 else 0#32 := by
  calc v &&& 3#32
      = v &&& (BitVec.twoPow 32 0 ||| BitVec.twoPow 32 1) := rfl
    _ = if v.getLsbD 1 = true then BitVec.twoPow 32 1 else 0#32 := by
        rw [BitVec.and_or_distrib_left, BitVec.and_twoPow, BitVec.and_twoPow, h, if_neg Bool.false_ne_true,
          BitVec.zero_or]

theorem and_three_eq_zero_iff_of_even {v : Word} (h : v.getLsbD 0 = false) :
    v &&& 3#32 = 0#32 ↔ v.getLsbD 1 = false := by
  rw [and_three_of_even h]
  cases v.getLsbD 1 <;> decide

theorem toNat_and_three (v : Word) : (v &&& 3#32).toNat = v.toNat % 4 := by
  rw [BitVec.toNat_and]
  exact Nat.and_two_pow_sub_one_eq_mod v.toNat 2

/-- An aligned `pc` adds nothing to the two low bits of a sum. -/
theorem add_and_three {pc : Word} (a : Word) (hp : pc &&& 3#32 = 0#32) : (pc + a) &&& 3#32 = a &&& 3#32 := by
  have hpc : pc.toNat % 4 = 0 := by rw [← toNat_and_three, hp]; rfl
  apply BitVec.eq_of_toNat_eq
  rw [toNat_and_three, toNat_and_three, BitVec.toNat_add]
  omega

theorem target_aligned_iff {n : Nat} {offset : BitVec n} {pc : Word} (hn : 1 < n) (he : offset.getLsbD 0 = false)
    (hp : pc &&& 3#32 = 0#32) : (pc + offset.signExtend 32) &&& 3#32 = 0#32 ↔ offset.getLsbD 1 = false := by
  have low (k : Nat) (hk : k < 2) : (offset.signExtend 32).getLsbD k = offset.getLsbD k := by
    rw [getLsbD_signExtend_word offset (by omega), if_pos (by omega)]
  rw [add_and_three _ hp, and_three_eq_zero_iff_of_even ((low 0 (by decide)).trans he), low 1 (by decide)]

/-- A jump whose target is aligned exactly if a bit is clear. -/
theorem Links.trap_or_write_by_bit (h : Links s t rd target) {b : Bool} (hb : target &&& 3#32 = 0#32 ↔ b = false) :
    (b = true → TakesTrap s t s.cfg.ecIAlign target) ∧ (b = false → WritesReg s t rd (s.pc + 4#32) target) :=
  ⟨fun hb1 => h.trapped (mt hb.1 (by simp [hb1])), fun hb0 => h.adopted (hb.2 hb0)⟩

theorem trapsExactlyInBitOne_of_branchesOn (h : BranchesOn i offset taken) (hi : ∀ c, i.wf c = evenB offset) :
    TrapsExactlyInBitOne i offset taken := by
  intro c w s hd hp ht
  have he : offset.getLsbD 0 = false := by simpa [hi, evenB] using decode_wf hd
  obtain ⟨t, hx, hb⟩ := h s
  have hbit := target_aligned_iff (by decide) he hp
  exact ⟨t, hx, fun h1 => hb.trapped ht (mt hbit.1 (by simp [h1])), fun h0 => hb.adopted ht (hbit.2 h0)⟩

/-- Clearing bit 0 makes a sum even and leaves its bit 1. -/
theorem getLsbD_and_clearBit0 (v : Word) : (v &&& 0xFFFFFFFE#32).getLsbD 0 = false ∧
    (v &&& 0xFFFFFFFE#32).getLsbD 1 = v.getLsbD 1 := by
  simp

/-! ## The obligations -/

/-- Settles O11: the row of `JAL`, and the jump in the cases of its alignment test. -/
theorem jalLinksAndJumps : Obligations.JalLinksAndJumps :=
  ⟨fun _ => selects_of_rowOf (.jal 0#5 0#21), jal_links⟩

/-- Settles O12: an illegal word has a `funct3` other than 0; the target is computed from the state before the link. -/
theorem jalrLinksAndJumps : Obligations.JalrLinksAndJumps := by
  refine ⟨fun _ => selects_of_rowOf (.jalr 0#5 0#5 0#12), fun c w h hf => ?_, jalr_links⟩
  have ho : opcodeOf w = 0x67#7 := (mask_opcode w 0x67#7).1 h
  exact decode_jalr_illegal ho (funct3Of_ne_zero_of_and_ne_zero hf)

/-- Settles O13: two rows, and the branches on equality. -/
theorem branchEquality : Obligations.BranchEquality :=
  ⟨fun _ => selects_of_rowOf (.beq 0#5 0#5 0#13), fun _ => selects_of_rowOf (.bne 0#5 0#5 0#13), beq_branchesOn,
    bne_branchesOn⟩

/-- Settles O14: two rows, and the branches on the signed comparison. -/
theorem branchSigned : Obligations.BranchSigned :=
  ⟨fun _ => selects_of_rowOf (.blt 0#5 0#5 0#13), fun _ => selects_of_rowOf (.bge 0#5 0#5 0#13), blt_branchesOn,
    bge_branchesOn⟩

/-- Settles O15: two rows, and the branches on the unsigned comparison. -/
theorem branchUnsigned : Obligations.BranchUnsigned :=
  ⟨fun _ => selects_of_rowOf (.bltu 0#5 0#5 0#13), fun _ => selects_of_rowOf (.bgeu 0#5 0#5 0#13), bltu_branchesOn,
    bgeu_branchesOn⟩

/-- Settles O16: a decoded offset is even, so bit 1 alone decides whether a target from an aligned `pc` is aligned. -/
theorem targetFailsOnlyInBitOne : Obligations.TargetFailsOnlyInBitOne := by
  refine ⟨fun c w s rd offset hd hp => ?jal,
    fun _ _ _ => trapsExactlyInBitOne_of_branchesOn (beq_branchesOn _ _ _) fun _ => rfl,
    fun _ _ _ => trapsExactlyInBitOne_of_branchesOn (bne_branchesOn _ _ _) fun _ => rfl,
    fun _ _ _ => trapsExactlyInBitOne_of_branchesOn (blt_branchesOn _ _ _) fun _ => rfl,
    fun _ _ _ => trapsExactlyInBitOne_of_branchesOn (bge_branchesOn _ _ _) fun _ => rfl,
    fun _ _ _ => trapsExactlyInBitOne_of_branchesOn (bltu_branchesOn _ _ _) fun _ => rfl,
    fun _ _ _ => trapsExactlyInBitOne_of_branchesOn (bgeu_branchesOn _ _ _) fun _ => rfl,
    fun s rd rs1 imm => ?jalr⟩
  case jal =>
    have he : offset.getLsbD 0 = false := by simpa [Instr.wf, evenJ] using decode_wf hd
    obtain ⟨t, hx, hl⟩ := jal_links rd offset s
    exact ⟨t, hx, hl.trap_or_write_by_bit (target_aligned_iff (by decide) he hp)⟩
  case jalr =>
    obtain ⟨t, hx, hl⟩ := jalr_links rd rs1 imm s
    obtain ⟨heven, hbit⟩ := getLsbD_and_clearBit0 (s.x rs1 + imm.signExtend 32)
    have ha := and_three_eq_zero_iff_of_even heven
    rw [hbit] at ha
    obtain ⟨htrap, hjump⟩ := hl.trap_or_write_by_bit ha
    refine ⟨t, hx, fun h1 => ⟨htrap h1, fun hm => ?_⟩, hjump⟩
    rw [(htrap h1).mtval hm, and_three_of_even heven, hbit, if_pos h1]

end Sys2Proof.Machine
end

section
/-! Loads, stores and MISC-MEM (spec/43_load_store_fence.md R150 to R161): the two shared operations in the cases of
their alignment test, the load into `x0`, and which MISC-MEM words are instructions. -/

namespace Sys2Proof.Machine

variable {c : Config} {w : Word} {s t : State} {n : Width} {low : Word}

/-! ## The two shared operations (R158) -/

theorem aligned_byte_iff (a : Word) : aligned .byte a = true ↔ a &&& 0#32 = 0#32 :=
  iff_of_true (aligned_byte a) BitVec.and_zero

/-- The alignment test as the model decides it and as a rule states it, by the low bits, are the same. -/
theorem load_loadsOrTraps (hlow : ∀ a, aligned n a = true ↔ a &&& low = 0#32) (s : State) (rd : Reg) (ea : Word)
    (ext : Word → Word) : LoadsOrTraps s (s.load rd ea n ext) rd ea n low ext where
  done h := load_aligned s rd ext ((hlow ea).2 h)
  trapped h := by
    rw [load_misaligned s rd ext (Bool.eq_false_iff.2 (mt (hlow ea).1 h))]
    exact trap_takes s _

/-- A misaligned store's `mtval` is its address under every configuration (R194). -/
theorem store_storesOrTraps (hlow : ∀ a, aligned n a = true ↔ a &&& low = 0#32) (hc : s.cfg.wf = true) (ea v : Word) :
    StoresOrTraps s (s.store ea n v) ea n low v where
  done h := store_aligned s v hc ((hlow ea).2 h)
  trapped h := by
    rw [store_misaligned s v (Bool.eq_false_iff.2 (mt (hlow ea).1 h))]
    exact ⟨trap_takes s _, rfl⟩

theorem loadsFrom_of_load {i : Instr} {rd rs1 : Reg} {imm : BitVec 12} {ext : Word → Word}
    (hlow : ∀ a, aligned n a = true ↔ a &&& low = 0#32)
    (h : ∀ s, exec i s = .next (s.load rd (effAddr s rs1 imm) n ext)) : LoadsFrom i rd rs1 imm n low ext :=
  fun s => ⟨_, h s, load_loadsOrTraps hlow s rd _ ext⟩

theorem storesTo_of_store {i : Instr} {rs2 rs1 : Reg} {imm : BitVec 12}
    (hlow : ∀ a, aligned n a = true ↔ a &&& low = 0#32)
    (h : ∀ s, exec i s = .next (s.store (effAddr s rs1 imm) n (s.x rs2))) : StoresTo i rs2 rs1 imm n low :=
  fun s hc => ⟨_, h s, store_storesOrTraps hlow hc _ (s.x rs2)⟩

/-! ## The load into `x0` (R158, D21) -/

/-- A write to `x0` is discarded (R10). -/
theorem SetsReg.keepsRegs_of_zero {v : Word} (h : SetsReg s t 0#5 v) : KeepsRegs s t := by
  intro r
  by_cases hr : r = 0#5
  · rw [hr, State.x, State.x, readReg_zero, readReg_zero]
  · exact h.others r hr

/-- A platform device has seen a request below RAM_BASE (R46, R47). -/
theorem mmioLogAfter_platform {a : Word} (r : MmioRequest) (ha : isRam s.cfg a = false)
    (hp : s.cfg.mmio = .platform) : mmioLogAfter s a r = r :: s.mmioLog := by
  simp [mmioLogAfter, ha, hp]

/-! ## The MISC-MEM words (R161, D12) -/

theorem decode_miscMem (ho : opcodeOf w = 0x0F#7) : decode c w = decodeMiscMem c w := by simp [decode, ho]

theorem decodeMiscMem_zero (hf : funct3Of w = 0#3) :
    decodeMiscMem c w = if c.miscMem = .illegal then .error .miscMem else .ok .fence := by simp [decodeMiscMem, hf]

theorem decodeMiscMem_one (hf : funct3Of w = 1#3) :
    decodeMiscMem c w = if c.miscMem = .nopBoth then .ok .fenceI else .error .miscMem := by simp [decodeMiscMem, hf]

theorem decodeMiscMem_other (h0 : funct3Of w ≠ 0#3) (h1 : funct3Of w ≠ 1#3) :
    decodeMiscMem c w = .error .miscMem := by simp [decodeMiscMem, h0, h1]

/-- The upper two bits of `funct3` exclude a value that has neither. -/
theorem funct3Of_ne_of_upper_bits {f : BitVec 3} (h : w &&& 0x00006000#32 ≠ 0#32)
    (hf : (0#17 ++ f ++ 0#12) &&& 0x00006000#32 = 0#32) : funct3Of w ≠ f := by
  rintro rfl
  rw [← and_funct3_mask, BitVec.and_assoc] at hf
  exact h hf

/-! ## The obligations -/

/-- Settles O17: two rows, and two loads whose address is always aligned. -/
theorem byteLoads : Obligations.ByteLoads :=
  ⟨fun _ => selects_of_rowOf (.lb 0#5 0#5 0#12), fun _ => selects_of_rowOf (.lbu 0#5 0#5 0#12),
    fun rd _ _ s => ⟨_, rfl, load_aligned s rd sext8 (aligned_byte _)⟩,
    fun rd _ _ s => ⟨_, rfl, load_aligned s rd zext8 (aligned_byte _)⟩⟩

/-- Settles O18: three rows, and the load in the cases of its alignment test. -/
theorem halfAndWordLoads : Obligations.HalfAndWordLoads :=
  ⟨fun _ => selects_of_rowOf (.lh 0#5 0#5 0#12), fun _ => selects_of_rowOf (.lw 0#5 0#5 0#12),
    fun _ => selects_of_rowOf (.lhu 0#5 0#5 0#12),
    fun _ _ _ => loadsFrom_of_load aligned_half_iff fun _ => rfl,
    fun _ _ _ => loadsFrom_of_load aligned_word_iff fun _ => rfl,
    fun _ _ _ => loadsFrom_of_load aligned_half_iff fun _ => rfl⟩

/-- Settles O19: three rows, and the store in the cases of its alignment test, which a byte always passes. -/
theorem storesWriteMemory : Obligations.StoresWriteMemory :=
  ⟨fun _ => selects_of_rowOf (.sb 0#5 0#5 0#12), fun _ => selects_of_rowOf (.sh 0#5 0#5 0#12),
    fun _ => selects_of_rowOf (.sw 0#5 0#5 0#12),
    fun _ _ _ => storesTo_of_store aligned_byte_iff fun _ => rfl,
    fun _ _ _ => storesTo_of_store aligned_half_iff fun _ => rfl,
    fun _ _ _ => storesTo_of_store aligned_word_iff fun _ => rfl⟩

/-- Settles O20: the load completes, its result is discarded, and its request is in the log. -/
theorem loadToZeroStillReads : Obligations.LoadToZeroStillReads := by
  intro s rs1 imm hp hr hlow
  have hload := load_aligned s 0#5 id ((aligned_word_iff (effAddr s rs1 imm)).2 hlow)
  exact ⟨_, rfl, hload.regs.keepsRegs_of_zero, hload.mmioLog.trans (mmioLogAfter_platform _ hr hp)⟩

/-- Settles O21: `funct3` and the policy decide which MISC-MEM words are instructions; both only set `pc`. -/
theorem fencesDoNothing : Obligations.FencesDoNothing := by
  refine ⟨fun c w h => ?zero, fun c w h => ?one, fun c w h hf => ?other, fun s => ⟨_, rfl, setPc_goesTo s _⟩,
    fun s => ⟨_, rfl, setPc_goesTo s _⟩⟩
  case zero =>
    obtain ⟨ho, hf⟩ := (mask_funct3 w 0#3 0x0F#7).1 h
    rw [decode_miscMem ho, decodeMiscMem_zero hf]
  case one =>
    obtain ⟨ho, hf⟩ := (mask_funct3 w 1#3 0x0F#7).1 h
    rw [decode_miscMem ho, decodeMiscMem_one hf]
  case other =>
    rw [decode_miscMem ((mask_opcode w 0x0F#7).1 h)]
    exact decodeMiscMem_other (funct3Of_ne_of_upper_bits hf rfl) (funct3Of_ne_of_upper_bits hf rfl)

end Sys2Proof.Machine
end

section
/-! The system instructions and the CSRs (spec/44_system_csr.md R165 to R175): the words that are one instruction each,
the two CSR maps, and what the two shared CSR operations read, write and leave alone. -/

namespace Sys2Proof.Machine

variable {c : Config} {w : Word} {i : Instr} {a : CsrAddr}

/-! ## Whole-word instructions (R84) -/

/-- Outside custom-0 the encoding decodes to its instruction under every configuration that has it, permitted or not. -/
theorem decode_encode_of_opcode (hi : i.wf c = true) (ho : opcodeOf (encode Config.cfg0 i) ≠ 0x0B#7) :
    decode c (encode c i) = .ok i := by
  have he : encode c i = encode Config.cfg0 i := encode_eq_cfg0 ho
  have hd : decode c (encode c i) = .ok (refill (encode c i) i) :=
    selects_row hi (fun h => absurd (he ▸ h) ho) (encode c i) rfl
  rwa [refill_encode hi] at hd

/-- An instruction without ignored fields is what its own encoding decodes to, and no other word. -/
theorem decode_iff_eq_encode (i : Instr) (hi : i.wf c = true := by rfl)
    (ho : opcodeOf (encode Config.cfg0 i) ≠ 0x0B#7 := by decide) (hz : ignoredBits i = 0#32 := by rfl) :
    decode c w = .ok i ↔ w = encode c i := by
  constructor
  · intro h
    exact (encode_eq_of_decode h (by rw [hz, BitVec.and_zero])).symm
  · rintro rfl
    exact decode_encode_of_opcode hi ho

/-! ## The CSR maps (R174, R175) -/

theorem csrRead_unmapped (s : State) (ha : a ∉ [0x301#12, 0x305#12, 0x340#12, 0x341#12, 0x342#12, 0x343#12, 0xF11#12,
    0xF12#12, 0xF13#12, 0xF14#12]) : s.csrRead a = 0#32 := by
  simp only [List.mem_cons, List.not_mem_nil, or_false, not_or] at ha
  simp only [State.csrRead, ha, if_false]

theorem csrWrite_unmapped (s : State) (v : Word) (ha : a ∉ [0x305#12, 0x340#12, 0x341#12, 0x342#12, 0x343#12]) :
    s.csrWrite a v = s := by
  simp only [List.mem_cons, List.not_mem_nil, or_false, not_or] at ha
  simp only [State.csrWrite, ha, if_false]

/-! ## The two shared operations (R168 to R170) -/

/-- The source of `CSRRW` is in the CSR and the old value in `x[rd]`, read before the write. -/
theorem csrSwap_access (s : State) (rd : Reg) (a : CsrAddr) (src : Word) :
    CsrAccess s (s.csrSwap rd a src) (s.csrWrite a src) rd a :=
  have h := retireWith_writes (s.csrWrite a src) rd (s.csrRead a)
  { regs := ⟨h.regs.result, h.regs.others⟩
    pc := h.pc
    csrs := h.csrs
    run := ⟨h.run.cfg, h.run.run, h.run.bridgeLog⟩
    memory := ⟨h.memory.bytes, h.memory.mmioLog⟩ }

/-- A zero source value makes it a plain read, any other the swap with the new value. -/
theorem csrModify_access (s : State) (rd : Reg) (a : CsrAddr) (src new : Word) :
    CsrAccess s (s.csrModify rd a src new) (s.csrWriteIf src a new) rd a := by
  by_cases h : src = 0#32
  · rw [h, csrModify_zero, State.csrWriteIf, if_pos rfl]
    obtain ⟨hregs, hpc, hcsrs, hrun, hmem⟩ := retireWith_writes s rd (s.csrRead a)
    exact ⟨hregs, hpc, hcsrs, hrun, hmem⟩
  · rw [csrModify_nonzero s rd a new h, State.csrWriteIf, if_neg h]
    exact csrSwap_access s rd a new

/-! ## The obligations -/

/-- Settles O30: three rows, one swap and two conditional writes whose source is `x[rs1]`. -/
theorem csrRegisterForms : Obligations.CsrRegisterForms :=
  ⟨fun _ => selects_of_rowOf (.csrrw 0#5 0#12 0#5), fun _ => selects_of_rowOf (.csrrs 0#5 0#12 0#5),
    fun _ => selects_of_rowOf (.csrrc 0#5 0#12 0#5),
    fun rd a rs1 s => ⟨_, rfl, csrSwap_access s rd a (s.x rs1)⟩,
    fun rd a rs1 s => ⟨_, rfl, csrModify_access s rd a (s.x rs1) _⟩,
    fun rd a rs1 s => ⟨_, rfl, csrModify_access s rd a (s.x rs1) _⟩⟩

/-- Settles O31: three rows, and the operations of the register forms with the field as their source. -/
theorem csrImmediateForms : Obligations.CsrImmediateForms :=
  ⟨fun _ => selects_of_rowOf (.csrrwi 0#5 0#12 0#5), fun _ => selects_of_rowOf (.csrrsi 0#5 0#12 0#5),
    fun _ => selects_of_rowOf (.csrrci 0#5 0#12 0#5),
    fun rd a u s => ⟨_, rfl, csrSwap_access s rd a (uimmVal u)⟩,
    fun rd a u s => ⟨_, rfl, csrModify_access s rd a (uimmVal u) _⟩,
    fun rd a u s => ⟨_, rfl, csrModify_access s rd a (uimmVal u) _⟩⟩

/-- Settles O27: neither word has an ignored field, and both instructions are a trap entry. -/
theorem ecallEbreakTrap : Obligations.EcallEbreakTrap :=
  ⟨fun _ _ => decode_iff_eq_encode .ecall, fun _ _ => decode_iff_eq_encode .ebreak,
    fun s => ⟨_, rfl, trap_takes s .envCallFromM⟩, fun s => ⟨_, rfl, trap_takes s .breakpoint⟩⟩

/-- Settles O28: the two cases of the alignment test on `mepc`. -/
theorem mretReturns : Obligations.MretReturns := by
  refine ⟨fun _ _ => decode_iff_eq_encode .mret, fun s ha => ?aligned, fun s ha => ?misaligned⟩
  case aligned =>
    exact ⟨s.setPc s.mepc, by rw [exec_mret, if_pos ((aligned_word_iff _).2 ha)], setPc_goesTo s s.mepc⟩
  case misaligned => rw [exec_mret, if_neg (mt (aligned_word_iff _).1 ha)]

/-- Settles O29: each named address by computing the map there, any other by the map's last branch. -/
theorem csrMaps : Obligations.CsrMaps := fun s v =>
  ⟨⟨rfl, rfl, rfl, rfl, rfl, rfl, rfl, rfl, rfl, rfl, fun _ => csrRead_unmapped s⟩,
    ⟨rfl, rfl, rfl, rfl, rfl, fun _ => csrWrite_unmapped s v⟩⟩

end Sys2Proof.Machine
end

section
/-! The custom-0 instructions and the bridge (spec/45_custom0.md R180 to R185): the words they decode from, the end of a
run, what a call of the host changes, and what it rests on. -/

namespace Sys2Proof.Machine

variable {s s' : State} {c : Config} {w : Word} {call : BridgeCall} {k : BridgeKind}

/-! ## Decoding (R85): the function codes are parameters, and `EXITI` is tested first -/

theorem decode_custom0 (ho : opcodeOf w = 0x0B#7) : decode c w = decodeCustom0 c w := by simp [decode, ho]

theorem decode_exiti (ho : opcodeOf w = 0x0B#7) (hf : funct3Of w = c.f3Exiti) :
    decode c w = .ok (.exiti (immIOf w)) := by
  rw [decode_custom0 ho, decodeCustom0, if_pos hf]

theorem decode_exit (hc : c.wf = true) (ho : opcodeOf w = 0x0B#7) (hf : funct3Of w = c.f3Exit) :
    decode c w = .ok (.exit (rs1Of w)) := by
  obtain ⟨hexiti, -, -⟩ := custom0_codes_distinct hc
  rw [decode_custom0 ho, decodeCustom0, hf, if_neg hexiti.symm, if_pos rfl]

theorem decode_iocall (hc : c.wf = true) (ho : opcodeOf w = 0x0B#7) (hf : funct3Of w = c.f3Iocall) :
    decode c w = .ok (.iocall (immIOf w)) := by
  obtain ⟨-, hexiti, hexit⟩ := custom0_codes_distinct hc
  rw [decode_custom0 ho, decodeCustom0, hf, if_neg hexiti.symm, if_neg hexit.symm, if_pos rfl]

/-! ## The end of a run (R180, R181) -/

theorem halt_halts (s : State) (code : Word) : Halts s (s.halt code) code where
  run := rfl
  pc := rfl
  regs _ := rfl
  csrs := ⟨rfl, rfl, rfl, rfl, rfl⟩
  cfg := rfl
  bridgeLog := rfl
  memory := keepsMemory_of_eq rfl rfl rfl

/-! ## What a call leaves (R182, R183) -/

theorem afterBridge_sets_x10 (s : State) (call : BridgeCall) (k : BridgeKind) (host : BridgeEvent → BridgeAnswer) :
    SetsReg s (s.afterBridge call k host) 10#5 (bridgeResult s call k host) where
  result := readReg_writeReg_self s.regs 10#5 _
  others _ h := readReg_writeReg_ne s.regs _ h

theorem afterBridge_x10 (s : State) (call : BridgeCall) (k : BridgeKind) (host : BridgeEvent → BridgeAnswer) :
    (s.afterBridge call k host).x 10#5 = bridgeResult s call k host :=
  (afterBridge_sets_x10 s call k host).result

theorem bridgeResult_failed (host : BridgeEvent → BridgeAnswer) (h : s.bridgeBytes call k = none) :
    bridgeResult s call k host = 0xFFFFFFFF#32 := by rw [bridgeResult, h]

theorem bridgeLogAfter_reached {bytes : List Byte} (h : s.bridgeBytes call k = some bytes) :
    bridgeLogAfter s call k = ⟨call, bytes⟩ :: s.bridgeLog := by rw [bridgeLogAfter, h]

/-- A call that fails returns the sentinel; neither RAM nor the host has seen it (R183 point 4). -/
theorem afterBridge_failed_frame (host : BridgeEvent → BridgeAnswer) (h : s.bridgeBytes call k = none) :
    (s.afterBridge call k host).x 10#5 = 0xFFFFFFFF#32 ∧ (s.afterBridge call k host).mem = s.mem ∧
      (s.afterBridge call k host).bridgeLog = s.bridgeLog := by
  refine ⟨(afterBridge_x10 s call k host).trans (bridgeResult_failed host h), ?_, ?_⟩ <;>
    rw [afterBridge_failed s host h] <;> rfl

theorem afterBridge_callsHost (s : State) (call : BridgeCall) :
    CallsHost s (s.afterBridge call (Config.bridgeKind call.number) (Config.bridge s.bridgeLog)).retired call where
  x10 := ⟨(afterBridge_sets_x10 s call _ _).result, (afterBridge_sets_x10 s call _ _).others⟩
  mem := rfl
  reached _ h := bridgeLogAfter_reached h
  failed h := afterBridge_failed_frame _ h
  pc := rfl
  csrs := ⟨rfl, rfl, rfl, rfl, rfl⟩
  cfg := rfl
  run := rfl
  mmioLog := rfl

/-- A byte of RAM that a call changes lies in the admitted buffer of a `read` call (R183 point 3, R184). -/
theorem bridgeRam_changed {host : BridgeEvent → BridgeAnswer} {j : Nat}
    (h : memGet (bridgeRam s call k host) j ≠ memGet s.mem j) :
    InBridgeBuffer s call k j ∧ ∃ a l, k = .read a l := by
  obtain he | ⟨a, l, data, rfl, hd, hlen, he⟩ := bridgeRam_cases s call k host
  · exact absurd (congrArg (memGet · j) he) h
  · have hj : (call.args[a]).toNat ≤ j ∧ j < (call.args[a]).toNat + data.length := by
      by_contra hout
      exact h (he ▸ memGet_memSetList_out s.mem _ data j hout)
    exact ⟨⟨_, _, rfl, hd, hj.1, by omega⟩, a, l, rfl⟩

/-! ## When a call returns (R185) -/

theorem exec_iocall_of_returns {imm : BitVec 12}
    (h : s.hostReturns (s.bridgeCallOf (immVal imm)) (Config.bridgeKind (immVal imm)) = true) :
    exec (.iocall imm) s = .next (s.afterBridge (s.bridgeCallOf (immVal imm)) (Config.bridgeKind (immVal imm))
      (Config.bridge s.bridgeLog)).retired := if_pos h

theorem exec_iocall_of_blocks {imm : BitVec 12}
    (h : s.hostReturns (s.bridgeCallOf (immVal imm)) (Config.bridgeKind (immVal imm)) = false) :
    exec (.iocall imm) s = .fault .hostNeverReturns := if_neg (by simp [h])

theorem exec_iocall_callsHost {imm : BitVec 12}
    (h : s.hostReturns (s.bridgeCallOf (immVal imm)) (Config.bridgeKind (immVal imm)) = true) :
    ∃ t, exec (.iocall imm) s = .next t ∧ CallsHost s t (s.bridgeCallOf (immVal imm)) :=
  ⟨_, exec_iocall_of_returns h, afterBridge_callsHost s _⟩

theorem hostReturns_failed (h : s.bridgeBytes call k = none) : s.hostReturns call k = true := by
  cases hh : s.cfg.host <;> simp [State.hostReturns, hh, h]

theorem hostReturns_mayBlock {bytes : List Byte} (hh : s.cfg.host = .mayBlock) (h : s.bridgeBytes call k = some bytes) :
    s.hostReturns call k = Config.bridgeReturns s.bridgeLog ⟨call, bytes⟩ := by simp [State.hostReturns, hh, h]

/-! ## What a call rests on (R183 points 1 and 3): beside the configuration and the log, the call and the bytes of its
own buffer -/

theorem hostReturns_congr (hc : s'.cfg = s.cfg) (hl : s'.bridgeLog = s.bridgeLog)
    (hb : s'.bridgeBytes call k = s.bridgeBytes call k) : s'.hostReturns call k = s.hostReturns call k := by
  simp only [State.hostReturns, hc, hl, hb]

theorem bridgeResult_congr (host : BridgeEvent → BridgeAnswer) (hb : s'.bridgeBytes call k = s.bridgeBytes call k) :
    bridgeResult s' call k host = bridgeResult s call k host := by simp only [bridgeResult, hb]

theorem bridgeLogAfter_congr (hl : s'.bridgeLog = s.bridgeLog) (hb : s'.bridgeBytes call k = s.bridgeBytes call k) :
    bridgeLogAfter s' call k = bridgeLogAfter s call k := by simp only [bridgeLogAfter, hl, hb]

theorem bridgeRam_congr (host : BridgeEvent → BridgeAnswer) (hb : s'.bridgeBytes call k = s.bridgeBytes call k)
    {j : Nat} (hj : memGet s'.mem j = memGet s.mem j) :
    memGet (bridgeRam s' call k host) j = memGet (bridgeRam s call k host) j := by
  unfold bridgeRam
  rw [hb]
  split
  · exact memGet_memSetList_congr _ _ hj
  · exact hj

theorem SameToBridge.call_eq {number : Word} (h : SameToBridge s s' number) :
    s'.bridgeCallOf number = s.bridgeCallOf number := by
  have hx (r : Reg) (hr : 10 ≤ r.toNat ∧ r.toNat ≤ 17) : s'.x r = s.x r := h.args r hr.1 hr.2
  simp only [State.bridgeCallOf, hx 10#5 (by decide), hx 11#5 (by decide), hx 12#5 (by decide), hx 13#5 (by decide),
    hx 14#5 (by decide), hx 15#5 (by decide), hx 16#5 (by decide), hx 17#5 (by decide)]

theorem SameToBridge.bytes_eq {number : Word} (h : SameToBridge s s' number) :
    s'.bridgeBytes (s.bridgeCallOf number) (Config.bridgeKind number) =
      s.bridgeBytes (s.bridgeCallOf number) (Config.bridgeKind number) :=
  bridgeBytes_congr _ _ h.cfg fun addr len hb hd j hlo hhi => h.buffer j ⟨addr, len, hb, hd, hlo, hhi⟩

/-! ## The obligations -/

/-- Settles O32: the words by opcode and function code, and two ends of a run. -/
theorem exitInstructions : Obligations.ExitInstructions := by
  refine ⟨fun c w h => decode_exiti ((mask_opcode w _).1 h), fun c w hc h => decode_exit hc ((mask_opcode w _).1 h),
    fun w h => ?exiti, fun w h => ?exit, fun imm s => ⟨_, rfl, halt_halts s _⟩, fun rs1 s => ⟨_, rfl, halt_halts s _⟩⟩
  case exiti =>
    obtain ⟨ho, hf⟩ := (mask_funct3 w 0#3 0x0B#7).1 h
    exact decode_exiti ho hf
  case exit =>
    obtain ⟨ho, hf⟩ := (mask_funct3 w 1#3 0x0B#7).1 h
    exact decode_exit inv_reset.cfg ho hf

/-- Settles O33: the call is the one `bridgeCallOf` builds, and whether it returns is decided by the kind of host and,
under one that may block, by whether the call reaches it. -/
theorem iocallCallsTheHost : Obligations.IocallCallsTheHost := by
  refine ⟨fun c w hc h => decode_iocall hc ((mask_opcode w _).1 h), fun w h => ?row, fun imm s =>
    ⟨s.bridgeCallOf (immVal imm), rfl, rfl, fun hh => exec_iocall_callsHost (hostReturns_returns s _ _ hh),
      fun hh => ?mayBlock⟩⟩
  case row =>
    obtain ⟨ho, hf⟩ := (mask_funct3 w 2#3 0x0B#7).1 h
    exact decode_iocall inv_reset.cfg ho hf
  case mayBlock =>
    split
    next hb => exact exec_iocall_callsHost (hostReturns_failed hb)
    next bytes hb =>
      have hr := hostReturns_mayBlock hh hb
      split
      next hret => exact exec_iocall_callsHost (hr.trans hret)
      next hret => exact exec_iocall_of_blocks (hr.trans (Bool.eq_false_iff.2 hret))

/-- Settles O34: the cases of RAM after a call, and the frame of a call that fails. -/
theorem bridgeStaysInWindow : Obligations.BridgeStaysInWindow := by
  refine fun s call k host => ⟨fun j => bridgeRam_changed, fun h => ?_⟩
  obtain ⟨hx, hmem, hlog⟩ := afterBridge_failed_frame host (bridgeBytes_none s h)
  exact ⟨hmem, hlog, hx⟩

/-- Settles O35: both states make the same call with the same bytes, and everything the call does rests on these. -/
theorem bridgeLearnsNothingElse : Obligations.BridgeLearnsNothingElse := by
  intro s s' imm h
  have hcall : s'.bridgeCallOf (immVal imm) = s.bridgeCallOf (immVal imm) := h.call_eq
  have hbytes := h.bytes_eq
  have hret := hostReturns_congr h.cfg h.bridgeLog hbytes
  cases hr : s.hostReturns (s.bridgeCallOf (immVal imm)) (Config.bridgeKind (immVal imm))
  case false => exact .inr ⟨exec_iocall_of_blocks hr, exec_iocall_of_blocks (by rw [hcall]; exact hret.trans hr)⟩
  case true =>
    have hexec' := exec_iocall_of_returns (s := s') (by rw [hcall]; exact hret.trans hr)
    rw [hcall, h.bridgeLog] at hexec'
    refine .inl ⟨_, _, exec_iocall_of_returns hr, hexec', ?x10, bridgeLogAfter_congr h.bridgeLog hbytes,
      fun j hj => bridgeRam_congr _ hbytes (h.buffer j hj)⟩
    case x10 =>
      exact (afterBridge_x10 s' ..).trans ((bridgeResult_congr _ hbytes).trans (afterBridge_x10 s ..).symm)

end Sys2Proof.Machine
end

section
/-! Exceptions (spec/60_exceptions.md): trap entry, the two answers to an illegal word, the return from a handler, the
handler that traps to itself, and the steps of a running machine that answer no next state. -/

namespace Sys2Proof.Machine

variable {s : State}

/-! ## Trap entry under CFG0 (R190) -/

/-- CFG0 decides both what goes to `mcause` and what goes to `mtval`. -/
theorem trap_cause_value_cfg0 (h : s.cfg = Config.cfg0) (e : Exception) :
    ((s.trap e).mcause, (s.trap e).mtval) = (causeOf Config.cfg0 e, valueOf e) := by
  have htrap := trap_takes s e
  rw [htrap.mcause, htrap.mtval (h ▸ rfl), h]

/-! ## Illegal words (R191, R205) -/

theorem step_illegal_traps {e : Illegal} (hrun : s.run = .running) (hd : decode s.cfg s.fetchWord = .error e)
    (habort : s.cfg.abortOnIllegal = false) :
    step s = .next (s.afterFetch.trap (.illegalInstruction s.fetchWord)) := by
  rw [step_illegal s hrun hd, State.illegal, if_neg (by simp [habort])]

theorem step_illegal_aborts {e : Illegal} (hrun : s.run = .running) (hd : decode s.cfg s.fetchWord = .error e)
    (habort : s.cfg.abortOnIllegal = true) : step s = .next (s.afterFetch.setRun .aborted) := by
  rw [step_illegal s hrun hd, State.illegal, if_pos (by simp [habort])]

/-! ## Return from a handler (R167, R202) -/

theorem exec_mret_of_aligned (h : s.mepc &&& 3#32 = 0#32) : exec .mret s = .next (s.setPc s.mepc) := by
  rw [exec_mret, if_pos ((aligned_word_iff _).2 h)]

theorem exec_mret_of_misaligned (h : s.mepc &&& 3#32 ≠ 0#32) : exec .mret s = .refused .mretMisaligned := by
  rw [exec_mret, if_neg (mt (aligned_word_iff _).1 h)]

/-- A `CSRRW` of `mepc` with `rd = x0` leaves the source there and keeps the registers. -/
theorem csrSwap_mepc (s : State) (v : Word) :
    (s.csrSwap 0#5 0x341#12 v).mepc = v ∧ KeepsRegs s (s.csrSwap 0#5 0x341#12 v) := by
  obtain ⟨hregs, -, hcsrs, -, -⟩ := csrSwap_access s 0#5 0x341#12 v
  exact ⟨hcsrs.mepc, hregs.keepsRegs_of_zero⟩

/-! ## The handler that traps to itself (R201) -/

/-- A running machine at its own handler, whose word is no instruction and whose fetch no device notices. -/
structure AtIllegalHandler (s : State) : Prop where
  run : s.run = .running
  traps : s.cfg.abortOnIllegal = false
  fetch : isRam s.cfg s.pc = true ∨ s.cfg.mmio = .default
  pc : s.pc = clearLow2 s.mtvec
  illegal : ∃ e, decode s.cfg s.fetchWord = .error e

/-- Of what a fetch reads, trap entry changes `pc` only, and at the handler not even that. -/
theorem trap_fetchWord_at_handler (h : s.pc = clearLow2 s.mtvec) (e : Exception) :
    (s.trap e).fetchWord = s.fetchWord :=
  congrArg (s.busRead · .word) h.symm

/-- A trap taken at the handler lands where it came from, so a second one with the same exception writes what is there
already. -/
theorem trap_trap_at_handler (h : s.pc = clearLow2 s.mtvec) (e : Exception) : (s.trap e).trap e = s.trap e := by
  have hmtval : mtvalOf (s.trap e) e = mtvalOf s e := by cases e <;> simp [mtvalOf, openMtval, h]
  calc (s.trap e).trap e
    _ = { s.trap e with mepc := clearLow2 s.mtvec, mtval := mtvalOf (s.trap e) e } := rfl
    _ = { s.trap e with mepc := s.pc, mtval := mtvalOf s e } := by rw [← h, hmtval]
    _ = s.trap e := rfl

theorem AtIllegalHandler.step_eq (h : AtIllegalHandler s) :
    step s = .next (s.trap (.illegalInstruction s.fetchWord)) := by
  obtain ⟨e, hd⟩ := h.illegal
  rw [step_illegal_traps h.run hd h.traps, afterFetch_eq_self h.fetch]

theorem AtIllegalHandler.trap (h : AtIllegalHandler s) (e : Exception) : AtIllegalHandler (s.trap e) where
  run := h.run
  traps := h.traps
  fetch := by rw [trap_pc, trap_cfg, ← h.pc]; exact h.fetch
  pc := rfl
  illegal := by rw [trap_fetchWord_at_handler h.pc]; exact h.illegal

/-- A state that steps to itself does so for ever. -/
theorem steps_of_step_self (h : step s = .next s) (n : Nat) : steps n s = .next s := by
  induction n with
  | zero => rfl
  | succ n ih => rw [steps, h]; exact ih

/-- The state after the first trap is a fixed point of `step`. -/
theorem AtIllegalHandler.steps_succ_eq (h : AtIllegalHandler s) (n : Nat) :
    steps (n + 1) s = .next (s.trap (.illegalInstruction s.fetchWord)) := by
  have hstay := (h.trap (.illegalInstruction s.fetchWord)).step_eq
  rw [trap_fetchWord_at_handler h.pc, trap_trap_at_handler h.pc] at hstay
  rw [steps, h.step_eq]
  exact steps_of_step_self hstay n

/-! ## The obligations -/

/-- Settles O41: the trap leaves the `ECALL`'s address in `mepc`, the CSR write the next one, and the return goes to
either, since both are aligned. -/
theorem ecallThenMret : Obligations.EcallThenMret := by
  intro s r hpc hr
  have htrap := trap_takes s .envCallFromM
  refine ⟨s.trap .envCallFromM, rfl, htrap.mepc, ⟨_, exec_mret_of_aligned hpc, rfl, htrap.regs⟩, ?advanced⟩
  case advanced =>
    obtain ⟨hmepc, hregs⟩ := csrSwap_mepc (s.trap .envCallFromM) (s.x r)
    have hnext : (s.x r) &&& 3#32 = 0#32 := by
      rw [hr, ← aligned_word_iff]
      exact aligned_add_four ((aligned_word_iff s.pc).2 hpc)
    exact ⟨_, _, rfl, exec_mret_of_aligned (hmepc.symm ▸ hnext), hmepc.trans hr,
      fun q => (hregs q).trans (htrap.regs q)⟩

/-- Settles O42: after every `n + 1` steps the machine is in the state the first trap left. -/
theorem trapLoopForever : Obligations.TrapLoopForever := by
  intro s e n hrun habort hfetch hpc hd
  have htrap := trap_takes s (.illegalInstruction s.fetchWord)
  have hloop : AtIllegalHandler s := ⟨hrun, habort, hfetch, hpc, e, hd⟩
  exact ⟨_, hloop.steps_succ_eq n, htrap.pc.trans hpc.symm, htrap.mepc, htrap.mcause,
    htrap.run.run.trans hrun, htrap.regs⟩

/-- Settles O46: an illegal word steps either way, and of the instructions only `MRET` and `IOCALL` can fail to. -/
theorem runningMachineSteps : Obligations.RunningMachineSteps := by
  intro s hrun
  cases hd : decode s.cfg s.fetchWord with
  | error e => exact .inl ⟨_, step_illegal s hrun hd⟩
  | ok i =>
    rw [step_decoded s hrun hd]
    cases i
    case mret =>
      by_cases ha : s.mepc &&& 3#32 = 0#32
      · exact .inl ⟨_, exec_mret_of_aligned ha⟩
      · exact .inr (.inl ⟨rfl, ha, exec_mret_of_misaligned ha⟩)
    case iocall imm =>
      exact (exec_iocall s.afterFetch imm).imp_right fun ⟨hhost, hfault⟩ => .inr ⟨imm, rfl, hhost, hfault⟩
    all_goals exact .inl (exec_next s.afterFetch nofun nofun)

/-- Settles O37: the frame of trap entry, for every exception. -/
theorem trapEntry : Obligations.TrapEntry := trap_takes

/-- Settles O38: each pair is what CFG0 decides for its exception. -/
theorem causeCodesUnderCfg0 : Obligations.CauseCodesUnderCfg0 := fun _ a h =>
  ⟨trap_cause_value_cfg0 h (.instrAddrMisaligned a), trap_cause_value_cfg0 h (.illegalInstruction a),
    trap_cause_value_cfg0 h .breakpoint, trap_cause_value_cfg0 h (.loadAddrMisaligned a),
    trap_cause_value_cfg0 h (.storeAddrMisaligned a), trap_cause_value_cfg0 h .envCallFromM⟩

/-- Settles O39: the trap is taken from the state the fetch leaves. -/
theorem illegalInstructionTraps : Obligations.IllegalInstructionTraps := fun s _ hrun hd habort =>
  ⟨_, step_illegal_traps hrun hd habort, trap_takes s.afterFetch (.illegalInstruction s.fetchWord)⟩

/-- Settles O40: the other branch on ABORT_ON_ILLEGAL. -/
theorem abortOnIllegal : Obligations.AbortOnIllegal := fun _ _ => step_illegal_aborts

end Sys2Proof.Machine
end

section
/-! Boot (spec/70_reset_and_hazards.md R220, R221): an image that fits is written over RESET_RAM from `RAM_BASE` on. -/

namespace Sys2Proof.Machine

variable {c : Config} {v : ResetValues} {image : List Byte} {s : State}

/-! ## Addresses of the first image of RAM (R42, R54) -/

/-- An address above `RAM_BASE` that does not wrap, as a number. -/
theorem ramBase_add_toNat {i : Nat} (h : c.ramBase.toNat + i < 2 ^ 32) :
    (c.ramBase + BitVec.ofNat 32 i).toNat = c.ramBase.toNat + i := by
  rw [BitVec.toNat_add, BitVec.toNat_ofNat]
  omega

theorem isRam_ramBase_add {i : Nat} (h : c.ramBase.toNat + i < 2 ^ 32) :
    isRam c (c.ramBase + BitVec.ofNat 32 i) = true := by
  rw [isRam_iff, ramBase_add_toNat h]
  exact Nat.le_add_right ..

/-- In the first image an address is its own key. -/
theorem ramKey_ramBase_add {i : Nat} (hi : i < ramSize c) (h : c.ramBase.toNat + i < 2 ^ 32) :
    ramKey c (c.ramBase + BitVec.ofNat 32 i) = c.ramBase.toNat + i := by
  rw [ramKey, ramOff_toNat, sub_toNat_of_isRam (isRam_ramBase_add h), ramBase_add_toNat h, Nat.add_sub_cancel_left,
    Nat.mod_eq_of_lt hi]

/-! ## What boots -/

theorem bootState_eq_none_iff : bootState c v image = none ↔ ramSize c < image.length := by
  simp [bootState]

theorem bootState_fits (h : bootState c v image = some s) : image.length ≤ ramSize c := by
  by_contra hlong
  rw [bootState_eq_none_iff.2 (Nat.lt_of_not_le hlong)] at h
  cases h

theorem bootState_eq (h : bootState c v image = some s) :
    s = { cfg := c, regs := v.regs, pc := c.ramBase, mscratch := v.mscratch, mtvec := v.mtvec, mepc := v.mepc
          mcause := v.mcause, mtval := v.mtval, run := .running, mem := memSetList v.ram c.ramBase.toNat image
          mmioLog := [], bridgeLog := [] } := by
  rw [bootState, if_pos (bootState_fits h)] at h
  exact (Option.some.inj h).symm

/-! ## RAM and the invariant after boot -/

/-- The bus reads the image back (R220, R44). -/
theorem bootState_busRead_image (hs : bootState c v image = some s) {i : Nat} (hi : i < image.length)
    (hc : c.wf = true) (h : c.ramBase.toNat + i < 2 ^ 32) :
    s.busRead (c.ramBase + BitVec.ofNat 32 i) .byte = image[i].setWidth 32 := by
  have hkey := ramKey_ramBase_add (Nat.lt_of_lt_of_le hi (bootState_fits hs)) h
  obtain rfl := bootState_eq hs
  rw [busRead_byte_eq hc (isRam_ramBase_add h), State.ramByte, hkey, memGet_memSetList_in _ _ _ _ hi]

/-- Past the image RAM keeps RESET_RAM (R37). -/
theorem bootState_ramByte_rest (hs : bootState c v image = some s) {a : Word}
    (ha : image.length ≤ (ramOff c a).toNat) : s.ramByte a = memGet v.ram (ramKey c a) := by
  obtain rfl := bootState_eq hs
  refine memGet_memSetList_out _ _ _ _ ?_
  simp only [ramKey]
  omega

/-- A permitted `RAM_BASE` is aligned, and the image is byte writes inside the array. -/
theorem bootState_inv (hs : bootState c v image = some s) (hc : c.wf = true) (hram : v.ram.wf = true)
    (hzero : v.regs[0] = 0#32)
    (hin : memWithin c.ramBase.toNat (c.ramBase.toNat + ramSize c) v.ram = true) : Inv s := by
  have hfits := bootState_fits hs
  obtain rfl := bootState_eq hs
  exact
    { cfg := hc
      pc := (aligned_iff .word c.ramBase).2 (wf_ramBase hc)
      canonical := memSetList_wf _ image hram
      inRam := memSetList_within image le_rfl (Nat.add_le_add_left hfits _) hin
      zeroCell := hzero }

/-- Settles O52: the reset values go to their fields, the image to the start of RAM, and byte writes that stay in the
array keep the invariant. -/
theorem bootState_spec : Obligations.BootState := by
  intro c v image
  refine ⟨bootState_eq_none_iff, fun s hs => ?_⟩
  obtain rfl := bootState_eq hs
  exact ⟨rfl, rfl, rfl, rfl, rfl, rfl, rfl, rfl, rfl, fun _ hi => bootState_busRead_image hs hi,
    fun _ => bootState_ramByte_rest hs, bootState_inv hs⟩

end Sys2Proof.Machine
end

section
/-! The worked encodings (spec/30_encoding.md section 7). -/

namespace Sys2Proof.Machine

/-- A word that is an instruction's encoding under CFG0 decodes to it (R92). -/
theorem decode_cfg0_of_encode_eq {i : Instr} {w : Word} (hi : i.wf Config.cfg0 = true)
    (he : encode Config.cfg0 i = w) : decode Config.cfg0 w = .ok i :=
  he ▸ decodeEncode Config.cfg0 i (by decide) hi

/-- Settles O59: each word is the encoding of its instruction, and encodings decode. -/
theorem workedEncodings : Obligations.WorkedEncodings := by
  refine ⟨?addi, ?exit, ?exiti, ?sw, ?beq, ?jal, ?lui, ?srai, ?csrrw, ?mul⟩
  all_goals exact decode_cfg0_of_encode_eq rfl rfl

end Sys2Proof.Machine
end
